-- ==== Sys2Proof/Word.lean ====
section
/-! DEFINITION. The bit patterns of PJD: bytes of the data memory and 32-bit words (spec/00_scope.md R9, R10). -/

namespace Sys2Proof

/-- `u8`: one byte of the data memory, one sample (R10). -/
abbrev Byte := BitVec 8

/-- `u32` or `s32`: a register or an intermediate of the pseudocode, with arithmetic modulo 2^32 (R10). -/
abbrev Word := BitVec 32

end Sys2Proof
end

