-- ==== Sys2Proof/Config.lean ====
section
/-! DEFINITION. What an implementation fixes (the parameters of spec/00_scope.md R8) and the free values: constants
without a body, of which no proof can know a value (spec/93_implementation_defined.md, treatment "any value"). -/

namespace Sys2Proof.Config

/-- Eight words: the inputs or the outputs of the one-dimensional kernel (spec/42_idct.md R170). -/
structure Oct where
  e0 : Word
  e1 : Word
  e2 : Word
  e3 : Word
  e4 : Word
  e5 : Word
  e6 : Word
  e7 : Word
  deriving DecidableEq, Repr, Inhabited

/-- Parameter IDCT_CONST_ROUND: how `round(k·4096)` rounds a negative `k·4096` (R173). -/
inductive ConstRound where
  | nearest
  | truncPlusHalf
  deriving DecidableEq, Repr

/-- One output of a supplied kernel as data: a term over the inputs s[0..7] with s32 wrap-around arithmetic (R10), where
`sar` is the arithmetic right shift and `ifZero a b c` is b where a is 0 and c elsewhere. -/
inductive KernelTerm where
  | input (k : Fin 8)
  | const (c : Word)
  | add (a b : KernelTerm)
  | sub (a b : KernelTerm)
  | mul (a b : KernelTerm)
  | and (a b : KernelTerm)
  | or (a b : KernelTerm)
  | xor (a b : KernelTerm)
  | shl (a : KernelTerm) (n : Nat)
  | sar (a : KernelTerm) (n : Nat)
  | ifZero (a b c : KernelTerm)
  deriving DecidableEq, Repr

/-- A supplied kernel: the terms of u[0..7]. Every function from eight words to eight words is one
(`Machine.supplied_kernel_is_any_function`, notes/assumptions/7.md). -/
structure SuppliedKernel where
  u0 : KernelTerm
  u1 : KernelTerm
  u2 : KernelTerm
  u3 : KernelTerm
  u4 : KernelTerm
  u5 : KernelTerm
  u6 : KernelTerm
  u7 : KernelTerm
  deriving DecidableEq, Repr

/-- Parameter IDCT_KERNEL (R170): the default butterfly of R171, or any kernel that the implementation supplies. -/
inductive Kernel where
  | r171
  | supplied (k : SuppliedKernel)
  deriving DecidableEq, Repr

/-- The parameters of R8. `upsRound` and `ccYBias` are in their legal range by their types. -/
structure Params where
  /-- MEM_SIZE, the size of the data memory in bytes. -/
  memSize : Nat
  /-- IDCT_KERNEL. -/
  kernel : Kernel
  /-- IDCT_CONST_ROUND. -/
  constRound : ConstRound
  /-- DEQUANT_WRAP16. -/
  dequantWrap16 : Bool
  /-- UPS_ROUND, 0 .. 3. -/
  upsRound : Fin 4
  /-- CC_Y_BIAS, 0 .. 2^20 − 1. -/
  ccYBias : Fin 1048576
  deriving DecidableEq, Repr

/-- MEM_SIZE is in its legal range 1 .. 2^32 (R8). -/
def Params.legal (p : Params) : Bool := decide (1 ≤ p.memSize) && decide (p.memSize ≤ 4294967296)

/-- The defaults of R8. -/
def Params.default : Params where
  memSize := 4294967296
  kernel := .r171
  constRound := .nearest
  dequantWrap16 := false
  upsRound := 2
  ccYBias := 524288

/-- The places of the machine that the spec leaves at an unspecified value after some event. A table is numbered
4·C + T. -/
inductive FreePlace where
  | res
  | ipos
  | iend
  | acc
  | cnt
  | hitend
  | memByte (addr : Nat)
  | huffValid (table : Nat)
  | huffNsym (table : Nat)
  | huffSymbol (table index : Nat)
  | huffSize (table index : Nat)
  | huffCode (table index : Nat)
  | huffDelta (table index : Nat)
  | huffMaxcode (table index : Nat)
  | huffFast (table index : Nat)
  | quantValid (table : Nat)
  | quantEntry (table index : Nat)
  deriving DecidableEq, Repr

/-- The free value of a place at one event. `draw` counts the events (`State.draws`), so that two events are
independent. Nothing constrains it. (notes/assumptions/5.md) -/
opaque freeWord (draw : Nat) (place : FreePlace) : Word

end Sys2Proof.Config
end

