-- ==== Sys2Proof/Syntax.lean ====
section
/-! DEFINITION. The PJD command set, one constructor per row of spec/opcode_table.json (spec/30_encoding.md R84). -/

namespace Sys2Proof

/-- A Huffman class, the C field: 0 = DC, 1 = AC (R80). -/
inductive HClass where
  | dc
  | ac
  deriving DecidableEq, Repr

/-- One command. `n` is the bit width of field N (0..31 is encodable, R82), `c` the class of field C and `t` the
table id of field T. Every other operand is an ARG register (R83). -/
inductive Instr where
  | brinit
  | brreset
  | refill
  | peek (n : Nat)
  | getbits (n : Nat)
  | recext (n : Nat)
  | rstsync
  | hbuild (c : HClass) (t : Fin 4)
  | hdec (c : HClass) (t : Fin 4)
  | qload (t : Fin 4)
  | idct (t : Fin 4)
  | upx
  | upy
  | ycc2rgba
  | gray2rgba
  deriving DecidableEq, Repr

end Sys2Proof
end

