-- ==== Sys2Proof/Machine/State.lean ====
section
/-! DEFINITION. The state of PJD (spec/10_state.md R21), the reasons a step can stop, and the state after reset
(R40). -/

namespace Sys2Proof.Machine

open Sys2Proof

/-- The fault codes 1..12 of spec/60_exceptions.md R233 (STATUS.FCODE). Raising one is a NEXT state of the machine:
the fault is latched (R231). -/
inductive FaultCode where
  | illegalCmd
  | busyWrite
  | memRange
  | badArgs
  | truncated
  | badWidth
  | bitsUnderrun
  | rstMissing
  | huffBadTable
  | huffNoTable
  | huffBadCode
  | qtNotLoaded
  deriving DecidableEq, Repr

/-- Why the machine stops. -/
inductive Fault where
  /-- An access to an address at or past MEM_SIZE, which does not exist (R60): by the host port's memory accesses, and
  by the bit reader in a state no run reaches (IEND > MEM_SIZE). Safe: the model stops where the spec has no byte. -/
  | outsideMemory
  deriving DecidableEq, Repr

/-- Why the model gives a step no meaning. -/
inductive Refusal where
  /-- Raised only by an arm of `exec` that has no meaning yet. Safe: the model stops. -/
  | notModelled (mnemonic : String)
  /-- Raised by the host port for a register access that is not a 32-bit access at a multiple of 4 inside the
  128-byte register space (R34, R272: "a model refuses any other access"). Safe: the model stops. -/
  | badRegisterAccess
  /-- Raised by the host port for a host access to a byte of the read set or write set of the running command (R271,
  93 I15: refuse). Safe: the model stops. -/
  | memoryHazard
  deriving DecidableEq, Repr

/-- One Huffman table HT[C][T] (R35). The entries SYMBOL[k], SIZE[k], CODE[k] with k ≥ NSYM, which no rule reads, are
not held: the three lists have length NSYM. -/
structure HuffTable where
  /-- HVALID: HBUILD has completed on this table. -/
  hvalid : Bool
  /-- NSYM, 0..256. -/
  nsym : Nat
  /-- SYMBOL[k], k < NSYM. -/
  symbol : List Byte
  /-- SIZE[k], the code length 1..16 of symbol index k. -/
  size : List Nat
  /-- CODE[k], the canonical code of symbol index k. -/
  code : List (BitVec 16)
  /-- DELTA[1..16] at positions 0..15. -/
  delta : Vector Word 16
  /-- MAXCODE[1..17] at positions 0..16. -/
  maxcode : Vector Word 17
  /-- FAST[0..511]: a symbol index or the sentinel 255. -/
  fast : Vector Byte 512
  deriving DecidableEq, Repr

/-- One quantisation table QT[T] with QVALID[T] (R38), 64 unsigned bytes in natural order. -/
structure QuantTable where
  qvalid : Bool
  entry : Vector Byte 64
  deriving DecidableEq, Repr

/-- The data memory (spec/20_memory.md R60), as the pairs (address, byte) whose byte differs from what an unlisted
address reads as, with addresses strictly rising. -/
structure Memory where
  cells : List Host.Cell
  deriving DecidableEq, Repr

/-- One thing the outside world does to PJD: the host's accesses to the two address spaces (R60) and the platform's
reset (R260). A register access carries its byte offset and its width in bytes. -/
inductive HostAction where
  | regWrite (off width : Nat) (v : Word)
  | regRead (off width : Nat)
  | memWrite (addr : Nat) (b : Byte)
  | memRead (addr : Nat)
  | hardReset
  deriving DecidableEq, Repr

/-- An action with its place in time: an `early` action lands while the command that is running still runs, any other
one waits until it has completed (93 I25: a command completes after any finite number of host steps). -/
structure HostEvent where
  early : Bool
  action : HostAction
  deriving DecidableEq, Repr

/-- The state of PJD with its data memory, its parameters and its environment. The host-visible registers that are
views of other state (STATUS, BR_POS, BR_END, BR_ACC, BR_CNT, TBL_STATUS), the constant ID and the write-only CTRL are
computed in `Machine/Flags.lean`. -/
structure State where
  /-- The parameters of R8. No step changes them. -/
  params : Config.Params
  /-- STATUS.BUSY (R26). -/
  busy : Bool
  /-- STATUS.FAULT and STATUS.FCODE (R26): `none` is FAULT = 0, FCODE = 0. -/
  fault : Option FaultCode
  /-- FINFO (R33). -/
  finfo : Word
  /-- CMD (R27). -/
  cmd : Word
  /-- RES (R28). -/
  res : Word
  /-- ARG0..ARG7 (R29). -/
  args : Vector Word 8
  /-- IPOS (R30). -/
  ipos : Word
  /-- IEND (R30). -/
  iend : Word
  /-- ACC (R31). -/
  acc : Word
  /-- CNT, an integer in [0,32] (R31). -/
  cnt : Nat
  /-- HITEND (R31). -/
  hitend : Bool
  /-- HT[C][T] at position 4·C + T (R35). -/
  ht : Vector HuffTable 8
  /-- QT[T] (R38). -/
  qt : Vector QuantTable 4
  /-- The data memory (R60). -/
  mem : Memory
  /-- The model's own: what the host and the platform do next, first action first (notes/assumptions/3.md). -/
  inbox : List HostEvent
  /-- The model's own: the value the last host read was answered with (notes/assumptions/4.md). -/
  hostData : Word
  /-- The model's own: how many events have drawn free values (notes/assumptions/5.md). -/
  draws : Nat
  deriving DecidableEq, Repr

/-- A Huffman table right after reset: HVALID = 0 (R40). The spec leaves the rest unspecified and no rule reads it.
DESIGN CHOICE: no symbols and zeros (notes/assumptions/6.md). -/
def HuffTable.atReset : HuffTable where
  hvalid := false
  nsym := 0
  symbol := []
  size := []
  code := []
  delta := Vector.replicate 16 0
  maxcode := Vector.replicate 17 0
  fast := Vector.replicate 512 0

/-- A quantisation table right after reset: QVALID = 0 (R40). DESIGN CHOICE: zeros (notes/assumptions/6.md). -/
def QuantTable.atReset : QuantTable where
  qvalid := false
  entry := Vector.replicate 64 0

/-- PJD right after reset (R40, R260): idle, no fault, every register at its reset value of R22, nothing in memory
and nothing asked by the host. -/
def State.reset : State where
  params := Config.Params.default
  busy := false
  fault := none
  finfo := 0
  cmd := 0
  res := 0
  args := Vector.replicate 8 0
  ipos := 0
  iend := 0
  acc := 0
  cnt := 0
  hitend := false
  ht := Vector.replicate 8 HuffTable.atReset
  qt := Vector.replicate 4 QuantTable.atReset
  mem := ⟨[]⟩
  inbox := []
  hostData := 0
  draws := 0

end Sys2Proof.Machine
end

