-- ==== Sys2Proof/Machine/Ops.lean ====
section
/-! DEFINITION. The named operations over memory, registers and tables that every meaning is written in: memory
(spec/20_memory.md), free values (93 "any value"), tables (spec/10_state.md section 4), raising a fault
(spec/60_exceptions.md R231) and the reset that is the only way out of it (spec/70_reset_and_hazards.md). -/

namespace Sys2Proof.Machine

open Sys2Proof

/-! ### Memory -/

/-- What an address that memory does not list reads as. DESIGN CHOICE: the spec gives the data memory no contents of
its own (notes/assumptions/1.md). -/
def Memory.blank : Byte := 0

/-- The byte of the first cell at address `a`. -/
def Memory.lookup (a : Nat) : List Host.Cell → Byte
  | [] => Memory.blank
  | (k, v) :: rest => if a = k then v else Memory.lookup a rest

/-- The byte at `a` (R70: the byte last written there). -/
def Memory.read (m : Memory) (a : Nat) : Byte := Memory.lookup a m.cells

/-- A cell put before the first cell of a higher address. -/
def Memory.insertCell (a : Nat) (b : Byte) : List Host.Cell → List Host.Cell
  | [] => [(a, b)]
  | (k, v) :: rest => if a < k then (a, b) :: (k, v) :: rest else (k, v) :: Memory.insertCell a b rest

/-- `MemWrite(a, 1, b)` (R62). Writing the blank byte unlists the address. -/
def Memory.write (m : Memory) (a : Nat) (b : Byte) : Memory :=
  let others := m.cells.filter fun c => c.1 != a
  ⟨if b = Memory.blank then others else Memory.insertCell a b others⟩

/-- `n` byte writes, the j-th to `addr j` with value `val j`, in order of j. -/
def Memory.fill (m : Memory) (addr : Nat → Nat) (val : Nat → Byte) : Nat → Memory
  | 0 => m
  | n + 1 => (Memory.fill m addr val n).write (addr n) (val n)

/-- `n` byte writes as in `Memory.fill`, but for the addresses that do not exist: those at or past `size` (R60). -/
def Memory.fillBelow (m : Memory) (size : Nat) (addr : Nat → Nat) (val : Nat → Byte) : Nat → Memory
  | 0 => m
  | n + 1 =>
    let filled := Memory.fillBelow m size addr val n
    if addr n < size then filled.write (addr n) (val n) else filled

/-- `MemRead(a, n)` for n = 2 (R62): little-endian. -/
def Memory.read16 (m : Memory) (a : Nat) : BitVec 16 := m.read (a + 1) ++ m.read a

/-- Addresses strictly rising. -/
def Memory.rising : List Host.Cell → Bool
  | [] => true
  | [_] => true
  | c :: d :: rest => decide (c.1 < d.1) && Memory.rising (d :: rest)

/-- The canonical form: addresses strictly rising and no listed byte equal to the blank byte. -/
def Memory.wf (m : Memory) : Bool := Memory.rising m.cells && m.cells.all fun c => c.2 != Memory.blank

/-- Every listed address exists: it is below MEM_SIZE (R60). -/
def Memory.below (m : Memory) (size : Nat) : Bool := m.cells.all fun c => decide (c.1 < size)

/-! ### Argument registers and tables -/

/-- ARGk as an unsigned number (R83). -/
def State.arg (s : State) (k : Fin 8) : Nat := (s.args.get k).toNat

/-- The number of a class: 0 = DC, 1 = AC (R80). -/
def classNumber : HClass → Nat
  | .dc => 0
  | .ac => 1

/-- The position of HT[c][t]: 4·C + T, the bit of TBL_STATUS it has (R32). -/
def huffIndex (c : HClass) (t : Fin 4) : Fin 8 :=
  match c with
  | .dc => ⟨t.val, by omega⟩
  | .ac => ⟨4 + t.val, by omega⟩

/-- HT[c][t] (R35). -/
def State.huff (s : State) (c : HClass) (t : Fin 4) : HuffTable := s.ht.get (huffIndex c t)

/-- HT[c][t] <- h. -/
def State.setHuff (s : State) (c : HClass) (t : Fin 4) (h : HuffTable) : State :=
  { s with ht := s.ht.set (huffIndex c t).val h (huffIndex c t).isLt }

/-- QT[t] (R38). -/
def State.quant (s : State) (t : Fin 4) : QuantTable := s.qt.get t

/-- QT[t] <- q. -/
def State.setQuant (s : State) (t : Fin 4) (q : QuantTable) : State :=
  { s with qt := s.qt.set t.val q t.isLt }

/-- MAXCODE[i], i in 1..17. -/
def HuffTable.maxcodeAt (h : HuffTable) (i : Nat) : Word := (h.maxcode[i - 1]?).getD 0

/-- DELTA[i], i in 1..16. -/
def HuffTable.deltaAt (h : HuffTable) (i : Nat) : Word := (h.delta[i - 1]?).getD 0

/-- SYMBOL[k], k < NSYM. -/
def HuffTable.symbolAt (h : HuffTable) (k : Nat) : Byte := h.symbol.getD k 0

/-- SIZE[k], k < NSYM. -/
def HuffTable.sizeAt (h : HuffTable) (k : Nat) : Nat := h.size.getD k 0

/-- CODE[k], k < NSYM. -/
def HuffTable.codeAt (h : HuffTable) (k : Nat) : BitVec 16 := h.code.getD k 0

/-! ### Free values -/

/-- A free byte for the byte at address `a`. -/
def freeByte (draw a : Nat) : Byte := (Config.freeWord draw (.memByte a)).setWidth 8

/-- A free bit for a place. -/
def freeBit (draw : Nat) (p : Config.FreePlace) : Bool := (Config.freeWord draw p).getLsbD 0

/-- A Huffman table of which every field is free within the field's range (R35). -/
def freeHuff (draw n : Nat) : HuffTable :=
  let nsym := (Config.freeWord draw (.huffNsym n)).toNat % 257
  { hvalid := freeBit draw (.huffValid n)
    nsym := nsym
    symbol := (List.range nsym).map fun k => (Config.freeWord draw (.huffSymbol n k)).setWidth 8
    size := (List.range nsym).map fun k => 1 + (Config.freeWord draw (.huffSize n k)).toNat % 16
    code := (List.range nsym).map fun k => (Config.freeWord draw (.huffCode n k)).setWidth 16
    delta := Vector.ofFn fun i => Config.freeWord draw (.huffDelta n i.val)
    maxcode := Vector.ofFn fun i => Config.freeWord draw (.huffMaxcode n i.val)
    fast := Vector.ofFn fun i => (Config.freeWord draw (.huffFast n i.val)).setWidth 8 }

/-- A quantisation table of which every field is free. -/
def freeQuant (draw n : Nat) : QuantTable where
  qvalid := freeBit draw (.quantValid n)
  entry := Vector.ofFn fun i => (Config.freeWord draw (.quantEntry n i.val)).setWidth 8

/-- RES takes a free value. -/
def State.freeRes (s : State) : State := { s with res := Config.freeWord s.draws .res }

/-- ACC, CNT and HITEND take free values, CNT in its range [0,32] (R31). -/
def State.freeAccumulator (s : State) : State :=
  { s with
    acc := Config.freeWord s.draws .acc
    cnt := (Config.freeWord s.draws .cnt).toNat % 33
    hitend := freeBit s.draws .hitend }

/-- ACC, CNT, HITEND and IPOS take free values. -/
def State.freeReader (s : State) : State :=
  { s.freeAccumulator with ipos := Config.freeWord s.draws .ipos }

/-! ### Raising a fault -/

/-- The latching of a fault (R231): STATUS.FCODE <- code, FINFO <- info, STATUS.FAULT <- 1, STATUS.BUSY <- 0. -/
def latchFault (c : FaultCode) (info : Word) (s : State) : State :=
  { s with fault := some c, finfo := info, busy := false }

/-- `raise Fault(code)` inside a command (R231): FINFO takes the command word (R33). What the command wrote before
stands in `s`. -/
def takeFault (c : FaultCode) (s : State) : State := latchFault c s.cmd s

/-- The end of a command that raises no fault: STATUS.BUSY <- 0 (R26). -/
def complete (s : State) : State := { s with busy := false }

/-! ### Reset: the return from a fault (R238) -/

/-- The state of R40, from any state: registers at their reset values, valid bits 0, the other table fields free. The
data memory, the parameters and the environment are not changed (R260). -/
def clearRegisters (s : State) : State :=
  { s with
    busy := false
    fault := none
    finfo := 0
    cmd := 0
    res := 0
    args := Vector.replicate 8 0
    ipos := 0
    iend := 0
    acc := 0
    cnt := 0
    hitend := false
    ht := Vector.ofFn fun i => { freeHuff s.draws i.val with hvalid := false }
    qt := Vector.ofFn fun i => { freeQuant s.draws i.val with qvalid := false }
    draws := s.draws + 1 }

/-! ### Procedures that may raise -/

/-- The result of a procedure of the pseudocode: it returns a value, it raises a fault, or (in a state no run reaches)
it stops the machine. The state in the first two holds every write made so far (R231). -/
inductive Eff (α : Type) where
  | done (a : α) (s : State)
  | raised (c : FaultCode) (s : State)
  | stopped (f : Fault)

/-- One procedure after another. -/
def Eff.andThen {α β : Type} (m : Eff α) (k : α → State → Eff β) : Eff β :=
  match m with
  | .done a s => k a s
  | .raised c s => .raised c s
  | .stopped f => .stopped f

/-- A command whose body is the procedure `m`: it completes, or its fault is latched. -/
def Eff.finish (m : Eff Unit) : Host.Outcome State Fault Refusal :=
  match m with
  | .done _ s => .next (complete s)
  | .raised c s => .next (takeFault c s)
  | .stopped f => .fault f

/-- A command with checks before its pseudocode (R12): the first check that fails raises its fault and nothing is
written, else the command writes what `body` writes. -/
def checked (check : Option FaultCode) (body : State → State) (s : State) : Host.Outcome State Fault Refusal :=
  match check with
  | some c => .next (takeFault c s)
  | none => .next (complete (body s))

end Sys2Proof.Machine
end

