-- ==== Sys2Proof/Machine/Operands.lean ====
section
/-! DEFINITION. The operands of the commands (spec/30_encoding.md R83): the checks each command makes on its argument
registers before it touches memory, in the order its rule lists them, and the addresses it reads and writes (its read
set and its write set, spec/20_memory.md R64, as unbounded integers). -/

namespace Sys2Proof.Machine

open Sys2Proof

/-- The first of a list of checks that fails. -/
def firstFailing : List (Bool × FaultCode) → Option FaultCode
  | [] => none
  | (bad, c) :: rest => if bad then some c else firstFailing rest

/-- R71: the hulls [lo1, hi1] and [lo2, hi2] intersect. -/
def hullsMeet (lo1 hi1 lo2 hi2 : Nat) : Bool := decide (lo1 ≤ hi2) && decide (lo2 ≤ hi1)

/-- R64: the highest address `hi` of a set does not exist. -/
def outOfRange (s : State) (hi : Nat) : Bool := decide (s.params.memSize ≤ hi)

/-! ### BRINIT (R101) -/

/-- ARG1 > MEM_SIZE, then ARG0 > ARG1. -/
def brinitCheck (s : State) : Option FaultCode :=
  firstFailing [(decide (s.params.memSize < s.arg 1), .memRange), (decide (s.arg 1 < s.arg 0), .badArgs)]

/-! ### Field N (R82) -/

/-- Widths above 16 are rejected. -/
def widthCheck (n : Nat) : Option FaultCode := firstFailing [(decide (16 < n), .badWidth)]

/-! ### QLOAD (R160) -/

/-- q + 64 > MEM_SIZE. -/
def qloadCheck (s : State) : Option FaultCode :=
  firstFailing [(outOfRange s (s.arg 0 + 63), .memRange)]

/-! ### IDCT (R163) -/

/-- The address of sample j (row j div 8, column j mod 8) of the destination: p + r·S + c. -/
def idctAddr (s : State) (j : Nat) : Nat := s.arg 1 + j / 8 * s.arg 2 + j % 8

/-- QVALID[t], S ≥ 8, the ranges, the hulls, in this order. -/
def idctCheck (t : Fin 4) (s : State) : Option FaultCode :=
  firstFailing
    [ (!(s.quant t).qvalid, .qtNotLoaded),
      (decide (s.arg 2 < 8), .badArgs),
      (outOfRange s (s.arg 0 + 127) || outOfRange s (s.arg 1 + 7 * s.arg 2 + 7), .memRange),
      (hullsMeet (s.arg 0) (s.arg 0 + 127) (s.arg 1) (s.arg 1 + 7 * s.arg 2 + 7), .badArgs) ]

/-! ### UPX and UPY (R190) -/

/-- w·h, the number of source samples. -/
def upsCount (s : State) : Nat := s.arg 2 * s.arg 3

/-- The destination plane is contiguous from ARG1. -/
def upsAddr (s : State) (j : Nat) : Nat := s.arg 1 + j

/-- Sizes, range, overlap, in this order. -/
def upsCheck (s : State) : Option FaultCode :=
  firstFailing
    [ (decide (s.arg 2 < 1) || decide (65536 < s.arg 2) || decide (s.arg 3 < 1) || decide (65536 < s.arg 3), .badArgs),
      (outOfRange s (s.arg 0 + upsCount s - 1) || outOfRange s (s.arg 1 + 2 * upsCount s - 1), .memRange),
      (hullsMeet (s.arg 0) (s.arg 0 + upsCount s - 1) (s.arg 1) (s.arg 1 + 2 * upsCount s - 1), .badArgs) ]

/-! ### YCC2RGBA and GRAY2RGBA (R210) -/

/-- The last address of the read set of the plane at `p`: P + (H−1)·S + W − 1. -/
def planeLast (s : State) (p : Nat) : Nat := p + (s.arg 6 - 1) * s.arg 3 + s.arg 5 - 1

/-- 4·W·H, the number of destination bytes. -/
def rgbaCount (s : State) : Nat := 4 * (s.arg 5 * s.arg 6)

/-- The image is contiguous from ARG4 (R66). -/
def rgbaAddr (s : State) (j : Nat) : Nat := s.arg 4 + j

/-- Sizes and stride, range, overlap, in this order, for the source planes at the given bases. -/
def colorCheck (planes : List Nat) (s : State) : Option FaultCode :=
  firstFailing
    [ (decide (s.arg 5 < 1) || decide (65535 < s.arg 5) || decide (s.arg 6 < 1) || decide (65535 < s.arg 6)
        || decide (s.arg 3 < s.arg 5), .badArgs),
      ((planes.any fun p => outOfRange s (planeLast s p)) || outOfRange s (s.arg 4 + rgbaCount s - 1), .memRange),
      (planes.any fun p => hullsMeet p (planeLast s p) (s.arg 4) (s.arg 4 + rgbaCount s - 1), .badArgs) ]

/-- The source planes of YCC2RGBA: Y, Cb, Cr. -/
def yccPlanes (s : State) : List Nat := [s.arg 0, s.arg 1, s.arg 2]

/-- The source plane of GRAY2RGBA: ARG1 and ARG2 are not read (R213). -/
def grayPlanes (s : State) : List Nat := [s.arg 0]

/-! ### HBUILD (R68) -/

/-- L[i], i in 1..16: the number of codes of length i. -/
def huffCount (s : State) (i : Nat) : Nat := (s.mem.read (s.arg 0 + i - 1)).toNat

/-- L[1..16] as a list. -/
def huffCounts (s : State) : List Nat := (List.range 16).map fun j => huffCount s (j + 1)

/-- NSYM = L[1] + ... + L[16]. -/
def huffNsym (s : State) : Nat := (huffCounts s).sum

/-! ### Read sets and write sets of the running command -/

/-- The byte at `a` is in the read set. For the bit-reader commands and HDEC it is the bytes from IPOS to IEND − 1
(R271). -/
def readsByte (i : Instr) (s : State) (a : Nat) : Bool :=
  let within (lo hi : Nat) : Bool := decide (lo ≤ a) && decide (a < hi)
  match i with
  | .brinit => within s.ipos.toNat s.iend.toNat
  | .brreset => within s.ipos.toNat s.iend.toNat
  | .refill => within s.ipos.toNat s.iend.toNat
  | .peek _ => within s.ipos.toNat s.iend.toNat
  | .getbits _ => within s.ipos.toNat s.iend.toNat
  | .recext _ => within s.ipos.toNat s.iend.toNat
  | .rstsync => within s.ipos.toNat s.iend.toNat
  | .hbuild _ _ => within (s.arg 0) (s.arg 0 + 16 + huffNsym s)
  | .hdec _ _ => within s.ipos.toNat s.iend.toNat
  | .qload _ => within (s.arg 0) (s.arg 0 + 64)
  | .idct _ => within (s.arg 0) (s.arg 0 + 128)
  | .upx => within (s.arg 0) (s.arg 0 + upsCount s)
  | .upy => within (s.arg 0) (s.arg 0 + upsCount s)
  | .ycc2rgba => (yccPlanes s).any fun p => within p (planeLast s p + 1)
  | .gray2rgba => (grayPlanes s).any fun p => within p (planeLast s p + 1)

/-- The size of the write set that the arguments of a command give (R64), counted with repeats: the number of byte
writes the command makes when its checks pass. -/
def writeCount (i : Instr) (s : State) : Nat :=
  match i with
  | .brinit => 0
  | .brreset => 0
  | .refill => 0
  | .peek _ => 0
  | .getbits _ => 0
  | .recext _ => 0
  | .rstsync => 0
  | .hbuild _ _ => 0
  | .hdec _ _ => 0
  | .qload _ => 0
  | .idct _ => 64
  | .upx => 2 * upsCount s
  | .upy => 2 * upsCount s
  | .ycc2rgba => rgbaCount s
  | .gray2rgba => rgbaCount s

/-- The j-th address of that write set. (A command that writes no byte has count 0 and any address.) -/
def writeAddr (i : Instr) (s : State) (j : Nat) : Nat :=
  match i with
  | .brinit => j
  | .brreset => j
  | .refill => j
  | .peek _ => j
  | .getbits _ => j
  | .recext _ => j
  | .rstsync => j
  | .hbuild _ _ => j
  | .hdec _ _ => j
  | .qload _ => j
  | .idct _ => idctAddr s j
  | .upx => upsAddr s j
  | .upy => upsAddr s j
  | .ycc2rgba => rgbaAddr s j
  | .gray2rgba => rgbaAddr s j

/-- The byte at `a` is in the write set that the arguments of a command give. -/
def writesByte (i : Instr) (s : State) (a : Nat) : Bool :=
  let block (base : Nat) : Bool := decide (base ≤ a) && decide (a < base + writeCount i s)
  match i with
  | .brinit => false
  | .brreset => false
  | .refill => false
  | .peek _ => false
  | .getbits _ => false
  | .recext _ => false
  | .rstsync => false
  | .hbuild _ _ => false
  | .hdec _ _ => false
  | .qload _ => false
  | .idct _ => (List.range 64).any fun j => decide (idctAddr s j = a)
  | .upx => block (s.arg 1)
  | .upy => block (s.arg 1)
  | .ycc2rgba => block (s.arg 4)
  | .gray2rgba => block (s.arg 4)

end Sys2Proof.Machine
end

