-- ==== Sys2Proof/Machine/BitReader.lean ====
section
/-! DEFINITION. The bit reader: its shared procedures and the commands BRINIT, BRRESET, REFILL, PEEK, GETBITS, RECEXT
and RSTSYNC (spec/40_bitreader.md). -/

namespace Sys2Proof.Machine

open Sys2Proof

/-! ### Shared procedures -/

/-- R100 `ReadIn()`. A read at or past IEND raises TRUNCATED. (An IPOS at or past MEM_SIZE needs IEND > MEM_SIZE,
which BRINIT prevents: the machine stops.) -/
def readIn (s : State) : Eff Byte :=
  if s.iend.toNat ≤ s.ipos.toNat then .raised .truncated s
  else if s.params.memSize ≤ s.ipos.toNat then .stopped .outsideMemory
  else .done (s.mem.read s.ipos.toNat) { s with ipos := s.ipos + 1 }

/-- How many bytes the stream still has: IEND − IPOS, or 0 when IPOS ≥ IEND. -/
def streamLeft (s : State) : Nat := s.iend.toNat - s.ipos.toNat

/-- The inner loop of R104: read bytes until one is not 0xFF, and return it. The count is `streamLeft`, and at 0
`ReadIn` raises TRUNCATED. -/
def skipFill : Nat → State → Eff Byte
  | 0, s => .raised .truncated s
  | n + 1, s => (readIn s).andThen fun c s1 => if c = 0xFF then skipFill n s1 else .done c s1

/-- What one turn of the loop of R104 takes from the stream: a data byte, or `none` when it meets a marker, with IPOS
rewound by two and HITEND set. -/
def nextByte (s : State) : Eff (Option Byte) :=
  if s.hitend then .done (some 0) s
  else
    (readIn s).andThen fun b s1 =>
      if b = 0xFF then
        (skipFill (streamLeft s1) s1).andThen fun c s2 =>
          if c = 0 then .done (some 0xFF) s2
          else .done none { s2 with ipos := s2.ipos - 2, hitend := true }
      else .done (some b) s1

/-- `ACC <- ACC OR (zext_32(b) << (24 − CNT)); CNT <- CNT + 8` (R104). -/
def appendByte (b : Byte) (s : State) : State :=
  { s with acc := s.acc ||| (b.setWidth 32 <<< (24 - s.cnt)), cnt := s.cnt + 8 }

/-- The loop of R104 `while CNT <= 24`, for at most the given number of turns. -/
def refillTurns : Nat → State → Eff Unit
  | 0, s => .done () s
  | n + 1, s =>
    if 24 < s.cnt then .done () s
    else
      (nextByte s).andThen fun ob s1 =>
        match ob with
        | none => .done () s1
        | some b => refillTurns n (appendByte b s1)

/-- R104 `Refill()`. Every turn adds 8 to CNT, so four turns bring it above 24. -/
def refill (s : State) : Eff Unit := refillTurns 4 s

/-- `if CNT < n: Refill()` (R106, R107, R140). -/
def ensureBits (n : Nat) (s : State) : Eff Unit := if s.cnt < n then refill s else .done () s

/-- R105 `Consume(n)`. -/
def consume (n : Nat) (s : State) : State := { s with acc := s.acc <<< n, cnt := s.cnt - n }

/-- The next `n` bits of the stream, most significant first: `ACC >> (32 − n)`. -/
def topBits (n : Nat) (s : State) : Word := s.acc >>> (32 - n)

/-- R106 `GetBits(n)`, 1 ≤ n ≤ 16. -/
def getBits (n : Nat) (s : State) : Eff Word :=
  (ensureBits n s).andThen fun _ s1 =>
    if s1.cnt < n then .raised .bitsUnderrun s1 else .done (topBits n s1) (consume n s1)

/-- `RES <- v`. -/
def State.setRes (v : Word) (s : State) : State := { s with res := v }

/-- R110: the JPEG signed integer of the `n` bits `v`. -/
def extendSigned (n : Nat) (v : Word) : Word :=
  if v.getLsbD (n - 1) then v else BitVec.ofInt 32 ((v.toNat : Int) - (2 ^ n - 1))

/-- A command with field N: BAD_WIDTH above 16 (R82), a result of 0 for width 0, else the result of `body`. -/
def withWidth (n : Nat) (body : State → Eff Word) (s : State) : Host.Outcome State Fault Refusal :=
  match widthCheck n with
  | some c => .next (takeFault c s)
  | none =>
    if n = 0 then .next (complete (s.setRes 0))
    else ((body s).andThen fun v s1 => .done () (s1.setRes v)).finish

/-! ### Commands -/

/-- BRINIT (R101). -/
def execBrinit (s : State) : Host.Outcome State Fault Refusal :=
  checked (brinitCheck s)
    (fun s => { s with ipos := s.args.get 0, iend := s.args.get 1, acc := 0, cnt := 0, hitend := false }) s

/-- BRRESET (R102). -/
def execBrreset (s : State) : Host.Outcome State Fault Refusal :=
  .next (complete { s with acc := 0, cnt := 0, hitend := false })

/-- REFILL (R103). -/
def execRefill (s : State) : Host.Outcome State Fault Refusal := (refill s).finish

/-- PEEK n (R107): bits beyond CNT read as 0 and nothing is consumed. -/
def execPeek (n : Nat) (s : State) : Host.Outcome State Fault Refusal :=
  withWidth n (fun s => (ensureBits n s).andThen fun _ s1 => .done (topBits n s1) s1) s

/-- GETBITS n (R108). -/
def execGetbits (n : Nat) (s : State) : Host.Outcome State Fault Refusal := withWidth n (getBits n) s

/-- RECEXT n (R110). -/
def execRecext (n : Nat) (s : State) : Host.Outcome State Fault Refusal :=
  withWidth n (fun s => (getBits n s).andThen fun v s1 => .done (extendSigned n v) s1) s

/-- RSTSYNC (R112). ACC and CNT are cleared before anything is checked, so that a fault leaves them 0. -/
def rstsync (s : State) : Eff Unit :=
  let s := { s with acc := 0, cnt := 0 }
  let p := s.ipos.toNat
  if s.iend.toNat < p + 2 then .raised .truncated s
  else if s.params.memSize < p + 2 then .stopped .outsideMemory
  else if s.mem.read p ≠ 0xFF ∨ s.mem.read (p + 1) < 0xD0 ∨ 0xD7 < s.mem.read (p + 1) then .raised .rstMissing s
  else
    .done () { s with ipos := s.ipos + 2, hitend := false, res := (s.mem.read (p + 1) - 0xD0).setWidth 32 }

/-- RSTSYNC (R112). -/
def execRstsync (s : State) : Host.Outcome State Fault Refusal := (rstsync s).finish

end Sys2Proof.Machine
end

