-- ==== Sys2Proof/Machine/Idct.lean ====
section
/-! DEFINITION. Quantisation tables, dequantisation and the integer IDCT: the commands QLOAD and IDCT
(spec/42_idct.md). All arithmetic is s32 with wrap-around (R10). -/

namespace Sys2Proof.Machine

open Sys2Proof
open Sys2Proof.Config (Oct)

/-! ### QLOAD -/

/-- QLOAD t (R160). -/
def execQload (t : Fin 4) (s : State) : Host.Outcome State Fault Refusal :=
  checked (qloadCheck s)
    (fun s => s.setQuant t ⟨true, Vector.ofFn fun i => s.mem.read (s.arg 0 + i.val)⟩) s

/-! ### The one-dimensional kernel -/

/-- One value in all eight places. -/
def octSplat (v : Word) : Oct := ⟨v, v, v, v, v, v, v, v⟩

/-- Element r of eight (element 7 for r ≥ 7). -/
def octGet (x : Oct) (r : Nat) : Word :=
  match r with
  | 0 => x.e0
  | 1 => x.e1
  | 2 => x.e2
  | 3 => x.e3
  | 4 => x.e4
  | 5 => x.e5
  | 6 => x.e6
  | _ => x.e7

/-- Eight elements from a function of their number. -/
def octOf (f : Nat → Word) : Oct := ⟨f 0, f 1, f 2, f 3, f 4, f 5, f 6, f 7⟩

/-- A function on each element. -/
def octMap (f : Word → Word) (x : Oct) : Oct := ⟨f x.e0, f x.e1, f x.e2, f x.e3, f x.e4, f x.e5, f x.e6, f x.e7⟩

/-- The twelve constants k of R171, named by their sign and first digits. -/
inductive KName where
  | p0541
  | n1847
  | p0765
  | p1175
  | p0298
  | p2053
  | p3072
  | p1501
  | n0899
  | n2562
  | n1961
  | n0390
  deriving DecidableEq, Repr

/-- k in units of 10^-9 (R173, first column). -/
def kBillionths : KName → Int
  | .p0541 => 541196100
  | .n1847 => -1847759065
  | .p0765 => 765366865
  | .p1175 => 1175875602
  | .p0298 => 298631336
  | .p2053 => 2053119869
  | .p3072 => 3072711026
  | .p1501 => 1501321110
  | .n0899 => -899976223
  | .n2562 => -2562915447
  | .n1961 => -1961570560
  | .n0390 => -390180644

/-- c(k) under NEAREST (R173, third column). -/
def kNearest : KName → Int
  | .p0541 => 2217
  | .n1847 => -7568
  | .p0765 => 3135
  | .p1175 => 4816
  | .p0298 => 1223
  | .p2053 => 8410
  | .p3072 => 12586
  | .p1501 => 6149
  | .n0899 => -3686
  | .n2562 => -10498
  | .n1961 => -8035
  | .n0390 => -1598

/-- c(k) under TRUNC_PLUS_HALF (R173, fourth column). -/
def kTruncPlusHalf : KName → Int
  | .p0541 => 2217
  | .n1847 => -7567
  | .p0765 => 3135
  | .p1175 => 4816
  | .p0298 => 1223
  | .p2053 => 8410
  | .p3072 => 12586
  | .p1501 => 6149
  | .n0899 => -3685
  | .n2562 => -10497
  | .n1961 => -8034
  | .n0390 => -1597

/-- c(k) under the parameter IDCT_CONST_ROUND (R173). -/
def roundedConst (m : Config.ConstRound) (k : KName) : Word :=
  match m with
  | .nearest => BitVec.ofInt 32 (kNearest k)
  | .truncPlusHalf => BitVec.ofInt 32 (kTruncPlusHalf k)

/-- The default kernel (R171). -/
def kernelR171 (m : Config.ConstRound) (s : Oct) : Oct :=
  let c := roundedConst m
  -- even part
  let p1 := (s.e2 + s.e6) * c .p0541
  let t2 := p1 + s.e6 * c .n1847
  let t3 := p1 + s.e2 * c .p0765
  let t0 := (s.e0 + s.e4) * 4096#32
  let t1 := (s.e0 - s.e4) * 4096#32
  let x0 := t0 + t3
  let x3 := t0 - t3
  let x1 := t1 + t2
  let x2 := t1 - t2
  -- odd part
  let p3 := s.e7 + s.e3
  let p4 := s.e5 + s.e1
  let p1 := s.e7 + s.e1
  let p2 := s.e5 + s.e3
  let p5 := (p3 + p4) * c .p1175
  let t0 := s.e7 * c .p0298
  let t1 := s.e5 * c .p2053
  let t2 := s.e3 * c .p3072
  let t3 := s.e1 * c .p1501
  let p1 := p5 + p1 * c .n0899
  let p2 := p5 + p2 * c .n2562
  let p3 := p3 * c .n1961
  let p4 := p4 * c .n0390
  let t3 := t3 + p1 + p4
  let t2 := t2 + p2 + p3
  let t1 := t1 + p2 + p4
  let t0 := t0 + p1 + p3
  ⟨x0 + t3, x1 + t2, x2 + t1, x3 + t0, x3 - t0, x2 - t1, x1 - t2, x0 - t3⟩

/-- The inputs on which R172 fixes every kernel: all but the first are 0 and the first is below 2^19 in absolute
value. -/
def dcOnly (s : Oct) : Bool :=
  decide (s.e1 = 0) && decide (s.e2 = 0) && decide (s.e3 = 0) && decide (s.e4 = 0) && decide (s.e5 = 0)
    && decide (s.e6 = 0) && decide (s.e7 = 0) && decide (s.e0.toInt.natAbs < 524288)

/-- The value of a term of a supplied kernel at the inputs `s` (R10). -/
def kernelTermValue (s : Oct) : Config.KernelTerm → Word
  | .input k => octGet s k.val
  | .const c => c
  | .add a b => kernelTermValue s a + kernelTermValue s b
  | .sub a b => kernelTermValue s a - kernelTermValue s b
  | .mul a b => kernelTermValue s a * kernelTermValue s b
  | .and a b => kernelTermValue s a &&& kernelTermValue s b
  | .or a b => kernelTermValue s a ||| kernelTermValue s b
  | .xor a b => kernelTermValue s a ^^^ kernelTermValue s b
  | .shl a n => kernelTermValue s a <<< n
  | .sar a n => (kernelTermValue s a).sshiftRight n
  | .ifZero a b c => if kernelTermValue s a = 0 then kernelTermValue s b else kernelTermValue s c

/-- A supplied kernel on eight inputs. -/
def runKernel (k : Config.SuppliedKernel) (s : Oct) : Oct :=
  ⟨kernelTermValue s k.u0, kernelTermValue s k.u1, kernelTermValue s k.u2, kernelTermValue s k.u3,
    kernelTermValue s k.u4, kernelTermValue s k.u5, kernelTermValue s k.u6, kernelTermValue s k.u7⟩

/-- IDCT_KERNEL (R170). A supplied kernel is used as it stands; on the inputs of R172 every kernel has the value that
R172 gives (notes/assumptions/7.md). -/
def idctKernel (p : Config.Params) (s : Oct) : Oct :=
  match p.kernel with
  | .r171 => kernelR171 p.constRound s
  | .supplied k => if dcOnly s then octSplat (4096#32 * s.e0) else runKernel k s

/-! ### Dequantise and IDCT -/

/-- `clamp255(v)` of an s32 (R11). -/
def clamp255 (v : Word) : Byte :=
  if v.toInt < 0 then 0 else if 255 < v.toInt then 255 else v.setWidth 8

/-- The product of R161, cut to 16 bits when DEQUANT_WRAP16 holds. -/
def dequantise (p : Config.Params) (coef : BitVec 16) (q : Byte) : Word :=
  let d := coef.signExtend 32 * q.setWidth 32
  if p.dequantWrap16 then (d.setWidth 16).signExtend 32 else d

/-- d[i] of R161: coefficient i at bytes b + 2i, b + 2i + 1 (R67), table QT[t]. -/
def dequantised (t : Fin 4) (s : State) (i : Nat) : Word :=
  dequantise s.params (s.mem.read16 (s.arg 0 + 2 * i)) (((s.quant t).entry[i]?).getD 0)

/-- The rows 1..7 of column `col` are 0: the condition of the fast path of R164. -/
def columnIsDc (d : Nat → Word) (col : Nat) : Bool :=
  decide (d (8 + col) = 0) && decide (d (16 + col) = 0) && decide (d (24 + col) = 0) && decide (d (32 + col) = 0)
    && decide (d (40 + col) = 0) && decide (d (48 + col) = 0) && decide (d (56 + col) = 0)

/-- The first pass (R164) on column `col`: v[col], v[8+col], ..., v[56+col]. -/
def firstPass (p : Config.Params) (d : Nat → Word) (col : Nat) : Oct :=
  if columnIsDc d col then octSplat (d col * 4)
  else octMap (fun u => (u + 512#32).sshiftRight 10) (idctKernel p (octOf fun r => d (8 * r + col)))

/-- The second pass (R165) on row `row` of the scratch whose columns are `v`: o[row][0..7] before the clamp. -/
def secondPass (p : Config.Params) (v : Nat → Oct) (row : Nat) : Oct :=
  octMap (fun u => (u + 16842752#32).sshiftRight 17) (idctKernel p (octOf fun col => octGet (v col) row))

/-- o[row][col] of R165 for a block of dequantised coefficients. -/
def idctSample (p : Config.Params) (d : Nat → Word) (row col : Nat) : Byte :=
  clamp255 (octGet (secondPass p (firstPass p d) row) col)

/-- IDCT t (R163): the 64 samples at p + r·S + c. -/
def execIdct (t : Fin 4) (s : State) : Host.Outcome State Fault Refusal :=
  checked (idctCheck t s)
    (fun s =>
      { s with
        mem := s.mem.fill (idctAddr s) (fun j => idctSample s.params (dequantised t s) (j / 8) (j % 8)) 64 }) s

end Sys2Proof.Machine
end

