-- ==== Sys2Proof/Machine/Color.lean ====
section
/-! DEFINITION. Colour conversion: the commands YCC2RGBA and GRAY2RGBA (spec/44_color.md). -/

namespace Sys2Proof.Machine

open Sys2Proof

/-- Sample (x, y) of the plane at base `p`: byte P + y·S + x (R210). -/
def planeSample (s : State) (p x y : Nat) : Byte := s.mem.read (p + y * s.arg 3 + x)

/-- `(Yv << 20) + CC_Y_BIAS` (R211). -/
def lumaTerm (bias : Nat) (yv : Byte) : Word := (yv.setWidth 32 <<< 20) + BitVec.ofNat 32 bias

/-- `Cr − 128` and `Cb − 128` as s32 (R211). -/
def chroma (c : Byte) : Word := c.setWidth 32 - 128#32

/-- r, g or b of R211 for channel 0, 1 or 2, before the shift and the clamp. -/
def yccChannel (bias : Nat) (yv cb cr : Byte) (ch : Nat) : Word :=
  match ch with
  | 0 => lumaTerm bias yv + chroma cr * 1470208#32
  | 1 =>
    lumaTerm bias yv + chroma cr * BitVec.ofInt 32 (-748800)
      + ((chroma cb * BitVec.ofInt 32 (-360960)) &&& 0xFFFF0000#32)
  | _ => lumaTerm bias yv + chroma cb * 1858048#32

/-- Byte `ch` (0 = R, 1 = G, 2 = B, 3 = A) of the pixel of R211. -/
def yccByte (bias : Nat) (yv cb cr : Byte) (ch : Nat) : Byte :=
  if ch = 3 then 255 else clamp255 ((yccChannel bias yv cb cr ch).sshiftRight 20)

/-- Byte `ch` of the pixel of R213: R = G = B = Yv, A = 255. -/
def grayByte (yv : Byte) (ch : Nat) : Byte := if ch = 3 then 255 else yv

/-- The column of the pixel that byte j of the image belongs to (R66). -/
def pixelX (s : State) (j : Nat) : Nat := j / 4 % s.arg 5

/-- The row of the pixel that byte j of the image belongs to (R66). -/
def pixelY (s : State) (j : Nat) : Nat := j / 4 / s.arg 5

/-- Byte j of the image of YCC2RGBA. -/
def yccImageByte (s : State) (j : Nat) : Byte :=
  yccByte s.params.ccYBias.val
    (planeSample s (s.arg 0) (pixelX s j) (pixelY s j))
    (planeSample s (s.arg 1) (pixelX s j) (pixelY s j))
    (planeSample s (s.arg 2) (pixelX s j) (pixelY s j)) (j % 4)

/-- Byte j of the image of GRAY2RGBA. -/
def grayImageByte (s : State) (j : Nat) : Byte :=
  grayByte (planeSample s (s.arg 0) (pixelX s j) (pixelY s j)) (j % 4)

/-- YCC2RGBA (R211). -/
def execYcc2rgba (s : State) : Host.Outcome State Fault Refusal :=
  checked (colorCheck (yccPlanes s) s)
    (fun s => { s with mem := s.mem.fill (rgbaAddr s) (yccImageByte s) (rgbaCount s) }) s

/-- GRAY2RGBA (R213). -/
def execGray2rgba (s : State) : Host.Outcome State Fault Refusal :=
  checked (colorCheck (grayPlanes s) s)
    (fun s => { s with mem := s.mem.fill (rgbaAddr s) (grayImageByte s) (rgbaCount s) }) s

end Sys2Proof.Machine
end

