-- ==== Sys2Proof/Machine/Huffman.lean ====
section
/-! DEFINITION. Canonical Huffman tables: the commands HBUILD and HDEC (spec/41_huffman.md). -/

namespace Sys2Proof.Machine

open Sys2Proof

/-! ### Table construction -/

/-- What the code loop of R131 produces: CODE in symbol-index order, DELTA and MAXCODE by length. -/
structure CodeBook where
  codes : List Nat
  deltas : List Int
  maxcodes : List Nat
  deriving DecidableEq, Repr

/-- The code loop of R131 from length `i` on, with the running `code` and symbol index `k`, over the counts
L[i], L[i+1], .... `none` is HUFF_BAD_TABLE: a code does not fit its length. -/
def buildCodes : (i code k : Nat) → List Nat → Option CodeBook
  | _, _, _, [] => some ⟨[], [], []⟩
  | i, code, k, l :: rest =>
    if 0 < l ∧ 2 ^ i ≤ code + l - 1 then none
    else
      match buildCodes (i + 1) (2 * (code + l)) (k + l) rest with
      | none => none
      | some b =>
        some
          { codes := (List.range l).map (code + ·) ++ b.codes
            deltas := ((k : Int) - (code : Int)) :: b.deltas
            maxcodes := (code + l) * 2 ^ (16 - i) :: b.maxcodes }

/-- The size loop of R131: L[i] times the length i. -/
def buildSizes : (i : Nat) → List Nat → List Nat
  | _, [] => []
  | i, l :: rest => List.replicate l i ++ buildSizes (i + 1) rest

/-- The fast loop of R131 at one entry `e`: over increasing k, each symbol of size ≤ 9 whose block of entries holds
`e` writes its index there, and an entry nothing writes keeps the sentinel 255. -/
def fastEntry (sizes codes : List Nat) (nsym e : Nat) : Nat :=
  (List.range nsym).foldl
    (fun v k =>
      let w := 9 - sizes.getD k 0
      if sizes.getD k 0 ≤ 9 ∧ codes.getD k 0 * 2 ^ w ≤ e ∧ e < (codes.getD k 0 + 1) * 2 ^ w then k else v)
    255

/-- The table that R131 commits, from the counts L[1..16], the symbols and the code book. -/
def builtTable (counts : List Nat) (symbols : List Byte) (b : CodeBook) : HuffTable :=
  let sizes := buildSizes 1 counts
  { hvalid := true
    nsym := counts.sum
    symbol := symbols
    size := sizes
    code := b.codes.map (BitVec.ofNat 16)
    delta := Vector.ofFn fun i => BitVec.ofInt 32 (b.deltas.getD i.val 0)
    maxcode := Vector.ofFn fun i => BitVec.ofNat 32 ((b.maxcodes ++ [0x7FFFFFFF]).getD i.val 0)
    fast := Vector.ofFn fun e => BitVec.ofNat 8 (fastEntry sizes b.codes counts.sum e.val) }

/-- The symbol bytes of the input of HBUILD (R68). -/
def huffSymbols (s : State) : List Byte :=
  (List.range (huffNsym s)).map fun k => s.mem.read (s.arg 0 + 16 + k)

/-- The checks of HBUILD before the code loop (R131): the counts exist, at most 256 symbols, the symbols exist. -/
def hbuildCheck (s : State) : Option FaultCode :=
  firstFailing
    [ (decide (s.params.memSize < s.arg 0 + 16), .memRange),
      (decide (256 < huffNsym s), .huffBadTable),
      (decide (s.params.memSize < s.arg 0 + 16 + huffNsym s), .memRange) ]

/-- HBUILD c, t (R131). The table is committed only when every step succeeds. -/
def execHbuild (c : HClass) (t : Fin 4) (s : State) : Host.Outcome State Fault Refusal :=
  match hbuildCheck s with
  | some f => .next (takeFault f s)
  | none =>
    match buildCodes 1 0 0 (huffCounts s) with
    | none => .next (takeFault .huffBadTable s)
    | some b => .next (complete (s.setHuff c t (builtTable (huffCounts s) (huffSymbols s) b)))

/-! ### Symbol decoding -/

/-- The slow scan of R140 over the lengths `i`, `i + 1`, ..., at most `n` of them: the first with
`top16 < MAXCODE[i]`, else the length after the last (17). -/
def findLength (h : HuffTable) (top16 : Word) : (n i : Nat) → Nat
  | 0, i => i
  | n + 1, i => if top16 < h.maxcodeAt i then i else findLength h top16 n (i + 1)

/-- The slow path of R140. -/
def slowDecode (h : HuffTable) (s : State) : Eff Unit :=
  let i := findLength h (s.acc >>> 16) 7 10
  if i = 17 then .raised .huffBadCode s
  else if s.cnt < i then .raised .huffBadCode s
  else
    let idx : Int := ((topBits i s).toNat : Int) + (h.deltaAt i).toInt
    if idx < 0 ∨ (h.nsym : Int) ≤ idx then .raised .huffBadCode s
    else .done () (consume i (s.setRes ((h.symbolAt idx.toNat).setWidth 32)))

/-- The fast entry of the next 9 bits: `FAST[ACC >> 23]` (R140). -/
def fastHit (h : HuffTable) (s : State) : Byte := h.fast.get (s.acc.extractLsb' 23 9).toFin

/-- R140 after the refill: the fast path, else the slow path. -/
def decodeSymbol (h : HuffTable) (s : State) : Eff Unit :=
  let f := fastHit h s
  if f ≠ 255 ∧ h.sizeAt f.toNat ≤ s.cnt then
    .done () (consume (h.sizeAt f.toNat) (s.setRes ((h.symbolAt f.toNat).setWidth 32)))
  else slowDecode h s

/-- HDEC c, t (R140). -/
def execHdec (c : HClass) (t : Fin 4) (s : State) : Host.Outcome State Fault Refusal :=
  if (s.huff c t).hvalid then
    ((ensureBits 16 s).andThen fun _ s1 => decodeSymbol (s1.huff c t) s1).finish
  else .next (takeFault .huffNoTable s)

end Sys2Proof.Machine
end

