-- ==== Sys2Proof/Machine/Upsample.lean ====
section
/-! DEFINITION. The 2× upsampling passes: the commands UPX and UPY (spec/43_upsample.md). -/

namespace Sys2Proof.Machine

open Sys2Proof

/-- Output `o` of the filter of R193 on a line of `n` samples `line 0 .. line (n−1)`, with the rounding addend
UPS_ROUND. -/
def doubledSample (round n : Nat) (line : Nat → Byte) (o : Nat) : Byte :=
  let x := o / 2
  if o % 2 = 0 then
    if x = 0 then line 0 else BitVec.ofNat 8 ((3 * (line x).toNat + (line (x - 1)).toNat + round) / 4)
  else if x = n - 1 then line (n - 1)
  else BitVec.ofNat 8 ((3 * (line x).toNat + (line (x + 1)).toNat + round) / 4)

/-- Sample (x, y) of the source plane: byte a + y·w + x (R190, R65). -/
def upsSource (s : State) (x y : Nat) : Byte := s.mem.read (s.arg 0 + y * s.arg 2 + x)

/-- Output sample (x, y) of UPX, 0 ≤ x < 2w (R191). -/
def upxSample (s : State) (x y : Nat) : Byte :=
  doubledSample s.params.upsRound.val (s.arg 2) (fun k => upsSource s k y) x

/-- Output sample (x, y) of UPY, 0 ≤ y < 2h (R192). -/
def upySample (s : State) (x y : Nat) : Byte :=
  doubledSample s.params.upsRound.val (s.arg 3) (fun k => upsSource s x k) y

/-- UPX (R191): the destination has stride 2w. -/
def execUpx (s : State) : Host.Outcome State Fault Refusal :=
  checked (upsCheck s)
    (fun s =>
      { s with
        mem :=
          s.mem.fill (upsAddr s) (fun j => upxSample s (j % (2 * s.arg 2)) (j / (2 * s.arg 2))) (2 * upsCount s) }) s

/-- UPY (R192): the destination has stride w. -/
def execUpy (s : State) : Host.Outcome State Fault Refusal :=
  checked (upsCheck s)
    (fun s =>
      { s with mem := s.mem.fill (upsAddr s) (fun j => upySample s (j % s.arg 2) (j / s.arg 2)) (2 * upsCount s) }) s

end Sys2Proof.Machine
end

