-- ==== Sys2Proof/Machine/Dispatch.lean ====
section
/-! DEFINITION. The meaning of each command, one arm per constructor. -/

namespace Sys2Proof.Machine

open Sys2Proof

def exec (i : Instr) (s : State) : Host.Outcome State Fault Refusal :=
  match i with
  | .brinit => Sys2Proof.Machine.execBrinit s
  | .brreset => Sys2Proof.Machine.execBrreset s
  | .refill => Sys2Proof.Machine.execRefill s
  | .peek n => Sys2Proof.Machine.execPeek n s
  | .getbits n => Sys2Proof.Machine.execGetbits n s
  | .recext n => Sys2Proof.Machine.execRecext n s
  | .rstsync => Sys2Proof.Machine.execRstsync s
  | .hbuild c t => Sys2Proof.Machine.execHbuild c t s
  | .hdec c t => Sys2Proof.Machine.execHdec c t s
  | .qload t => Sys2Proof.Machine.execQload t s
  | .idct t => Sys2Proof.Machine.execIdct t s
  | .upx => Sys2Proof.Machine.execUpx s
  | .upy => Sys2Proof.Machine.execUpy s
  | .ycc2rgba => Sys2Proof.Machine.execYcc2rgba s
  | .gray2rgba => Sys2Proof.Machine.execGray2rgba s

end Sys2Proof.Machine
end

