-- ==== Sys2Proof/WellFormed.lean ====
section
/-! DEFINITION. Which commands an encoding exists for: field N is five bits wide (spec/30_encoding.md R80, R82). -/

namespace Sys2Proof

/-- A width that field N (bits 15:11) can hold. Widths 17..31 are encodable: they raise BAD_WIDTH when the command
runs (R82). -/
def widthEncodable (n : Nat) : Bool := decide (n < 32)

/-- Some command word stands for the command. Classes and table ids are in range by their types. -/
def Instr.wellFormed : Instr → Bool
  | .brinit => true
  | .brreset => true
  | .refill => true
  | .peek n => widthEncodable n
  | .getbits n => widthEncodable n
  | .recext n => widthEncodable n
  | .rstsync => true
  | .hbuild _ _ => true
  | .hdec _ _ => true
  | .qload _ => true
  | .idct _ => true
  | .upx => true
  | .upy => true
  | .ycc2rgba => true
  | .gray2rgba => true

end Sys2Proof
end

