-- ==== Sys2Proof/Decode.lean ====
section
/-! DEFINITION. Command words (spec/30_encoding.md): the decoder of R85, total on all 2^32 words and rejecting by name,
and the encoder of R87, both over the one opcode map of R84. -/

namespace Sys2Proof

/-- The formats of R81. -/
inductive Format where
  | fNone
  | fN
  | fHt
  | fQ
  deriving DecidableEq, Repr

/-- The mask of fixed bits of a format (R81). -/
def formatMask : Format → Word
  | .fNone => 0xFFFFFFFF
  | .fN => 0xFFFF07FF
  | .fHt => 0xFFFFF8FF
  | .fQ => 0xFFFFF9FF

/-- C = w[8], T = w[10:9], N = w[15:11] (R82). -/
structure Fields where
  c : HClass
  t : Fin 4
  n : Nat
  deriving DecidableEq, Repr

/-- Why a word is no command; either way the command raises ILLEGAL_CMD (R85, R86). -/
inductive DecodeError where
  /-- OP is not in the table of R84. -/
  | unknownOpcode
  /-- A bit that the format does not use is 1 (R81). -/
  | mustBeZero
  deriving DecidableEq, Repr

/-- The fields of a word (R82). -/
def fieldsOf (w : Word) : Fields where
  c := if w.getLsbD 8 then .ac else .dc
  t := (w.extractLsb' 9 2).toFin
  n := (w.extractLsb' 11 5).toNat

/-- The opcode map (R84): OP, format, and the command the fields of that format give. -/
def opcodeMap : List (Byte × Format × (Fields → Instr)) :=
  [ (0x01, .fNone, fun _ => .brinit),
    (0x02, .fNone, fun _ => .brreset),
    (0x03, .fNone, fun _ => .refill),
    (0x04, .fN, fun f => .peek f.n),
    (0x05, .fN, fun f => .getbits f.n),
    (0x06, .fN, fun f => .recext f.n),
    (0x07, .fNone, fun _ => .rstsync),
    (0x10, .fHt, fun f => .hbuild f.c f.t),
    (0x11, .fHt, fun f => .hdec f.c f.t),
    (0x20, .fQ, fun f => .qload f.t),
    (0x21, .fQ, fun f => .idct f.t),
    (0x30, .fNone, fun _ => .upx),
    (0x31, .fNone, fun _ => .upy),
    (0x40, .fNone, fun _ => .ycc2rgba),
    (0x41, .fNone, fun _ => .gray2rgba) ]

/-- Decoding (R85): OP = w[7:0] is looked up, then `(w AND mask) == match` with match = OP. -/
def decode (w : Word) : Except DecodeError Instr :=
  match opcodeMap.find? fun row => row.1 = w.extractLsb' 0 8 with
  | none => .error .unknownOpcode
  | some (op, format, command) =>
    if w &&& formatMask format = op.setWidth 32 then .ok (command (fieldsOf w)) else .error .mustBeZero

/-- OP | (C << 8) | (T << 9) | (N << 11) (R87). -/
def commandWord (op : Byte) (c : HClass) (t : Fin 4) (n : Nat) : Word :=
  op.setWidth 32 ||| (BitVec.ofBool (decide (c = .ac))).setWidth 32 <<< 8
    ||| (BitVec.ofNat 32 t.val) <<< 9 ||| (BitVec.ofNat 32 n) <<< 11

/-- The word of a command (R80, R84, R87); a field the format does not use is 0. -/
def encode : Instr → Word
  | .brinit => commandWord 0x01 .dc 0 0
  | .brreset => commandWord 0x02 .dc 0 0
  | .refill => commandWord 0x03 .dc 0 0
  | .peek n => commandWord 0x04 .dc 0 n
  | .getbits n => commandWord 0x05 .dc 0 n
  | .recext n => commandWord 0x06 .dc 0 n
  | .rstsync => commandWord 0x07 .dc 0 0
  | .hbuild c t => commandWord 0x10 c t 0
  | .hdec c t => commandWord 0x11 c t 0
  | .qload t => commandWord 0x20 .dc t 0
  | .idct t => commandWord 0x21 .dc t 0
  | .upx => commandWord 0x30 .dc 0 0
  | .upy => commandWord 0x31 .dc 0 0
  | .ycc2rgba => commandWord 0x40 .dc 0 0
  | .gray2rgba => commandWord 0x41 .dc 0 0

/-- The command word of an instruction of `nbits` bits whose value is `w` (every command is one 32-bit word, R80; the
bits above `nbits` are 0). -/
def tableWord (nbits w : Nat) : Word := BitVec.ofNat 32 (w % 2 ^ nbits)

/-- What the decoder reads from an instruction as spec/opcode_table.json numbers its bits. -/
def decodeTableWord (nbits w : Nat) : Option Instr :=
  match decode (tableWord nbits w) with
  | .ok i => some i
  | .error _ => none

end Sys2Proof
end

