-- ==== Sys2Proof/Machine/Flags.lean ====
section
/-! DEFINITION. The status words: PJD has no arithmetic flags (spec/10_state.md R39), its status bits are read through
STATUS, BR_CNT and TBL_STATUS (R26, R31, R32), each a view of other state. -/

namespace Sys2Proof.Machine

open Sys2Proof

/-- The number of a fault code (spec/60_exceptions.md R233). -/
def faultNumber : FaultCode → BitVec 8
  | .illegalCmd => 1
  | .busyWrite => 2
  | .memRange => 3
  | .badArgs => 4
  | .truncated => 5
  | .badWidth => 6
  | .bitsUnderrun => 7
  | .rstMissing => 8
  | .huffBadTable => 9
  | .huffNoTable => 10
  | .huffBadCode => 11
  | .qtNotLoaded => 12

/-- STATUS.FCODE: 0 when FAULT = 0 (R26). -/
def fcodeField (f : Option FaultCode) : BitVec 8 :=
  match f with
  | none => 0
  | some c => faultNumber c

/-- STATUS (R26): BUSY in bit 0, FAULT in bit 1, FCODE in bits 15:8, the reserved bits 0. -/
def State.statusWord (s : State) : Word :=
  0#16 ++ fcodeField s.fault ++ 0#6 ++ BitVec.ofBool s.fault.isSome ++ BitVec.ofBool s.busy

/-- BR_CNT (R31): CNT in bits 5:0, HITEND in bit 8, the other bits 0. -/
def State.brCntWord (s : State) : Word :=
  0#23 ++ BitVec.ofBool s.hitend ++ 0#2 ++ BitVec.ofNat 6 s.cnt

/-- QVALID[3..0], the highest id in the highest bit. -/
def State.qvalidBits (s : State) : BitVec 4 :=
  BitVec.ofBool (s.quant 3).qvalid ++ BitVec.ofBool (s.quant 2).qvalid ++ BitVec.ofBool (s.quant 1).qvalid
    ++ BitVec.ofBool (s.quant 0).qvalid

/-- HVALID[c][3..0], the highest id in the highest bit. -/
def State.hvalidBits (s : State) (c : HClass) : BitVec 4 :=
  BitVec.ofBool (s.huff c 3).hvalid ++ BitVec.ofBool (s.huff c 2).hvalid ++ BitVec.ofBool (s.huff c 1).hvalid
    ++ BitVec.ofBool (s.huff c 0).hvalid

/-- TBL_STATUS (R32): HVALID[C][T] in bit 4·C + T, QVALID[T] in bit 8 + T, the other bits 0. -/
def State.tblStatusWord (s : State) : Word :=
  0#20 ++ s.qvalidBits ++ s.hvalidBits .ac ++ s.hvalidBits .dc

end Sys2Proof.Machine
end

