-- ==== Sys2Proof/Machine/HostPort.lean ====
section
/-! DEFINITION. What the outside world can do to PJD: register accesses (spec/10_state.md section 2), data-memory
accesses (spec/20_memory.md R60), the breach of the busy protocol (spec/60_exceptions.md R236), the soft and the
hardware reset (spec/70_reset_and_hazards.md R260, R261). -/

namespace Sys2Proof.Machine

open Sys2Proof

/-! ### A command stopped half way -/

/-- The registers and tables a running command could write take free values (R236): those its rule lists under
"Writes". -/
def freeWrittenRegisters (i : Instr) (s : State) : State :=
  match i with
  | .brinit => { s.freeReader with iend := Config.freeWord s.draws .iend }
  | .brreset => s.freeAccumulator
  | .refill => s.freeReader
  | .peek _ => s.freeReader.freeRes
  | .getbits _ => s.freeReader.freeRes
  | .recext _ => s.freeReader.freeRes
  | .rstsync => s.freeReader.freeRes
  | .hbuild c t => s.setHuff c t (freeHuff s.draws (huffIndex c t).val)
  | .hdec _ _ => s.freeReader.freeRes
  | .qload t => s.setQuant t (freeQuant s.draws t.val)
  | .idct _ => s
  | .upx => s
  | .upy => s
  | .ycc2rgba => s
  | .gray2rgba => s

/-- The bytes of a running command's write set take free values (R236, R261, 93 I4, I5): every address that the
arguments give (R64), before any check, and that exists (notes/assumptions/15.md). -/
def freeWrittenMemory (i : Instr) (s : State) : State :=
  { s with
    mem :=
      s.mem.fillBelow s.params.memSize (writeAddr i s) (fun j => freeByte s.draws (writeAddr i s j))
        (writeCount i s) }

/-- The registers of the running command, if there is one, hold free values. -/
def disturbRegisters (s : State) : State :=
  if s.busy then
    match decode s.cmd with
    | .ok i => { freeWrittenRegisters i s with draws := s.draws + 1 }
    | .error _ => s
  else s

/-- The write set of the running command, if there is one, holds free values. -/
def disturbMemory (s : State) : State :=
  if s.busy then
    match decode s.cmd with
    | .ok i => { freeWrittenMemory i s with draws := s.draws + 1 }
    | .error _ => s
  else s

/-- R236: the running command is stopped at an unspecified point, then BUSY_WRITE is raised with FINFO = `info`
(R33). -/
def busyWriteFault (info : Word) (s : State) : State :=
  latchFault .busyWrite info (disturbRegisters (disturbMemory s))

/-- R261: a soft reset, at any time. A command it stops leaves its write set with unspecified values. -/
def softReset (s : State) : State := clearRegisters (disturbMemory s)

/-- R260: the platform's reset. The point at which it stops a running command is not observable, so the write set of
that command is unspecified (93 I5). -/
def hardReset (s : State) : State := clearRegisters (disturbMemory s)

/-! ### Registers -/

/-- A register access the interface admits: 32 bits wide, at a multiple of 4 in the 128 bytes of the register space
(R22, R34). -/
def registerAccessOk (off width : Nat) : Bool :=
  decide (width = 4) && decide (off % 4 = 0) && decide (off < 128)

/-- What a register reads as, by its offset (R22); reserved offsets and CTRL read 0. -/
def readRegister (off : Nat) (s : State) : Word :=
  match off with
  | 0x00 => 0x504A4401
  | 0x08 => s.statusWord
  | 0x0C => s.cmd
  | 0x10 => s.res
  | 0x14 => s.ipos
  | 0x18 => s.iend
  | 0x1C => s.acc
  | 0x20 => s.brCntWord
  | 0x24 => s.tblStatusWord
  | 0x28 => s.finfo
  | _ =>
    if 0x40 ≤ off ∧ off < 0x60 then (s.args[(off - 0x40) / 4]?).getD 0 else 0

/-- A write to CTRL (R24): bit 0 resets, the other bits are ignored. -/
def writeCtrl (v : Word) (s : State) : State := if v.getLsbD 0 then softReset s else s

/-- A write to CMD (R27). -/
def writeCmd (v : Word) (s : State) : State :=
  if s.busy then busyWriteFault v s
  else if s.fault.isSome then s
  else { s with cmd := v, busy := true }

/-- A write to ARGk (R29). FINFO of its BUSY_WRITE is 0xFFFFFFFF (R33). -/
def writeArg (k : Nat) (v : Word) (s : State) : State :=
  if s.busy then busyWriteFault 0xFFFFFFFF s else { s with args := s.args.setIfInBounds k v }

/-- A register write, by its offset (R22): a write to a read-only register or a reserved offset is ignored. -/
def writeRegister (off : Nat) (v : Word) (s : State) : State :=
  if off = 0x04 then writeCtrl v s
  else if off = 0x0C then writeCmd v s
  else if 0x40 ≤ off ∧ off < 0x60 then writeArg ((off - 0x40) / 4) v s
  else s

/-! ### Data memory -/

/-- The byte at `a` is in the read set or the write set of the running command (R271). -/
def memoryHazardAt (a : Nat) (s : State) : Bool :=
  s.busy &&
    match decode s.cmd with
    | .ok i => readsByte i s a || writesByte i s a
    | .error _ => false

/-- A host access to the data memory: refused in the hazard of R271, and there is no byte at or past MEM_SIZE (R60). -/
def hostMemory (a : Nat) (access : State → State) (s : State) : Host.Outcome State Fault Refusal :=
  if s.params.memSize ≤ a then .fault .outsideMemory
  else if memoryHazardAt a s then .refused .memoryHazard
  else .next (access s)

/-! ### One action -/

/-- A register read: the value answered goes to `hostData`. While a command runs, a register it could write reads as a
free value (R72: its writes are visible once BUSY = 0). -/
def hostReadRegister (off : Nat) (s : State) : State :=
  { s with hostData := readRegister off (disturbRegisters s), draws := (disturbRegisters s).draws }

/-- What one action of the outside world does. -/
def hostAct (a : HostAction) (s : State) : Host.Outcome State Fault Refusal :=
  match a with
  | .regWrite off width v =>
    if registerAccessOk off width then .next (writeRegister off v s) else .refused .badRegisterAccess
  | .regRead off width =>
    if registerAccessOk off width then .next (hostReadRegister off s) else .refused .badRegisterAccess
  | .memWrite addr b => hostMemory addr (fun s => { s with mem := s.mem.write addr b }) s
  | .memRead addr => hostMemory addr (fun s => { s with hostData := (s.mem.read addr).setWidth 32 }) s
  | .hardReset => .next (hardReset s)

end Sys2Proof.Machine
end

