-- ==== Sys2Proof/Machine/Step.lean ====
section
/-! DEFINITION. One step: PJD has no program counter (spec/10_state.md R20); a step is one action of the outside world
or the run of the command that the CMD register holds (spec/00_scope.md R15, R16). -/

namespace Sys2Proof.Machine

open Sys2Proof

/-- The run of the command in CMD, as one atomic step (R16). A word that decodes to no command raises ILLEGAL_CMD and
changes nothing else (R85). -/
def runCommand (s : State) : Host.Outcome State Fault Refusal :=
  match decode s.cmd with
  | .ok i => exec i s
  | .error _ => .next (takeFault .illegalCmd s)

/-- One step. While a command runs, an action at the head of the inbox that is `early` lands first; else the command
runs to its end. With no command running the next action is taken, and with none PJD idles (R244). -/
def step (s : State) : Host.Outcome State Fault Refusal :=
  match s.inbox with
  | [] => if s.busy then runCommand s else .next s
  | e :: rest =>
    if s.busy && !e.early then runCommand s else hostAct e.action { s with inbox := rest }

/-- The state in which the host has just written an instruction's word to CMD (R27), with no action pending: the next
step runs exactly that command. A command starts only with FAULT = 0, so a latched fault is cleared
(notes/assumptions/8.md). -/
def State.withFetchWord (s : State) (nbits w : Nat) : State :=
  { s with cmd := tableWord nbits w, busy := true, fault := none, finfo := 0, inbox := [] }

end Sys2Proof.Machine
end

