-- ==== Sys2Proof/Safety.lean ====
section
/-! DEFINITION. What a state of a run satisfies, in the terms the statements use: the busy protocol and the fault
latch, the data memory, the bit reader, the Huffman tables. -/

namespace Sys2Proof.Machine

open Sys2Proof

/-! ### The spec's terms, written again from the spec for the statements -/

/-- The words that R81 and R84 make commands: an opcode of the map with every must-be-zero bit of its format 0. -/
def legalWord (w : Word) : Prop :=
  w ∈ [0x01#32, 0x02#32, 0x03#32, 0x07#32, 0x30#32, 0x31#32, 0x40#32, 0x41#32] ∨
    w &&& 0xFFFF07FF#32 ∈ [0x04#32, 0x05#32, 0x06#32] ∨
    w &&& 0xFFFFF8FF#32 ∈ [0x10#32, 0x11#32] ∨
    w &&& 0xFFFFF9FF#32 ∈ [0x20#32, 0x21#32]

/-- A command runs and no action of the outside world lands before it ends. -/
def commandTurn (s : State) : Prop :=
  s.busy = true ∧ ∀ e rest, s.inbox = e :: rest → e.early = false

/-- The next thing to happen is the action `a`, and `rest` comes after it: either no command runs, or the action is an
early one. -/
def actionTurn (s : State) (a : HostAction) (rest : List HostEvent) : Prop :=
  ∃ early, s.inbox = ⟨early, a⟩ :: rest ∧ (s.busy = true → early = true)

/-- `if CNT < n: Refill()` (R106, R107, R140) leaves `s1`. -/
def buffered (n : Nat) (s s1 : State) : Prop :=
  (n ≤ s.cnt ∧ s1 = s) ∨ (s.cnt < n ∧ refill s = .done () s1)

/-- L[i], i in 1..16, of a list of counts. -/
def countOf (counts : List Nat) (i : Nat) : Nat := counts.getD (i - 1) 0

/-- The first code of length i by the recurrence of spec/41_huffman.md R130: 0 for length 1, and twice the code after
the last of the length before. (Length 0 is not used.) -/
def firstCode (counts : List Nat) : Nat → Nat
  | 0 => 0
  | 1 => 0
  | i + 2 => 2 * (firstCode counts (i + 1) + countOf counts (i + 1))

/-- The first symbol index of length i: L[1] + ... + L[i−1]. -/
def firstIndex (counts : List Nat) (i : Nat) : Nat := (counts.take (i - 1)).sum

/-- The offsets of the registers that a command's rule lists under "Writes" (TBL_STATUS for a table's valid bit). -/
def writtenRegisters (i : Instr) : List Nat :=
  match i with
  | .brinit => [0x14, 0x18, 0x1C, 0x20]
  | .brreset => [0x1C, 0x20]
  | .refill => [0x14, 0x1C, 0x20]
  | .peek _ => [0x10, 0x14, 0x1C, 0x20]
  | .getbits _ => [0x10, 0x14, 0x1C, 0x20]
  | .recext _ => [0x10, 0x14, 0x1C, 0x20]
  | .rstsync => [0x10, 0x14, 0x1C, 0x20]
  | .hbuild _ _ => [0x24]
  | .hdec _ _ => [0x10, 0x14, 0x1C, 0x20]
  | .qload _ => [0x24]
  | .idct _ => []
  | .upx => []
  | .upy => []
  | .ycc2rgba => []
  | .gray2rgba => []

/-- The twelve constants of spec/42_idct.md R173 for a rounding mode, in the order of its table. -/
def tableConstants (m : Config.ConstRound) : List Int :=
  match m with
  | .nearest => [2217, -7568, 3135, 4816, 1223, 8410, 12586, 6149, -3686, -10498, -8035, -1598]
  | .truncPlusHalf => [2217, -7567, 3135, 4816, 1223, 8410, 12586, 6149, -3685, -10497, -8034, -1597]

/-- The pseudocode of spec/42_idct.md R171 in exact integers, assignment by assignment, with the constants `c` in the
order of the table of R173: output u[r] of the inputs s[0..7]. -/
def exactButterfly (c : List Int) (s : Nat → Int) (r : Nat) : Int :=
  let k (n : Nat) : Int := c.getD n 0
  let p2 := s 2
  let p3 := s 6
  let p1 := (p2 + p3) * k 0
  let t2 := p1 + p3 * k 1
  let t3 := p1 + p2 * k 2
  let t0 := (s 0 + s 4) * 4096
  let t1 := (s 0 - s 4) * 4096
  let x0 := t0 + t3
  let x3 := t0 - t3
  let x1 := t1 + t2
  let x2 := t1 - t2
  let t0 := s 7
  let t1 := s 5
  let t2 := s 3
  let t3 := s 1
  let p3 := t0 + t2
  let p4 := t1 + t3
  let p1 := t0 + t3
  let p2 := t1 + t2
  let p5 := (p3 + p4) * k 3
  let t0 := t0 * k 4
  let t1 := t1 * k 5
  let t2 := t2 * k 6
  let t3 := t3 * k 7
  let p1 := p5 + p1 * k 8
  let p2 := p5 + p2 * k 9
  let p3 := p3 * k 10
  let p4 := p4 * k 11
  let t3 := t3 + p1 + p4
  let t2 := t2 + p2 + p3
  let t1 := t1 + p2 + p4
  let t0 := t0 + p1 + p3
  [x0 + t3, x1 + t2, x2 + t1, x3 + t0, x3 - t0, x2 - t1, x1 - t2, x0 - t3].getD r 0

/-- An integer as an s32: modulo 2^32, in [−2^31, 2^31) (R10). -/
def wrap32 (v : Int) : Int := (v + 2147483648) % 4294967296 - 2147483648

/-- `clamp255` on integers (R11). -/
def clampInt (v : Int) : Int := if v < 0 then 0 else if 255 < v then 255 else v

/-- Sample (x, y) of a plane of stride `stride` at `base`, as a number (R65). -/
def sampleNat (s : State) (base stride x y : Nat) : Nat := (s.mem.read (base + y * stride + x)).toNat

/-! ### What a state of a run satisfies -/

/-- STATUS and FINFO agree: no command runs while a fault is latched (spec/60_exceptions.md R232), and FINFO is 0
whenever FAULT = 0 (spec/10_state.md R33). -/
def protocolOk (s : State) : Prop :=
  (s.busy = true → s.fault = none) ∧ (s.fault = none → s.finfo = 0)

/-- MEM_SIZE is legal (R8), memory is in canonical form and lists only addresses that exist (R60). -/
def memoryOk (s : State) : Prop :=
  s.params.legal = true ∧ s.mem.wf = true ∧ s.mem.below s.params.memSize = true

/-- CNT is in [0,32] and the bits of ACC below the CNT valid bits are 0 (R31). -/
def accumulatorOk (s : State) : Prop :=
  s.cnt ≤ 32 ∧ ∀ i, i < 32 - s.cnt → s.acc.getLsbD i = false

/-- IPOS ≤ IEND ≤ MEM_SIZE (R100, R101). -/
def streamOk (s : State) : Prop :=
  s.ipos.toNat ≤ s.iend.toNat ∧ s.iend.toNat ≤ s.params.memSize

/-- A table that the construction of R131 commits, for some input of R68. -/
def Built (h : HuffTable) : Prop :=
  ∃ (counts : List Nat) (symbols : List Byte) (b : CodeBook),
    counts.length = 16 ∧ (∀ l ∈ counts, l < 256) ∧ counts.sum ≤ 256 ∧ symbols.length = counts.sum ∧
      buildCodes 1 0 0 counts = some b ∧ h = builtTable counts symbols b

/-- Every Huffman table that is marked valid was built by HBUILD (R35, R36). -/
def tablesOk (s : State) : Prop :=
  ∀ c t, (s.huff c t).hvalid = true → Built (s.huff c t)

/-- What every step keeps. After a BUSY_WRITE fault the bit reader and the tables hold unspecified values (R236), until
a reset. -/
def Inv (s : State) : Prop :=
  protocolOk s ∧ memoryOk s ∧ s.cnt ≤ 32 ∧
    (s.fault ≠ some .busyWrite → accumulatorOk s ∧ streamOk s ∧ tablesOk s)

/-- A state of a run: the machine after reset with legal parameters and any behaviour of the outside world, and every
state a step leads to. -/
inductive Reachable : State → Prop where
  | start (p : Config.Params) (inbox : List HostEvent) (legal : p.legal = true) :
      Reachable { State.reset with params := p, inbox := inbox }
  | step (s t : State) (run : Reachable s) (h : step s = .next t) : Reachable t

end Sys2Proof.Machine
end

