-- ==== Sys2Proof/Certificates/Slice0/Obligations.lean ====
section
/-! DEFINITION. The statements for the provers. Each one's docstring names the rules of spec/ it formalises. -/

open Sys2Proof Sys2Proof.Machine
open Sys2Proof.Config (Oct)

/-! ### Command words -/

/-- R80, R82, R84, R87: no bit of an encoding is dropped. -/
def Obligations.DecodeOfEncode : Prop :=
  ∀ i : Instr, i.wellFormed = true → decode (encode i) = .ok i

/-- R80, R81, R84, R85: the words that decode are those of the opcode map with zeros in the must-be-zero bits, and each
is the word of the command it decodes to. -/
def Obligations.LegalWordsDecodeToTheirCommand : Prop :=
  (∀ w : Word, (∃ i, decode w = .ok i) ↔ legalWord w) ∧
    ∀ (w : Word) (i : Instr), decode w = .ok i → encode i = w ∧ i.wellFormed = true

/-- R87: the words of the examples decode to the commands they stand for. -/
def Obligations.ExampleWordsDecode : Prop :=
  decode 0x00000511 = .ok (.hdec .ac 2) ∧ decode 0x00003805 = .ok (.getbits 7) ∧
    decode 0x00008006 = .ok (.recext 16) ∧ decode 0x00000621 = .ok (.idct 3) ∧
    decode 0x00000010 = .ok (.hbuild .dc 0)

/-- R85, R86: any other word raises ILLEGAL_CMD and changes nothing else. -/
def Obligations.IllegalWordsRaiseIllegalCmd : Prop :=
  ∀ s : State, commandTurn s → ¬ legalWord s.cmd →
    step s = .next { s with fault := some .illegalCmd, finfo := s.cmd, busy := false } ∧
      faultNumber .illegalCmd = 1

/-! ### Steps -/

/-- R15, R16, R85: while a command runs, the next step is the run of the command in CMD. R244: with no command running
and nothing asked, the state persists. -/
def Obligations.StepRunsTheCommandInCmd : Prop :=
  (∀ (s : State) (i : Instr), commandTurn s → decode s.cmd = .ok i → step s = exec i s) ∧
    ∀ s : State, s.busy = false → s.inbox = [] → step s = .next s

/-- R16, R100, R274: every command, from every state with IEND ≤ MEM_SIZE, ends in a next state with BUSY = 0.
R231, R235: it completes and leaves FAULT and FINFO alone, or it latches one fault with the command word in FINFO. -/
def Obligations.EveryCommandEnds : Prop :=
  (∀ (i : Instr) (s : State), s.iend.toNat ≤ s.params.memSize → ∃ t, exec i s = .next t ∧ t.busy = false) ∧
    ∀ (i : Instr) (s t : State), s.fault = none → exec i s = .next t →
      t.busy = false ∧ t.cmd = s.cmd ∧
        ((t.fault = none ∧ t.finfo = s.finfo) ∨ (∃ c, t.fault = some c ∧ t.finfo = s.cmd))

/-! ### Registers -/

/-- R27: the CMD register. A write starts the command that the word encodes only while no command runs and no fault is
latched. -/
def Obligations.CmdRegister : Prop :=
  ∀ (s : State) (w : Word) (rest : List HostEvent), actionTurn s (.regWrite 0x0C 4 w) rest →
    (s.busy = false → s.fault = none →
      step s = .next { s with cmd := w, busy := true, inbox := rest } ∧
        ∀ i, decode w = .ok i → commandTurn { s with cmd := w, busy := true, inbox := rest } →
          step { s with cmd := w, busy := true, inbox := rest } =
            exec i { s with cmd := w, busy := true, inbox := rest }) ∧
    (s.busy = false → s.fault ≠ none → step s = .next { s with inbox := rest }) ∧
    (s.busy = true → ∃ t, step s = .next t ∧ t.fault = some .busyWrite ∧ t.finfo = w ∧ t.busy = false) ∧
    readRegister 0x0C s = s.cmd

/-- R29: the argument registers are read and written by the host, keep every value, and no command writes them. That a
write while a command runs leaves them as they are is the model's reading (log entry 9). -/
def Obligations.ArgRegisters : Prop :=
  (∀ (s : State) (k : Fin 8) (v : Word) (rest : List HostEvent),
    actionTurn s (.regWrite (0x40 + 4 * k.val) 4 v) rest →
      (s.busy = false →
        ∃ t, step s = .next t ∧ t = { s with args := t.args, inbox := rest } ∧ t.args.get k = v ∧
          readRegister (0x40 + 4 * k.val) t = v ∧ ∀ j, j ≠ k → t.args.get j = s.args.get j) ∧
      (s.busy = true →
        ∃ t, step s = .next t ∧ t.fault = some .busyWrite ∧ t.finfo = 0xFFFFFFFF ∧ t.busy = false ∧
          t.args = s.args)) ∧
  (∀ (i : Instr) (s t : State), exec i s = .next t → t.args = s.args)

/-- R26: the fields of STATUS. R30, R31: the reader's registers as the host sees them. -/
def Obligations.StatusAndReaderRegisters : Prop :=
  (∀ s : State, (readRegister 0x08 s).getLsbD 0 = s.busy ∧ (readRegister 0x08 s).getLsbD 1 = s.fault.isSome ∧
    (readRegister 0x08 s).extractLsb' 2 6 = 0 ∧ (readRegister 0x08 s).extractLsb' 16 16 = 0 ∧
    (s.fault = none → (readRegister 0x08 s).extractLsb' 8 8 = 0) ∧
    (∀ c, s.fault = some c → (readRegister 0x08 s).extractLsb' 8 8 = faultNumber c)) ∧
  (∀ s : State, s.cnt ≤ 32 →
    readRegister 0x14 s = s.ipos ∧ readRegister 0x18 s = s.iend ∧ readRegister 0x1C s = s.acc ∧
      ((readRegister 0x20 s).extractLsb' 0 6).toNat = s.cnt ∧ (readRegister 0x20 s).getLsbD 8 = s.hitend ∧
      (readRegister 0x20 s).extractLsb' 6 2 = 0 ∧ (readRegister 0x20 s).extractLsb' 9 23 = 0)

/-- R32: TBL_STATUS: its bits, its value after reset, and that it is read-only. -/
def Obligations.TblStatusBits : Prop :=
  (∀ (s : State) (t : Fin 4),
    (readRegister 0x24 s).getLsbD t.val = (s.huff .dc t).hvalid ∧
      (readRegister 0x24 s).getLsbD (4 + t.val) = (s.huff .ac t).hvalid ∧
      (readRegister 0x24 s).getLsbD (8 + t.val) = (s.quant t).qvalid ∧
      (readRegister 0x24 s).extractLsb' 12 20 = 0) ∧
  readRegister 0x24 State.reset = 0 ∧
  (∀ (s : State) (v : Word) (rest : List HostEvent), actionTurn s (.regWrite 0x24 4 v) rest →
    step s = .next { s with inbox := rest })

/-- R22, R23, R24, R26: a register read changes nothing of PJD and answers the register's value; ID is constant and
CTRL reads 0. While a command runs this holds of every register that the command's rule does not list under "Writes",
STATUS with BUSY = 1 among them (R270); that a read of one it lists answers a free value, which counts a draw, is the
model's choice (log entries 4, 5, 16). -/
def Obligations.RegisterReads : Prop :=
  ∀ (s : State) (off : Nat) (rest : List HostEvent), off % 4 = 0 → off < 128 →
    actionTurn s (.regRead off 4) rest →
      (s.busy = false → step s = .next { s with inbox := rest, hostData := readRegister off s }) ∧
        (s.busy = true →
          ∃ t, step s = .next t ∧ t = { s with inbox := rest, hostData := t.hostData, draws := t.draws } ∧
            (∀ i, decode s.cmd = .ok i → off ∉ writtenRegisters i → t.hostData = readRegister off s) ∧
            (∀ e, decode s.cmd = .error e → t.hostData = readRegister off s) ∧
            (off = 0x08 → t.hostData = readRegister 0x08 s ∧ t.hostData.getLsbD 0 = true)) ∧
        (off = 0x00 → readRegister off s = 0x504A4401) ∧ (off = 0x04 → readRegister off s = 0) ∧
        (off = 0x10 → readRegister off s = s.res) ∧ (off = 0x28 → readRegister off s = s.finfo)

/-- R22, R23, R24, R26, R34: writes to the read-only registers and to the reserved offsets are ignored, and so is a
write to CTRL with bit 0 = 0, at any time; reserved offsets read 0; an access that is not 32 bits wide at a multiple of
4 is refused. -/
def Obligations.WritesWithoutEffectAndBadAccesses : Prop :=
  (∀ (s : State) (off : Nat) (v : Word) (rest : List HostEvent),
    off ∈ [0x00, 0x08, 0x10, 0x14, 0x18, 0x1C, 0x20, 0x24, 0x28] → actionTurn s (.regWrite off 4 v) rest →
      step s = .next { s with inbox := rest }) ∧
  (∀ (s : State) (v : Word) (rest : List HostEvent), v.getLsbD 0 = false →
    actionTurn s (.regWrite 0x04 4 v) rest → step s = .next { s with inbox := rest }) ∧
  (∀ (s : State) (off : Nat) (v : Word) (rest : List HostEvent),
    off ∈ [0x2C, 0x30, 0x34, 0x38, 0x3C, 0x60, 0x64, 0x68, 0x6C, 0x70, 0x74, 0x78, 0x7C] →
      readRegister off s = 0 ∧
        (actionTurn s (.regWrite off 4 v) rest → step s = .next { s with inbox := rest })) ∧
  (∀ (s : State) (off width : Nat) (v : Word) (rest : List HostEvent), width ≠ 4 ∨ off % 4 ≠ 0 →
    (actionTurn s (.regWrite off width v) rest → step s = .refused .badRegisterAccess) ∧
      (actionTurn s (.regRead off width) rest → step s = .refused .badRegisterAccess))

/-- R28: a command other than PEEK, GETBITS, RECEXT, RSTSYNC and HDEC leaves RES unchanged, and so does every command
that faults. -/
def Obligations.OtherCommandsKeepRes : Prop :=
  ∀ (i : Instr) (s t : State), s.fault = none → exec i s = .next t →
    (t.fault = none → (∃ n, i = .peek n) ∨ (∃ n, i = .getbits n) ∨ (∃ n, i = .recext n) ∨ i = .rstsync ∨
      (∃ c n, i = .hdec c n) ∨ t.res = s.res) ∧
    (t.fault ≠ none → t.res = s.res)

/-! ### Host accesses to the data memory -/

/-- R60, R70, R271: a host access to a byte that no running command uses is performed. The model's own: the answer of a
read goes to `hostData` (log entry 4), an access past the end of memory stops the machine (log entry 17), and a write in
the read set or the write set that the running command's arguments give is refused even when a check of the command
would fail (log entry 18). -/
def Obligations.HostMemoryAccess : Prop :=
  ∀ (s : State) (a : Nat) (b : Byte) (rest : List HostEvent),
    (actionTurn s (.memWrite a b) rest → a < s.params.memSize →
      (s.busy = false ∨ ∃ i, decode s.cmd = .ok i ∧ readsByte i s a = false ∧ writesByte i s a = false) →
        ∃ t, step s = .next t ∧ t = { s with mem := t.mem, inbox := rest } ∧ t.mem.read a = b ∧
          ∀ x, x ≠ a → t.mem.read x = s.mem.read x) ∧
    (actionTurn s (.memRead a) rest → a < s.params.memSize → s.busy = false →
      step s = .next { s with inbox := rest, hostData := (s.mem.read a).setWidth 32 }) ∧
    (actionTurn s (.memWrite a b) rest → a < s.params.memSize →
      (s.busy = true ∧ ∃ i, decode s.cmd = .ok i ∧ (readsByte i s a = true ∨ writesByte i s a = true)) →
        step s = .refused .memoryHazard) ∧
    (actionTurn s (.memWrite a b) rest → s.params.memSize ≤ a → step s = .fault .outsideMemory)

/-! ### Faults -/

/-- R233: which commands raise which code, and the numbers of the codes. -/
def Obligations.FaultCodesOfEachCommand : Prop :=
  (∀ (i : Instr) (s t : State) (c : FaultCode), s.fault = none → exec i s = .next t → t.fault = some c →
    (c = .memRange → i ∈ [.brinit, .upx, .upy, .ycc2rgba, .gray2rgba] ∨ (∃ h n, i = .hbuild h n) ∨
      (∃ n, i = .qload n) ∨ (∃ n, i = .idct n)) ∧
    (c = .badArgs → i ∈ [.brinit, .upx, .upy, .ycc2rgba, .gray2rgba] ∨ (∃ n, i = .idct n)) ∧
    (c = .truncated → i ∈ [.refill, .rstsync] ∨ (∃ n, i = .peek n) ∨ (∃ n, i = .getbits n) ∨
      (∃ n, i = .recext n) ∨ (∃ h n, i = .hdec h n)) ∧
    (c = .badWidth → (∃ n, i = .peek n) ∨ (∃ n, i = .getbits n) ∨ (∃ n, i = .recext n)) ∧
    (c = .bitsUnderrun → (∃ n, i = .getbits n) ∨ (∃ n, i = .recext n)) ∧
    (c = .rstMissing → i = .rstsync) ∧
    (c = .huffBadTable → ∃ h n, i = .hbuild h n) ∧
    (c = .huffNoTable → ∃ h n, i = .hdec h n) ∧
    (c = .huffBadCode → ∃ h n, i = .hdec h n) ∧
    (c = .qtNotLoaded → ∃ n, i = .idct n) ∧
    c ≠ .illegalCmd ∧ c ≠ .busyWrite) ∧
  (faultNumber .illegalCmd = 1 ∧ faultNumber .busyWrite = 2 ∧ faultNumber .memRange = 3 ∧
    faultNumber .badArgs = 4 ∧ faultNumber .truncated = 5 ∧ faultNumber .badWidth = 6 ∧
    faultNumber .bitsUnderrun = 7 ∧ faultNumber .rstMissing = 8 ∧ faultNumber .huffBadTable = 9 ∧
    faultNumber .huffNoTable = 10 ∧ faultNumber .huffBadCode = 11 ∧ faultNumber .qtNotLoaded = 12)

/-- R232: a latched fault stays, with FCODE and FINFO, until a reset; meanwhile a CMD write is ignored, and the bit
reader, the tables and memory change only as the host writes memory. That a CTRL write with bit 0 = 1 is a reset
whatever its reserved bits is the model's reading (log entry 14). -/
def Obligations.FaultStaysUntilReset : Prop :=
  ∀ (s t : State) (c : FaultCode), s.busy = false → s.fault = some c → step s = .next t →
    (t.fault = some c ∧ t.finfo = s.finfo ∧ t.busy = false ∧ t.cmd = s.cmd ∧ t.res = s.res ∧ t.ipos = s.ipos ∧
      t.iend = s.iend ∧ t.acc = s.acc ∧ t.cnt = s.cnt ∧ t.hitend = s.hitend ∧ t.ht = s.ht ∧ t.qt = s.qt ∧
      (t.mem = s.mem ∨ ∃ early a b rest, s.inbox = ⟨early, .memWrite a b⟩ :: rest) ∧
      (t.args = s.args ∨ ∃ early k v rest, k < 8 ∧ s.inbox = ⟨early, .regWrite (0x40 + 4 * k) 4 v⟩ :: rest)) ∨
    (∃ early rest, s.inbox = ⟨early, .hardReset⟩ :: rest) ∨
    (∃ early v rest, s.inbox = ⟨early, .regWrite 0x04 4 v⟩ :: rest ∧ v.getLsbD 0 = true)

/-- R236, R33: a CMD or ARG write while a command runs. What the command could not write keeps its value: RES and the
bit reader but for the registers its rule lists under "Writes", the other tables, and every byte outside its write set
(log entry 15). That CMD and the arguments keep theirs is the model's reading (log entry 9). -/
def Obligations.BusyWriteStopsTheCommand : Prop :=
  ∀ (s : State) (i : Instr) (off : Nat) (v : Word) (rest : List HostEvent),
    s.busy = true → decode s.cmd = .ok i → (off = 0x0C ∨ ∃ k, k < 8 ∧ off = 0x40 + 4 * k) →
      actionTurn s (.regWrite off 4 v) rest →
        ∃ t, step s = .next t ∧ t.busy = false ∧ t.fault = some .busyWrite ∧
          t.finfo = (if off = 0x0C then v else 0xFFFFFFFF) ∧ t.cmd = s.cmd ∧ t.args = s.args ∧
          t.params = s.params ∧ t.inbox = rest ∧ t.hostData = s.hostData ∧
          (0x10 ∉ writtenRegisters i → t.res = s.res) ∧
          (0x14 ∉ writtenRegisters i → t.ipos = s.ipos) ∧
          (0x18 ∉ writtenRegisters i → t.iend = s.iend) ∧
          (0x1C ∉ writtenRegisters i → t.acc = s.acc) ∧
          (0x20 ∉ writtenRegisters i → t.cnt = s.cnt ∧ t.hitend = s.hitend) ∧
          (∀ a, (∀ j, j < writeCount i s → writeAddr i s j ≠ a) → t.mem.read a = s.mem.read a) ∧
          (∀ c n, i ≠ .hbuild c n → t.huff c n = s.huff c n) ∧
          (∀ n, i ≠ .qload n → t.quant n = s.quant n)

/-! ### Reset -/

/-- R40, R260, R261: the state after a soft reset or a hardware reset, from any state. That a CTRL write with bit 0 = 1
resets whatever its reserved bits 31:1 is the model's reading (log entry 14). -/
def Obligations.StateAfterReset : Prop :=
  ∀ (s : State) (a : HostAction) (rest : List HostEvent), actionTurn s a rest →
    (a = .hardReset ∨ ∃ v : Word, v.getLsbD 0 = true ∧ a = .regWrite 0x04 4 v) →
      ∃ t, step s = .next t ∧ readRegister 0x00 t = 0x504A4401 ∧ readRegister 0x04 t = 0 ∧ t.statusWord = 0 ∧
        t.busy = false ∧ t.fault = none ∧ t.cmd = 0 ∧ t.res = 0 ∧ t.brCntWord = 0 ∧ t.tblStatusWord = 0 ∧ t.finfo = 0 ∧
        (∀ k, t.args.get k = 0) ∧ t.ipos = 0 ∧ t.iend = 0 ∧ t.acc = 0 ∧ t.cnt = 0 ∧ t.hitend = false ∧
        (∀ c n, (t.huff c n).hvalid = false) ∧ (∀ n, (t.quant n).qvalid = false)

/-- R260, R261, R262: a reset does not change the data memory, but for the write set of a command it stops: there every
byte that exists, whatever the command's checks would say, is the free value of this event (93 I5; log entries 5, 15).
That a CTRL write with bit 0 = 1 resets whatever its reserved bits is the model's reading (log entry 14). -/
def Obligations.ResetKeepsMemory : Prop :=
  ∀ (s t : State) (a : HostAction) (rest : List HostEvent), actionTurn s a rest →
    (a = .hardReset ∨ ∃ v : Word, v.getLsbD 0 = true ∧ a = .regWrite 0x04 4 v) → step s = .next t →
      t.params = s.params ∧ (s.busy = false → t.mem = s.mem) ∧
        (∀ i, decode s.cmd = .ok i → ∀ x, (∀ j, j < writeCount i s → writeAddr i s j ≠ x) →
          t.mem.read x = s.mem.read x) ∧
        (∀ i, s.busy = true → decode s.cmd = .ok i → ∀ j, j < writeCount i s → writeAddr i s j < s.params.memSize →
          t.mem.read (writeAddr i s j) = freeByte s.draws (writeAddr i s j))

/-! ### Bit-reader commands -/

/-- R101: BRINIT. -/
def Obligations.BrinitSetsTheStream : Prop :=
  encode .brinit = 0x00000001 ∧ ∀ s : State,
    (s.params.memSize < s.arg 1 →
      exec .brinit s = .next { s with fault := some .memRange, finfo := s.cmd, busy := false }) ∧
    (s.arg 1 ≤ s.params.memSize → s.arg 1 < s.arg 0 →
      exec .brinit s = .next { s with fault := some .badArgs, finfo := s.cmd, busy := false }) ∧
    (s.arg 1 ≤ s.params.memSize → s.arg 0 ≤ s.arg 1 →
      exec .brinit s =
        .next { s with ipos := s.args.get 0, iend := s.args.get 1, acc := 0, cnt := 0, hitend := false, busy := false })

/-- R102: BRRESET. -/
def Obligations.BrresetDropsTheAccumulator : Prop :=
  encode .brreset = 0x00000002 ∧
    ∀ s : State, exec .brreset s = .next { s with acc := 0, cnt := 0, hitend := false, busy := false }

/-- R104: `Refill()` is its loop, `while CNT <= 24`: one turn takes the next byte of the stream, ends at a marker, and
else appends the byte below the valid bits. -/
def Obligations.RefillIsItsLoop : Prop :=
  ∀ s : State,
    (24 < s.cnt → refill s = .done () s) ∧
    (∀ s1, s.cnt ≤ 24 → nextByte s = .done none s1 → refill s = .done () s1) ∧
    (∀ b s1, s.cnt ≤ 24 → nextByte s = .done (some b) s1 →
      refill s = refill { s1 with acc := s1.acc ||| (b.setWidth 32 <<< (24 - s1.cnt)), cnt := s1.cnt + 8 }) ∧
    (∀ c s1, s.cnt ≤ 24 → nextByte s = .raised c s1 → refill s = .raised c s1)

/-- R103, R104: REFILL with more than 24 bits does nothing; with HITEND it adds zero bytes until there are; else it
appends the next bytes, when none is 0xFF, below the valid bits, most significant first, until there are more than
24 bits. -/
def Obligations.RefillAddsBytes : Prop :=
  (∀ s : State,
    (24 < s.cnt → exec .refill s = .next { s with busy := false }) ∧
    (s.cnt ≤ 24 → s.hitend = true →
      exec .refill s = .next { s with cnt := s.cnt + 8 * ((32 - s.cnt) / 8), busy := false })) ∧
  (∀ (s : State) (k : Nat), s.cnt ≤ 24 → s.hitend = false → k = (32 - s.cnt) / 8 →
    s.ipos.toNat + k ≤ s.iend.toNat → s.iend.toNat ≤ s.params.memSize →
    (∀ j, j < k → s.mem.read (s.ipos.toNat + j) ≠ 0xFF) →
      exec .refill s =
        .next { s with
          acc := (List.range k).foldl
            (fun a j => a ||| ((s.mem.read (s.ipos.toNat + j)).setWidth 32 <<< (24 - s.cnt - 8 * j))) s.acc
          cnt := s.cnt + 8 * k
          ipos := s.ipos + BitVec.ofNat 32 k
          busy := false })

/-- R100, R104: what one turn takes from the stream. After a marker, zero bytes. A byte that is not 0xFF is itself. A run
of m ≥ 1 bytes 0xFF and then 0x00 is one data byte 0xFF; then any other byte is a marker: IPOS is left at the last 0xFF
and HITEND is set. At the end of the stream, also inside a run, TRUNCATED. -/
def Obligations.StuffingAndFillBytes : Prop :=
  ∀ (s : State) (m : Nat),
    (s.hitend = true → nextByte s = .done (some 0) s) ∧
    (s.hitend = false → s.ipos.toNat < s.iend.toNat → s.iend.toNat ≤ s.params.memSize →
      s.mem.read s.ipos.toNat ≠ 0xFF →
        nextByte s = .done (some (s.mem.read s.ipos.toNat)) { s with ipos := s.ipos + 1 }) ∧
    (s.hitend = false → 1 ≤ m → s.ipos.toNat + m < s.iend.toNat → s.iend.toNat ≤ s.params.memSize →
      (∀ j, j < m → s.mem.read (s.ipos.toNat + j) = 0xFF) →
        (s.mem.read (s.ipos.toNat + m) = 0 →
          nextByte s = .done (some 0xFF) { s with ipos := s.ipos + BitVec.ofNat 32 (m + 1) }) ∧
        (s.mem.read (s.ipos.toNat + m) ≠ 0xFF → s.mem.read (s.ipos.toNat + m) ≠ 0 →
          nextByte s = .done none { s with ipos := s.ipos + BitVec.ofNat 32 (m - 1), hitend := true })) ∧
    (s.hitend = false → s.ipos.toNat + m = s.iend.toNat → s.iend.toNat ≤ s.params.memSize →
      (∀ j, j < m → s.mem.read (s.ipos.toNat + j) = 0xFF) →
        nextByte s = .raised .truncated { s with ipos := s.ipos + BitVec.ofNat 32 m })

/-- R104, R114: a refill that meets a marker at once adds no byte and leaves IPOS at the marker's 0xFF. R100: one that
meets the end of the stream at once, also inside a run of fill bytes, raises TRUNCATED; IPOS has moved past what was
read. -/
def Obligations.RefillAtAMarkerOrTheEnd : Prop :=
  ∀ (s : State) (m : Nat), s.cnt ≤ 24 → s.hitend = false → s.iend.toNat ≤ s.params.memSize →
    (∀ j, j < m → s.mem.read (s.ipos.toNat + j) = 0xFF) →
      (1 ≤ m → s.ipos.toNat + m < s.iend.toNat → s.mem.read (s.ipos.toNat + m) ≠ 0xFF →
        s.mem.read (s.ipos.toNat + m) ≠ 0 →
          exec .refill s =
            .next { s with ipos := s.ipos + BitVec.ofNat 32 (m - 1), hitend := true, busy := false }) ∧
      (s.ipos.toNat + m = s.iend.toNat →
        exec .refill s =
          .next { s with
            ipos := s.ipos + BitVec.ofNat 32 m, fault := some .truncated, finfo := s.cmd, busy := false })

/-- R107: PEEK. -/
def Obligations.PeekResult : Prop :=
  ∀ (n : Nat) (s : State), encode (.peek n) = 0x00000004#32 ||| (BitVec.ofNat 32 n <<< 11) ∧
    (16 < n → exec (.peek n) s = .next { s with fault := some .badWidth, finfo := s.cmd, busy := false }) ∧
    (n = 0 → exec (.peek n) s = .next { s with res := 0, busy := false }) ∧
    (1 ≤ n → n ≤ 16 → n ≤ s.cnt →
      exec (.peek n) s = .next { s with res := BitVec.ofNat 32 (s.acc.toNat / 2 ^ (32 - n)), busy := false }) ∧
    (1 ≤ n → n ≤ 16 → s.cnt < n → ∀ s1, refill s = .done () s1 →
      exec (.peek n) s = .next { s1 with res := BitVec.ofNat 32 (s1.acc.toNat / 2 ^ (32 - n)), busy := false }) ∧
    (1 ≤ n → n ≤ 16 → s.cnt < n → ∀ c s1, refill s = .raised c s1 →
      exec (.peek n) s = .next { s1 with fault := some c, finfo := s1.cmd, busy := false })

/-- R108, with R106: GETBITS. -/
def Obligations.GetbitsResult : Prop :=
  ∀ (n : Nat) (s : State), encode (.getbits n) = 0x00000005#32 ||| (BitVec.ofNat 32 n <<< 11) ∧
    (16 < n → exec (.getbits n) s = .next { s with fault := some .badWidth, finfo := s.cmd, busy := false }) ∧
    (n = 0 → exec (.getbits n) s = .next { s with res := 0, busy := false }) ∧
    (1 ≤ n → n ≤ 16 → ∀ s1, buffered n s s1 →
      (n ≤ s1.cnt → s1.acc.toNat / 2 ^ (32 - n) < 2 ^ n ∧
        exec (.getbits n) s =
          .next { s1 with
            res := BitVec.ofNat 32 (s1.acc.toNat / 2 ^ (32 - n))
            acc := s1.acc <<< n
            cnt := s1.cnt - n
            busy := false }) ∧
      (s1.cnt < n →
        exec (.getbits n) s = .next { s1 with fault := some .bitsUnderrun, finfo := s1.cmd, busy := false })) ∧
    (1 ≤ n → n ≤ 16 → s.cnt < n → ∀ c s1, refill s = .raised c s1 →
      exec (.getbits n) s = .next { s1 with fault := some c, finfo := s1.cmd, busy := false })

/-- R110: RECEXT. -/
def Obligations.RecextResult : Prop :=
  ∀ (n : Nat) (s : State), encode (.recext n) = 0x00000006#32 ||| (BitVec.ofNat 32 n <<< 11) ∧
    (16 < n → exec (.recext n) s = .next { s with fault := some .badWidth, finfo := s.cmd, busy := false }) ∧
    (n = 0 → exec (.recext n) s = .next { s with res := 0, busy := false }) ∧
    (1 ≤ n → n ≤ 16 → ∀ s1, buffered n s s1 →
      (n ≤ s1.cnt → ∀ v : Int, v = ((s1.acc.toNat / 2 ^ (32 - n) : Nat) : Int) →
        exec (.recext n) s =
          .next { s1 with
            res := BitVec.ofInt 32 (if 2 ^ (n - 1) ≤ v then v else v - (2 ^ n - 1))
            acc := s1.acc <<< n
            cnt := s1.cnt - n
            busy := false }) ∧
      (s1.cnt < n →
        exec (.recext n) s = .next { s1 with fault := some .bitsUnderrun, finfo := s1.cmd, busy := false })) ∧
    (1 ≤ n → n ≤ 16 → s.cnt < n → ∀ c s1, refill s = .raised c s1 →
      exec (.recext n) s = .next { s1 with fault := some c, finfo := s1.cmd, busy := false })

/-- The range of RECEXT, and that its result tells the top bit; the spec's inference R111 from R110. -/
def Obligations.SignedResultRange : Prop :=
  (∀ (n p : Nat) (s : State), 1 ≤ n → n ≤ 16 → n ≤ s.cnt → p = s.acc.toNat / 2 ^ (32 - n) →
    ∃ t, exec (.recext n) s = .next t ∧
      t.res.toInt = (if 2 ^ (n - 1) ≤ p then (p : Int) else (p : Int) - (2 ^ n - 1)) ∧
      -(2 ^ n - 1) ≤ t.res.toInt ∧ t.res.toInt ≤ 2 ^ n - 1 ∧ t.res.toInt ≠ 0) ∧
  (∀ s : State, ∃ t, exec (.recext 0) s = .next t ∧ t.res = 0)

/-- R112: RSTSYNC. (IEND ≤ MEM_SIZE is part of the invariant of `StepKeepsTheInvariant`.) That IPOS + 2 is compared
with IEND as an unbounded number, which matters at IPOS ≥ 2^32 − 2, is the model's reading (log entry 10). -/
def Obligations.RstsyncPassesARestartMarker : Prop :=
  encode .rstsync = 0x00000007 ∧ ∀ s : State, s.iend.toNat ≤ s.params.memSize →
    (s.iend.toNat < s.ipos.toNat + 2 →
      exec .rstsync s =
        .next { s with acc := 0, cnt := 0, fault := some .truncated, finfo := s.cmd, busy := false }) ∧
    (s.ipos.toNat + 2 ≤ s.iend.toNat →
      (s.mem.read s.ipos.toNat ≠ 0xFF ∨ (s.mem.read (s.ipos.toNat + 1)).toNat < 0xD0 ∨
        0xD7 < (s.mem.read (s.ipos.toNat + 1)).toNat) →
      exec .rstsync s =
        .next { s with acc := 0, cnt := 0, fault := some .rstMissing, finfo := s.cmd, busy := false }) ∧
    (s.ipos.toNat + 2 ≤ s.iend.toNat → ∀ n, n ≤ 7 → s.mem.read s.ipos.toNat = 0xFF →
      s.mem.read (s.ipos.toNat + 1) = BitVec.ofNat 8 (0xD0 + n) →
      exec .rstsync s =
        .next { s with
          acc := 0, cnt := 0, ipos := s.ipos + 2, hitend := false, res := BitVec.ofNat 32 n, busy := false })

/-- R21, R30, R231: the bit-reader commands and HDEC change, also when they fault, only RES and the bit reader; IEND
changes only by BRINIT. -/
def Obligations.ReaderCommandsFrame : Prop :=
  ∀ (i : Instr) (s t : State),
    (i ∈ [.brinit, .brreset, .refill, .rstsync] ∨ (∃ n, i = .peek n) ∨ (∃ n, i = .getbits n) ∨
      (∃ n, i = .recext n) ∨ (∃ c n, i = .hdec c n)) → exec i s = .next t →
      t = { s with
            busy := false, fault := t.fault, finfo := t.finfo, res := t.res, ipos := t.ipos, iend := t.iend
            acc := t.acc, cnt := t.cnt, hitend := t.hitend } ∧
        (i ≠ .brinit → t.iend = s.iend) ∧
        (∀ a, t.mem.read a = s.mem.read a)

/-! ### Huffman commands -/

/-- R130, R131: canonical code assignment. The build accepts counts exactly when every code fits its length; then the
codes of length i are consecutive from `firstCode i`, in symbol-index order, and DELTA and MAXCODE are as R131 computes
them. -/
def Obligations.CanonicalCodeAssignment : Prop :=
  ∀ counts : List Nat, counts.length = 16 →
    ((∃ b, buildCodes 1 0 0 counts = some b) ↔
      ∀ i, 1 ≤ i → i ≤ 16 → 0 < countOf counts i → firstCode counts i + countOf counts i ≤ 2 ^ i) ∧
    ∀ b, buildCodes 1 0 0 counts = some b → ∀ i, 1 ≤ i → i ≤ 16 →
      (∀ m, m < countOf counts i →
        b.codes[firstIndex counts i + m]? = some (firstCode counts i + m) ∧
          (buildSizes 1 counts)[firstIndex counts i + m]? = some i) ∧
      b.deltas[i - 1]? = some ((firstIndex counts i : Int) - (firstCode counts i : Int)) ∧
      b.maxcodes[i - 1]? = some ((firstCode counts i + countOf counts i) * 2 ^ (16 - i))

/-- R131, R68: with its input in memory, at most 256 symbols and codes that fit, HBUILD completes: it commits the table
that its own counts L[1..16] and symbols give, field by field, and changes nothing else. -/
def Obligations.HbuildCommitsTheTable : Prop :=
  ∀ (c : HClass) (t : Fin 4) (s : State), s.arg 0 + 16 + huffNsym s ≤ s.params.memSize → huffNsym s ≤ 256 →
    (∀ i, 1 ≤ i → i ≤ 16 → 0 < huffCount s i →
      firstCode (huffCounts s) i + huffCount s i ≤ 2 ^ i) →
      ∃ b h, buildCodes 1 0 0 (huffCounts s) = some b ∧ h = builtTable (huffCounts s) (huffSymbols s) b ∧
        exec (.hbuild c t) s = .next { s.setHuff c t h with busy := false } ∧ Built h ∧ h.hvalid = true ∧
        h.nsym = ((List.range 16).map fun j => (s.mem.read (s.arg 0 + j)).toNat).sum ∧
        (∀ k, k < h.nsym → h.symbolAt k = s.mem.read (s.arg 0 + 16 + k)) ∧
        (∀ i, 1 ≤ i → i ≤ 16 →
          (∀ m, m < huffCount s i →
            h.sizeAt (firstIndex (huffCounts s) i + m) = i ∧
              (h.codeAt (firstIndex (huffCounts s) i + m)).toNat = firstCode (huffCounts s) i + m) ∧
            (h.deltaAt i).toInt = (firstIndex (huffCounts s) i : Int) - (firstCode (huffCounts s) i : Int) ∧
            (h.maxcodeAt i).toNat = (firstCode (huffCounts s) i + huffCount s i) * 2 ^ (16 - i)) ∧
        h.maxcodeAt 17 = 0x7FFFFFFF ∧
        (∀ (e : Fin 512) (k : Nat), k < h.nsym → h.sizeAt k ≤ 9 →
          e.val / 2 ^ (9 - h.sizeAt k) = (h.codeAt k).toNat → (h.fast.get e).toNat = k) ∧
        (∀ e : Fin 512, (∀ k, k < h.nsym → h.sizeAt k ≤ 9 →
          e.val / 2 ^ (9 - h.sizeAt k) ≠ (h.codeAt k).toNat) → (h.fast.get e).toNat = 255) ∧
        (∀ c' t', (c', t') ≠ (c, t) → (s.setHuff c t h).huff c' t' = s.huff c' t')

/-- R131: the faults of HBUILD; each leaves the previous table and its HVALID unchanged. -/
def Obligations.HbuildFaultsKeepTheTable : Prop :=
  ∀ (c : HClass) (t : Fin 4) (s : State),
    (s.params.memSize < s.arg 0 + 16 →
      exec (.hbuild c t) s = .next { s with fault := some .memRange, finfo := s.cmd, busy := false }) ∧
    (s.arg 0 + 16 ≤ s.params.memSize → 256 < huffNsym s →
      exec (.hbuild c t) s = .next { s with fault := some .huffBadTable, finfo := s.cmd, busy := false }) ∧
    (s.arg 0 + 16 ≤ s.params.memSize → huffNsym s ≤ 256 → s.params.memSize < s.arg 0 + 16 + huffNsym s →
      exec (.hbuild c t) s = .next { s with fault := some .memRange, finfo := s.cmd, busy := false }) ∧
    (s.arg 0 + 16 + huffNsym s ≤ s.params.memSize → huffNsym s ≤ 256 →
      (∃ i, 1 ≤ i ∧ i ≤ 16 ∧ 0 < huffCount s i ∧ 2 ^ i < firstCode (huffCounts s) i + huffCount s i) →
      exec (.hbuild c t) s = .next { s with fault := some .huffBadTable, finfo := s.cmd, busy := false })

/-- The invariants of a built table; the spec's inference R37 from R131. -/
def Obligations.BuiltTableInvariants : Prop :=
  ∀ h : HuffTable, Built h →
    h.nsym ≤ 256 ∧ (0 < h.nsym → (h.codeAt 0).toNat = 0) ∧
      (∀ i, 1 ≤ i → i ≤ 16 → (h.size.filter fun x => x == i).length ≤ 2 ^ i) ∧
      (∀ k, k < h.nsym → 1 ≤ h.sizeAt k ∧ h.sizeAt k ≤ 16 ∧ (h.codeAt k).toNat < 2 ^ h.sizeAt k) ∧
      (∀ k, k + 1 < h.nsym → h.sizeAt k ≤ h.sizeAt (k + 1) ∧
        (h.codeAt (k + 1)).toNat = ((h.codeAt k).toNat + 1) * 2 ^ (h.sizeAt (k + 1) - h.sizeAt k)) ∧
      (∀ i j, 1 ≤ i → i ≤ j → j ≤ 17 → h.maxcodeAt i ≤ h.maxcodeAt j)

/-- FAST is the prefix lookup; the spec's inference R132 from R130 and R131. -/
def Obligations.FastTableIsThePrefixLookup : Prop :=
  ∀ (h : HuffTable) (e : Fin 512), Built h →
    (∀ k, k < h.nsym → h.sizeAt k ≤ 9 → e.val / 2 ^ (9 - h.sizeAt k) = (h.codeAt k).toNat →
      (h.fast.get e).toNat = k ∧
        ∀ j, j < h.nsym → h.sizeAt j ≤ 9 → e.val / 2 ^ (9 - h.sizeAt j) = (h.codeAt j).toNat → j = k) ∧
    ((∀ k, k < h.nsym → h.sizeAt k ≤ 9 → e.val / 2 ^ (9 - h.sizeAt k) ≠ (h.codeAt k).toNat) →
      (h.fast.get e).toNat = 255)

/-- MAXCODE finds the length of a code and DELTA its symbol index; the spec's inference R133 from R130 and R131. -/
def Obligations.MaxcodeFindsTheLength : Prop :=
  ∀ h : HuffTable, Built h →
    (∀ i j, 1 ≤ i → i ≤ j → j ≤ 16 → h.maxcodeAt i ≤ h.maxcodeAt j) ∧
    (∀ x k, x < 65536 → k < h.nsym → x / 2 ^ (16 - h.sizeAt k) = (h.codeAt k).toNat →
      x < (h.maxcodeAt (h.sizeAt k)).toNat ∧
        (∀ i, 1 ≤ i → i < h.sizeAt k → (h.maxcodeAt i).toNat ≤ x) ∧
        (h.deltaAt (h.sizeAt k)).toInt + ((h.codeAt k).toNat : Int) = k)

/-- The round trip: HDEC on a built table returns the symbol whose code the stream begins with, and consumes exactly
that code; the spec's inference R143 from R131 and R140. -/
def Obligations.HdecRoundTrip : Prop :=
  ∀ (c : HClass) (t : Fin 4) (s s1 : State) (h : HuffTable) (k : Nat), h = s.huff c t → Built h →
    k < h.nsym → ¬(h.nsym = 256 ∧ k = 255 ∧ h.sizeAt 255 ≤ 9) →
    buffered 16 s s1 → h.sizeAt k ≤ s1.cnt →
    s1.acc.toNat / 2 ^ (32 - h.sizeAt k) = (h.codeAt k).toNat →
      exec (.hdec c t) s =
        .next { s1 with
          res := (h.symbolAt k).setWidth 32
          acc := s1.acc <<< h.sizeAt k
          cnt := s1.cnt - h.sizeAt k
          busy := false }

/-- The sentinel collision; the spec's inference R142 from R131 and R140. -/
def Obligations.SentinelCollision : Prop :=
  ∀ (c : HClass) (t : Fin 4) (s s1 : State) (h : HuffTable) (f10 idx : Nat), h = s.huff c t → Built h →
    h.nsym = 256 → h.sizeAt 255 ≤ 9 → buffered 16 s s1 →
    s1.acc.toNat / 2 ^ (32 - h.sizeAt 255) = (h.codeAt 255).toNat →
    f10 = ((h.codeAt 255).toNat + 1) * 2 ^ (10 - h.sizeAt 255) →
    idx = s1.acc.toNat / 2 ^ 22 + 256 - f10 →
      256 - 2 ^ (10 - h.sizeAt 255) ≤ idx ∧ idx ≤ 255 ∧
      (10 ≤ s1.cnt →
        exec (.hdec c t) s =
          .next { s1 with
            res := (h.symbolAt idx).setWidth 32, acc := s1.acc <<< 10, cnt := s1.cnt - 10, busy := false }) ∧
      (s1.cnt < 10 →
        exec (.hdec c t) s = .next { s1 with fault := some .huffBadCode, finfo := s1.cmd, busy := false })

/-- R140: HUFF_NO_TABLE on a table never built; the fault of the refill; and HUFF_BAD_CODE, with no bits consumed: when
the scan reaches length 17, when the matched length exceeds CNT, when the symbol index is out of range, with a fast hit
longer than the buffered bits (the spec's inference R141), when no code of the table begins the stream (an empty table
among these), and when the code that begins it is longer than the buffered bits. -/
def Obligations.HdecFaults : Prop :=
  ∀ (c : HClass) (t : Fin 4) (s : State) (h : HuffTable), h = s.huff c t →
    (h.hvalid = false →
      exec (.hdec c t) s = .next { s with fault := some .huffNoTable, finfo := s.cmd, busy := false }) ∧
    (∀ c' s1, h.hvalid = true → s.cnt < 16 → refill s = .raised c' s1 →
      exec (.hdec c t) s = .next { s1 with fault := some c', finfo := s1.cmd, busy := false }) ∧
    (∀ s1, h.hvalid = true → buffered 16 s s1 →
      (fastHit h s1 = 255 ∨ s1.cnt < h.sizeAt (fastHit h s1).toNat) →
      ((∀ i, 10 ≤ i → i ≤ 16 → (h.maxcodeAt i).toNat ≤ s1.acc.toNat / 65536) ∨
        (∃ i, 10 ≤ i ∧ i ≤ 16 ∧ (∀ j, 10 ≤ j → j < i → (h.maxcodeAt j).toNat ≤ s1.acc.toNat / 65536) ∧
          s1.acc.toNat / 65536 < (h.maxcodeAt i).toNat ∧
          (s1.cnt < i ∨ ((s1.acc.toNat / 2 ^ (32 - i) : Nat) : Int) + (h.deltaAt i).toInt < 0 ∨
            (h.nsym : Int) ≤ ((s1.acc.toNat / 2 ^ (32 - i) : Nat) : Int) + (h.deltaAt i).toInt))) →
        exec (.hdec c t) s = .next { s1 with fault := some .huffBadCode, finfo := s1.cmd, busy := false }) ∧
    (∀ s1, Built h → buffered 16 s s1 → fastHit h s1 ≠ 255 → s1.cnt < h.sizeAt (fastHit h s1).toNat →
        exec (.hdec c t) s = .next { s1 with fault := some .huffBadCode, finfo := s1.cmd, busy := false }) ∧
    (∀ s1, Built h → buffered 16 s s1 →
      (∀ k, k < h.nsym → s1.acc.toNat / 2 ^ (32 - h.sizeAt k) ≠ (h.codeAt k).toNat) →
        exec (.hdec c t) s = .next { s1 with fault := some .huffBadCode, finfo := s1.cmd, busy := false }) ∧
    (∀ s1 k, Built h → buffered 16 s s1 → k < h.nsym →
      s1.acc.toNat / 2 ^ (32 - h.sizeAt k) = (h.codeAt k).toNat → s1.cnt < h.sizeAt k →
        exec (.hdec c t) s = .next { s1 with fault := some .huffBadCode, finfo := s1.cmd, busy := false })

/-! ### Dequantisation and IDCT -/

/-- R160: QLOAD. -/
def Obligations.QloadStoresTheTable : Prop :=
  ∀ (t : Fin 4) (s : State), encode (.qload t) = 0x00000020#32 ||| (BitVec.ofNat 32 t.val <<< 9) ∧
    (s.params.memSize < s.arg 0 + 64 →
      exec (.qload t) s = .next { s with fault := some .memRange, finfo := s.cmd, busy := false }) ∧
    (s.arg 0 + 64 ≤ s.params.memSize →
      ∃ q, exec (.qload t) s = .next { s.setQuant t q with busy := false } ∧ q.qvalid = true ∧
        (∀ i : Fin 64, q.entry.get i = s.mem.read (s.arg 0 + i.val)) ∧
        (s.setQuant t q).quant t = q ∧ (∀ n, n ≠ t → (s.setQuant t q).quant n = s.quant n))

/-- R161, R67: coefficient i, two little-endian bytes as a signed number, times entry i of the table, exactly; the
product is cut to 16 bits only under DEQUANT_WRAP16. -/
def Obligations.DequantisedProductIsExact : Prop :=
  ∀ (t : Fin 4) (s : State) (i : Fin 64) (coef : Int),
    coef = (BitVec.ofNat 16
      ((s.mem.read (s.arg 0 + 2 * i.val)).toNat + 256 * (s.mem.read (s.arg 0 + 2 * i.val + 1)).toNat)).toInt →
    (s.params.dequantWrap16 = false →
      (dequantised t s i.val).toInt = coef * (((s.quant t).entry.get i).toNat : Int)) ∧
    (s.params.dequantWrap16 = true →
      (dequantised t s i.val).toInt = (BitVec.ofInt 16 (coef * (((s.quant t).entry.get i).toNat : Int))).toInt)

/-- R173: c(k) is the integer nearest to k·4096, or under TRUNC_PLUS_HALF the truncation toward zero of k·4096 + 1/2
(k in units of 10^-9; twice the value, to stay in integers). -/
def Obligations.KernelConstantsAreRounded : Prop :=
  ∀ k : KName,
    2 * (kNearest k * 1000000000 - kBillionths k * 4096).natAbs < 1000000000 ∧
      kTruncPlusHalf k = Int.tdiv (2 * kBillionths k * 4096 + 1000000000) 2000000000 ∧
      kTruncPlusHalf k = kNearest k + (if kBillionths k < 0 then 1 else 0) ∧
      roundedConst .nearest k = BitVec.ofInt 32 (kNearest k) ∧
      roundedConst .truncPlusHalf k = BitVec.ofInt 32 (kTruncPlusHalf k)

/-- The DC property that R170 asks of every kernel, and why the fast path of R164 equals the full first pass; the
spec's inference R172. That a supplied kernel has it by construction is the model's choice (log entry 7). -/
def Obligations.KernelDcProperty : Prop :=
  ∀ (p : Config.Params) (v : Word) (r : Nat), v.toInt.natAbs < 524288 → r < 8 →
    (octGet (idctKernel p ⟨v, 0, 0, 0, 0, 0, 0, 0⟩) r).toInt = 4096 * v.toInt ∧
      ((octGet (idctKernel p ⟨v, 0, 0, 0, 0, 0, 0, 0⟩) r + 512#32).sshiftRight 10).toInt = 4 * v.toInt

/-- A block with only d[0] = D, for every kernel; the spec's inference R166 from R164, R165 and R172. -/
def Obligations.DcOnlyBlock : Prop :=
  ∀ (p : Config.Params) (d : Nat → Word), (∀ i, 1 ≤ i → i < 64 → d i = 0) → (d 0).toInt.natAbs < 65536 →
    ∀ row col, row < 8 → col < 8 →
      columnIsDc d col = true ∧
        (octGet (firstPass p d col) row).toInt = (if col = 0 then 4 * (d 0).toInt else 0) ∧
        ((idctSample p d row col).toNat : Int) = clampInt (128 + ((d 0).toInt + 4) / 8)

/-- R163: IDCT writes its 64 samples, row r and column c at p + r·S + c, and nothing else. -/
def Obligations.IdctWritesTheBlock : Prop :=
  ∀ (t : Fin 4) (s : State), (s.quant t).qvalid = true → 8 ≤ s.arg 2 →
    s.arg 0 + 128 ≤ s.params.memSize → s.arg 1 + 7 * s.arg 2 + 8 ≤ s.params.memSize →
    (s.arg 1 + 7 * s.arg 2 + 7 < s.arg 0 ∨ s.arg 0 + 127 < s.arg 1) →
      ∃ m, exec (.idct t) s = .next { s with mem := m, busy := false } ∧
        (∀ r c, r < 8 → c < 8 →
          idctAddr s (8 * r + c) = s.arg 1 + r * s.arg 2 + c ∧
            m.read (s.arg 1 + r * s.arg 2 + c) = idctSample s.params (dequantised t s) r c) ∧
        (∀ a, (∀ j, j < 64 → idctAddr s j ≠ a) → m.read a = s.mem.read a)

/-- R163, R71: the faults of IDCT, in the order of its checks, before any write. -/
def Obligations.IdctFaultOrder : Prop :=
  ∀ (t : Fin 4) (s : State),
    ((s.quant t).qvalid = false →
      exec (.idct t) s = .next { s with fault := some .qtNotLoaded, finfo := s.cmd, busy := false }) ∧
    ((s.quant t).qvalid = true → s.arg 2 < 8 →
      exec (.idct t) s = .next { s with fault := some .badArgs, finfo := s.cmd, busy := false }) ∧
    ((s.quant t).qvalid = true → 8 ≤ s.arg 2 →
      (s.params.memSize < s.arg 0 + 128 ∨ s.params.memSize < s.arg 1 + 7 * s.arg 2 + 8) →
      exec (.idct t) s = .next { s with fault := some .memRange, finfo := s.cmd, busy := false }) ∧
    ((s.quant t).qvalid = true → 8 ≤ s.arg 2 → s.arg 0 + 128 ≤ s.params.memSize →
      s.arg 1 + 7 * s.arg 2 + 8 ≤ s.params.memSize →
      s.arg 0 ≤ s.arg 1 + 7 * s.arg 2 + 7 → s.arg 1 ≤ s.arg 0 + 127 →
      exec (.idct t) s = .next { s with fault := some .badArgs, finfo := s.cmd, busy := false })

/-! ### Upsampling -/

/-- R190, R191, R193: UPX writes the doubled rows and nothing else. -/
def Obligations.UpxDoublesRows : Prop :=
  encode .upx = 0x00000030 ∧
  ∀ (s : State) (w h : Nat), w = s.arg 2 → h = s.arg 3 → 1 ≤ w → w ≤ 65536 → 1 ≤ h → h ≤ 65536 →
    s.arg 0 + w * h ≤ s.params.memSize → s.arg 1 + 2 * (w * h) ≤ s.params.memSize →
    (s.arg 1 + 2 * (w * h) ≤ s.arg 0 ∨ s.arg 0 + w * h ≤ s.arg 1) →
      ∃ m, exec .upx s = .next { s with mem := m, busy := false } ∧
        (∀ x y, x < 2 * w → y < h →
          (m.read (s.arg 1 + y * (2 * w) + x)).toNat =
            (if x = 0 then sampleNat s (s.arg 0) w 0 y
             else if x = 2 * w - 1 then sampleNat s (s.arg 0) w (w - 1) y
             else if x % 2 = 0 then
               (3 * sampleNat s (s.arg 0) w (x / 2) y + sampleNat s (s.arg 0) w (x / 2 - 1) y
                 + s.params.upsRound.val) / 4
             else
               (3 * sampleNat s (s.arg 0) w (x / 2) y + sampleNat s (s.arg 0) w (x / 2 + 1) y
                 + s.params.upsRound.val) / 4)) ∧
        (∀ a, (∀ j, j < 2 * upsCount s → upsAddr s j ≠ a) → m.read a = s.mem.read a)

/-- R190, R192, R193: UPY writes the doubled columns and nothing else. -/
def Obligations.UpyDoublesColumns : Prop :=
  encode .upy = 0x00000031 ∧
  ∀ (s : State) (w h : Nat), w = s.arg 2 → h = s.arg 3 → 1 ≤ w → w ≤ 65536 → 1 ≤ h → h ≤ 65536 →
    s.arg 0 + w * h ≤ s.params.memSize → s.arg 1 + 2 * (w * h) ≤ s.params.memSize →
    (s.arg 1 + 2 * (w * h) ≤ s.arg 0 ∨ s.arg 0 + w * h ≤ s.arg 1) →
      ∃ m, exec .upy s = .next { s with mem := m, busy := false } ∧
        (∀ x y, x < w → y < 2 * h →
          (m.read (s.arg 1 + y * w + x)).toNat =
            (if y = 0 then sampleNat s (s.arg 0) w x 0
             else if y = 2 * h - 1 then sampleNat s (s.arg 0) w x (h - 1)
             else if y % 2 = 0 then
               (3 * sampleNat s (s.arg 0) w x (y / 2) + sampleNat s (s.arg 0) w x (y / 2 - 1)
                 + s.params.upsRound.val) / 4
             else
               (3 * sampleNat s (s.arg 0) w x (y / 2) + sampleNat s (s.arg 0) w x (y / 2 + 1)
                 + s.params.upsRound.val) / 4)) ∧
        (∀ a, (∀ j, j < 2 * upsCount s → upsAddr s j ≠ a) → m.read a = s.mem.read a)

/-- R190: the faults of UPX and UPY, in the order sizes, range, overlap, before any access. -/
def Obligations.UpsampleFaultOrder : Prop :=
  ∀ (i : Instr) (s : State) (w h : Nat), (i = .upx ∨ i = .upy) → w = s.arg 2 → h = s.arg 3 →
    ((w < 1 ∨ 65536 < w ∨ h < 1 ∨ 65536 < h) →
      exec i s = .next { s with fault := some .badArgs, finfo := s.cmd, busy := false }) ∧
    (1 ≤ w → w ≤ 65536 → 1 ≤ h → h ≤ 65536 →
      (s.params.memSize < s.arg 0 + w * h ∨ s.params.memSize < s.arg 1 + 2 * (w * h)) →
      exec i s = .next { s with fault := some .memRange, finfo := s.cmd, busy := false }) ∧
    (1 ≤ w → w ≤ 65536 → 1 ≤ h → h ≤ 65536 → s.arg 0 + w * h ≤ s.params.memSize →
      s.arg 1 + 2 * (w * h) ≤ s.params.memSize → s.arg 0 < s.arg 1 + 2 * (w * h) → s.arg 1 < s.arg 0 + w * h →
      exec i s = .next { s with fault := some .badArgs, finfo := s.cmd, busy := false })

/-! ### Colour conversion -/

/-- No intermediate of R211 wraps: r, g and b are the integers of the formulas, within (−2^30, 2^30); the spec's
inference R214 from R211 and R212. -/
def Obligations.ColourArithmeticIsExact : Prop :=
  ∀ (bias : Nat) (y cb cr : Byte), bias < 1048576 →
    (yccChannel bias y cb cr 0).toInt = (y.toNat : Int) * 1048576 + bias + ((cr.toNat : Int) - 128) * 1470208 ∧
      (yccChannel bias y cb cr 1).toInt =
        (y.toNat : Int) * 1048576 + bias + ((cr.toNat : Int) - 128) * (-748800)
          + (((cb.toNat : Int) - 128) * (-360960)) / 65536 * 65536 ∧
      (yccChannel bias y cb cr 2).toInt = (y.toNat : Int) * 1048576 + bias + ((cb.toNat : Int) - 128) * 1858048 ∧
      ∀ ch, ch < 3 → (yccChannel bias y cb cr ch).toInt.natAbs < 1073741824

/-- R210, R211, R212, R217: YCC2RGBA writes the pixels and nothing else. -/
def Obligations.YccWritesThePixels : Prop :=
  encode .ycc2rgba = 0x00000040 ∧
  ∀ (s : State) (w h : Nat), w = s.arg 5 → h = s.arg 6 → 1 ≤ w → w ≤ 65535 → 1 ≤ h → h ≤ 65535 → w ≤ s.arg 3 →
    (∀ k : Fin 8, k.val < 3 → s.arg k + (h - 1) * s.arg 3 + w ≤ s.params.memSize ∧
      (s.arg 4 + 4 * (w * h) ≤ s.arg k ∨ s.arg k + (h - 1) * s.arg 3 + w ≤ s.arg 4)) →
    s.arg 4 + 4 * (w * h) ≤ s.params.memSize →
      ∃ m, exec .ycc2rgba s = .next { s with mem := m, busy := false } ∧
        (∀ x y, x < w → y < h → ∀ yv cb cr : Int, yv = sampleNat s (s.arg 0) (s.arg 3) x y →
          cb = (sampleNat s (s.arg 1) (s.arg 3) x y : Int) - 128 →
          cr = (sampleNat s (s.arg 2) (s.arg 3) x y : Int) - 128 →
          ((m.read (s.arg 4 + 4 * (y * w + x) + 0)).toNat : Int) =
              clampInt ((yv * 1048576 + s.params.ccYBias.val + cr * 1470208) / 1048576) ∧
            ((m.read (s.arg 4 + 4 * (y * w + x) + 1)).toNat : Int) =
              clampInt ((yv * 1048576 + s.params.ccYBias.val + cr * (-748800) + cb * (-360960) / 65536 * 65536)
                / 1048576) ∧
            ((m.read (s.arg 4 + 4 * (y * w + x) + 2)).toNat : Int) =
              clampInt ((yv * 1048576 + s.params.ccYBias.val + cb * 1858048) / 1048576) ∧
            m.read (s.arg 4 + 4 * (y * w + x) + 3) = 255) ∧
        (∀ a, (∀ j, j < rgbaCount s → rgbaAddr s j ≠ a) → m.read a = s.mem.read a)

/-- R210, R213, R215: GRAY2RGBA writes the pixels and nothing else. -/
def Obligations.GrayWritesThePixels : Prop :=
  encode .gray2rgba = 0x00000041 ∧
  ∀ (s : State) (w h : Nat), w = s.arg 5 → h = s.arg 6 → 1 ≤ w → w ≤ 65535 → 1 ≤ h → h ≤ 65535 → w ≤ s.arg 3 →
    s.arg 0 + (h - 1) * s.arg 3 + w ≤ s.params.memSize →
    (s.arg 4 + 4 * (w * h) ≤ s.arg 0 ∨ s.arg 0 + (h - 1) * s.arg 3 + w ≤ s.arg 4) →
    s.arg 4 + 4 * (w * h) ≤ s.params.memSize →
      ∃ m, exec .gray2rgba s = .next { s with mem := m, busy := false } ∧
        (∀ x y ch, x < w → y < h → ch < 3 →
          (m.read (s.arg 4 + 4 * (y * w + x) + ch)).toNat = sampleNat s (s.arg 0) (s.arg 3) x y) ∧
        (∀ x y, x < w → y < h → m.read (s.arg 4 + 4 * (y * w + x) + 3) = 255) ∧
        (∀ a, (∀ j, j < rgbaCount s → rgbaAddr s j ≠ a) → m.read a = s.mem.read a)

/-- Neutral chroma gives the luma in every channel, for every CC_Y_BIAS; the spec's inference R216 from R211. -/
def Obligations.NeutralChromaGivesLuma : Prop :=
  ∀ (bias : Nat) (y : Byte) (ch : Nat), bias < 1048576 → ch < 4 →
    yccByte bias y 128 128 ch = if ch = 3 then 255 else y

/-- R210: the faults of the colour commands, in the order sizes and stride, range, overlap, before any access. -/
def Obligations.ColourFaultOrder : Prop :=
  ∀ (i : Instr) (s : State) (planes : List Nat) (w h : Nat),
    (i = .ycc2rgba ∧ planes = [s.arg 0, s.arg 1, s.arg 2]) ∨ (i = .gray2rgba ∧ planes = [s.arg 0]) →
    w = s.arg 5 → h = s.arg 6 →
      ((w < 1 ∨ 65535 < w ∨ h < 1 ∨ 65535 < h ∨ s.arg 3 < w) →
        exec i s = .next { s with fault := some .badArgs, finfo := s.cmd, busy := false }) ∧
      (1 ≤ w → w ≤ 65535 → 1 ≤ h → h ≤ 65535 → w ≤ s.arg 3 →
        ((∃ p ∈ planes, s.params.memSize < p + (h - 1) * s.arg 3 + w) ∨
          s.params.memSize < s.arg 4 + 4 * (w * h)) →
        exec i s = .next { s with fault := some .memRange, finfo := s.cmd, busy := false }) ∧
      (1 ≤ w → w ≤ 65535 → 1 ≤ h → h ≤ 65535 → w ≤ s.arg 3 →
        (∀ p ∈ planes, p + (h - 1) * s.arg 3 + w ≤ s.params.memSize) →
        s.arg 4 + 4 * (w * h) ≤ s.params.memSize →
        (∃ p ∈ planes, p < s.arg 4 + 4 * (w * h) ∧ s.arg 4 < p + (h - 1) * s.arg 3 + w) →
        exec i s = .next { s with fault := some .badArgs, finfo := s.cmd, busy := false })

/-- R21, R61, R231: a command that works on memory or on a table changes no register but STATUS and FINFO, one that
loads a table changes only that table, and a byte outside the write set keeps its value. -/
def Obligations.MemoryAndTableCommandsFrame : Prop :=
  ∀ (i : Instr) (s t : State),
    (i ∈ [.upx, .upy, .ycc2rgba, .gray2rgba] ∨ (∃ n, i = .idct n) ∨ (∃ n, i = .qload n) ∨
      (∃ c n, i = .hbuild c n)) → exec i s = .next t →
      t = { s with
            busy := false, fault := t.fault, finfo := t.finfo, ht := t.ht, qt := t.qt, mem := t.mem } ∧
        (∀ c n, i ≠ .hbuild c n → t.huff c n = s.huff c n) ∧
        (∀ n, i ≠ .qload n → t.quant n = s.quant n) ∧
        (∀ a, (∀ j, j < writeCount i s → writeAddr i s j ≠ a) → t.mem.read a = s.mem.read a)

/-! ### Invariants -/

/-- Every run begins in a state that meets the invariant: reset, with any legal parameters and any outside world. -/
def Obligations.RunsBeginInTheInvariant : Prop :=
  ∀ (p : Config.Params) (inbox : List HostEvent), p.legal = true →
    Inv { State.reset with params := p, inbox := inbox }

/-- R31, R33, R36, R100, R232: every step keeps the invariant. -/
def Obligations.StepKeepsTheInvariant : Prop :=
  ∀ s t : State, Inv s → step s = .next t → Inv t

/-- R60, R64, R100: under the invariant the machine stops with a fault only for a host access past the end of memory
(that it stops there is log entry 17; that a bit-reader read past it would stop is log entry 11), so in every run too;
and a command that completes reads and writes only bytes that exist. -/
def Obligations.NoCommandReadsOutsideMemory : Prop :=
  (∀ (s : State) (f : Fault), Inv s → step s = .fault f →
    ∃ early rest a, s.params.memSize ≤ a ∧
      ((∃ b, s.inbox = ⟨early, .memWrite a b⟩ :: rest) ∨ s.inbox = ⟨early, .memRead a⟩ :: rest)) ∧
  (∀ (s : State) (f : Fault), Reachable s → step s = .fault f →
    ∃ early rest a, s.params.memSize ≤ a ∧
      ((∃ b, s.inbox = ⟨early, .memWrite a b⟩ :: rest) ∨ s.inbox = ⟨early, .memRead a⟩ :: rest)) ∧
  (∀ (i : Instr) (s t : State), s.fault = none → s.iend.toNat ≤ s.params.memSize → exec i s = .next t →
    t.fault = none →
      (∀ a, readsByte i s a = true → a < s.params.memSize) ∧
        ∀ j, j < writeCount i s → writeAddr i s j < s.params.memSize)

/-! ### The transform on any block -/

/-- R164, R165, R171, R173: the two passes and the default kernel on every block, in exact integers reduced to s32. R170:
a supplied kernel is used as it stands, where its inputs are not those of R172 (log entry 7). -/
def Obligations.IdctPassesAndKernel : Prop :=
  (∀ (m : Config.ConstRound) (x : Oct) (r : Nat), r < 8 →
    (octGet (kernelR171 m x) r).toInt =
      wrap32 (exactButterfly (tableConstants m) (fun k => (octGet x k).toInt) r)) ∧
  (∀ (p : Config.Params) (x : Oct), p.kernel = .r171 → idctKernel p x = kernelR171 p.constRound x) ∧
  (∀ (p : Config.Params) (k : Config.SuppliedKernel) (x : Oct), p.kernel = .supplied k →
    (∃ r, 1 ≤ r ∧ r < 8 ∧ octGet x r ≠ 0) ∨ 524288 ≤ x.e0.toInt.natAbs → idctKernel p x = runKernel k x) ∧
  (∀ (p : Config.Params) (d : Nat → Word) (col row : Nat), col < 8 → row < 8 →
    ((∀ r, 1 ≤ r → r < 8 → d (8 * r + col) = 0) →
      (octGet (firstPass p d col) row).toInt = wrap32 ((d col).toInt * 4)) ∧
    ((∃ r, 1 ≤ r ∧ r < 8 ∧ d (8 * r + col) ≠ 0) → ∀ u : Int,
      u = (octGet (idctKernel p
        ⟨d col, d (8 + col), d (16 + col), d (24 + col), d (32 + col), d (40 + col), d (48 + col), d (56 + col)⟩)
          row).toInt →
      (octGet (firstPass p d col) row).toInt = wrap32 (u + 512) / 1024)) ∧
  (∀ (p : Config.Params) (d : Nat → Word) (row col : Nat) (v : Nat → Word), row < 8 → col < 8 →
    (∀ k, k < 8 → v k = octGet (firstPass p d k) row) → ∀ u : Int,
      u = (octGet (idctKernel p ⟨v 0, v 1, v 2, v 3, v 4, v 5, v 6, v 7⟩) col).toInt →
      ((idctSample p d row col).toNat : Int) = clampInt (wrap32 (u + 16842752) / 131072))
end

