-- ==== Sys2Proof/Laws/State.lean ====
section
/-! SUPPORT. The fields of the state after each named update, and the inversion of the ways a command can end. -/

namespace Sys2Proof.Machine

open Sys2Proof

/-! ### `complete` -/

@[simp] theorem complete_params (s : State) : (complete s).params = s.params := rfl
@[simp] theorem complete_busy (s : State) : (complete s).busy = false := rfl
@[simp] theorem complete_fault (s : State) : (complete s).fault = s.fault := rfl
@[simp] theorem complete_finfo (s : State) : (complete s).finfo = s.finfo := rfl
@[simp] theorem complete_cmd (s : State) : (complete s).cmd = s.cmd := rfl
@[simp] theorem complete_res (s : State) : (complete s).res = s.res := rfl
@[simp] theorem complete_args (s : State) : (complete s).args = s.args := rfl
@[simp] theorem complete_ipos (s : State) : (complete s).ipos = s.ipos := rfl
@[simp] theorem complete_iend (s : State) : (complete s).iend = s.iend := rfl
@[simp] theorem complete_acc (s : State) : (complete s).acc = s.acc := rfl
@[simp] theorem complete_cnt (s : State) : (complete s).cnt = s.cnt := rfl
@[simp] theorem complete_hitend (s : State) : (complete s).hitend = s.hitend := rfl
@[simp] theorem complete_ht (s : State) : (complete s).ht = s.ht := rfl
@[simp] theorem complete_qt (s : State) : (complete s).qt = s.qt := rfl
@[simp] theorem complete_mem (s : State) : (complete s).mem = s.mem := rfl
@[simp] theorem complete_inbox (s : State) : (complete s).inbox = s.inbox := rfl
@[simp] theorem complete_hostData (s : State) : (complete s).hostData = s.hostData := rfl
@[simp] theorem complete_draws (s : State) : (complete s).draws = s.draws := rfl

/-! ### `latchFault` -/

@[simp] theorem latchFault_params (c : FaultCode) (v : Word) (s : State) : (latchFault c v s).params = s.params := rfl
@[simp] theorem latchFault_busy (c : FaultCode) (v : Word) (s : State) : (latchFault c v s).busy = false := rfl
@[simp] theorem latchFault_fault (c : FaultCode) (v : Word) (s : State) : (latchFault c v s).fault = some c := rfl
@[simp] theorem latchFault_finfo (c : FaultCode) (v : Word) (s : State) : (latchFault c v s).finfo = v := rfl
@[simp] theorem latchFault_cmd (c : FaultCode) (v : Word) (s : State) : (latchFault c v s).cmd = s.cmd := rfl
@[simp] theorem latchFault_res (c : FaultCode) (v : Word) (s : State) : (latchFault c v s).res = s.res := rfl
@[simp] theorem latchFault_args (c : FaultCode) (v : Word) (s : State) : (latchFault c v s).args = s.args := rfl
@[simp] theorem latchFault_ipos (c : FaultCode) (v : Word) (s : State) : (latchFault c v s).ipos = s.ipos := rfl
@[simp] theorem latchFault_iend (c : FaultCode) (v : Word) (s : State) : (latchFault c v s).iend = s.iend := rfl
@[simp] theorem latchFault_acc (c : FaultCode) (v : Word) (s : State) : (latchFault c v s).acc = s.acc := rfl
@[simp] theorem latchFault_cnt (c : FaultCode) (v : Word) (s : State) : (latchFault c v s).cnt = s.cnt := rfl
@[simp] theorem latchFault_hitend (c : FaultCode) (v : Word) (s : State) : (latchFault c v s).hitend = s.hitend := rfl
@[simp] theorem latchFault_ht (c : FaultCode) (v : Word) (s : State) : (latchFault c v s).ht = s.ht := rfl
@[simp] theorem latchFault_qt (c : FaultCode) (v : Word) (s : State) : (latchFault c v s).qt = s.qt := rfl
@[simp] theorem latchFault_mem (c : FaultCode) (v : Word) (s : State) : (latchFault c v s).mem = s.mem := rfl
@[simp] theorem latchFault_inbox (c : FaultCode) (v : Word) (s : State) : (latchFault c v s).inbox = s.inbox := rfl
@[simp] theorem latchFault_hostData (c : FaultCode) (v : Word) (s : State) : (latchFault c v s).hostData = s.hostData := rfl
@[simp] theorem latchFault_draws (c : FaultCode) (v : Word) (s : State) : (latchFault c v s).draws = s.draws := rfl

/-! ### `takeFault` -/

@[simp] theorem takeFault_params (c : FaultCode) (s : State) : (takeFault c s).params = s.params := rfl
@[simp] theorem takeFault_busy (c : FaultCode) (s : State) : (takeFault c s).busy = false := rfl
@[simp] theorem takeFault_fault (c : FaultCode) (s : State) : (takeFault c s).fault = some c := rfl
@[simp] theorem takeFault_finfo (c : FaultCode) (s : State) : (takeFault c s).finfo = s.cmd := rfl
@[simp] theorem takeFault_cmd (c : FaultCode) (s : State) : (takeFault c s).cmd = s.cmd := rfl
@[simp] theorem takeFault_res (c : FaultCode) (s : State) : (takeFault c s).res = s.res := rfl
@[simp] theorem takeFault_args (c : FaultCode) (s : State) : (takeFault c s).args = s.args := rfl
@[simp] theorem takeFault_ipos (c : FaultCode) (s : State) : (takeFault c s).ipos = s.ipos := rfl
@[simp] theorem takeFault_iend (c : FaultCode) (s : State) : (takeFault c s).iend = s.iend := rfl
@[simp] theorem takeFault_acc (c : FaultCode) (s : State) : (takeFault c s).acc = s.acc := rfl
@[simp] theorem takeFault_cnt (c : FaultCode) (s : State) : (takeFault c s).cnt = s.cnt := rfl
@[simp] theorem takeFault_hitend (c : FaultCode) (s : State) : (takeFault c s).hitend = s.hitend := rfl
@[simp] theorem takeFault_ht (c : FaultCode) (s : State) : (takeFault c s).ht = s.ht := rfl
@[simp] theorem takeFault_qt (c : FaultCode) (s : State) : (takeFault c s).qt = s.qt := rfl
@[simp] theorem takeFault_mem (c : FaultCode) (s : State) : (takeFault c s).mem = s.mem := rfl
@[simp] theorem takeFault_inbox (c : FaultCode) (s : State) : (takeFault c s).inbox = s.inbox := rfl
@[simp] theorem takeFault_hostData (c : FaultCode) (s : State) : (takeFault c s).hostData = s.hostData := rfl
@[simp] theorem takeFault_draws (c : FaultCode) (s : State) : (takeFault c s).draws = s.draws := rfl

/-! ### `setRes` -/

@[simp] theorem setRes_params (v : Word) (s : State) : (State.setRes v s).params = s.params := rfl
@[simp] theorem setRes_busy (v : Word) (s : State) : (State.setRes v s).busy = s.busy := rfl
@[simp] theorem setRes_fault (v : Word) (s : State) : (State.setRes v s).fault = s.fault := rfl
@[simp] theorem setRes_finfo (v : Word) (s : State) : (State.setRes v s).finfo = s.finfo := rfl
@[simp] theorem setRes_cmd (v : Word) (s : State) : (State.setRes v s).cmd = s.cmd := rfl
@[simp] theorem setRes_res (v : Word) (s : State) : (State.setRes v s).res = v := rfl
@[simp] theorem setRes_args (v : Word) (s : State) : (State.setRes v s).args = s.args := rfl
@[simp] theorem setRes_ipos (v : Word) (s : State) : (State.setRes v s).ipos = s.ipos := rfl
@[simp] theorem setRes_iend (v : Word) (s : State) : (State.setRes v s).iend = s.iend := rfl
@[simp] theorem setRes_acc (v : Word) (s : State) : (State.setRes v s).acc = s.acc := rfl
@[simp] theorem setRes_cnt (v : Word) (s : State) : (State.setRes v s).cnt = s.cnt := rfl
@[simp] theorem setRes_hitend (v : Word) (s : State) : (State.setRes v s).hitend = s.hitend := rfl
@[simp] theorem setRes_ht (v : Word) (s : State) : (State.setRes v s).ht = s.ht := rfl
@[simp] theorem setRes_qt (v : Word) (s : State) : (State.setRes v s).qt = s.qt := rfl
@[simp] theorem setRes_mem (v : Word) (s : State) : (State.setRes v s).mem = s.mem := rfl
@[simp] theorem setRes_inbox (v : Word) (s : State) : (State.setRes v s).inbox = s.inbox := rfl
@[simp] theorem setRes_hostData (v : Word) (s : State) : (State.setRes v s).hostData = s.hostData := rfl
@[simp] theorem setRes_draws (v : Word) (s : State) : (State.setRes v s).draws = s.draws := rfl

/-! ### `consume` -/

@[simp] theorem consume_params (n : Nat) (s : State) : (consume n s).params = s.params := rfl
@[simp] theorem consume_busy (n : Nat) (s : State) : (consume n s).busy = s.busy := rfl
@[simp] theorem consume_fault (n : Nat) (s : State) : (consume n s).fault = s.fault := rfl
@[simp] theorem consume_finfo (n : Nat) (s : State) : (consume n s).finfo = s.finfo := rfl
@[simp] theorem consume_cmd (n : Nat) (s : State) : (consume n s).cmd = s.cmd := rfl
@[simp] theorem consume_res (n : Nat) (s : State) : (consume n s).res = s.res := rfl
@[simp] theorem consume_args (n : Nat) (s : State) : (consume n s).args = s.args := rfl
@[simp] theorem consume_ipos (n : Nat) (s : State) : (consume n s).ipos = s.ipos := rfl
@[simp] theorem consume_iend (n : Nat) (s : State) : (consume n s).iend = s.iend := rfl
@[simp] theorem consume_acc (n : Nat) (s : State) : (consume n s).acc = s.acc <<< n := rfl
@[simp] theorem consume_cnt (n : Nat) (s : State) : (consume n s).cnt = s.cnt - n := rfl
@[simp] theorem consume_hitend (n : Nat) (s : State) : (consume n s).hitend = s.hitend := rfl
@[simp] theorem consume_ht (n : Nat) (s : State) : (consume n s).ht = s.ht := rfl
@[simp] theorem consume_qt (n : Nat) (s : State) : (consume n s).qt = s.qt := rfl
@[simp] theorem consume_mem (n : Nat) (s : State) : (consume n s).mem = s.mem := rfl
@[simp] theorem consume_inbox (n : Nat) (s : State) : (consume n s).inbox = s.inbox := rfl
@[simp] theorem consume_hostData (n : Nat) (s : State) : (consume n s).hostData = s.hostData := rfl
@[simp] theorem consume_draws (n : Nat) (s : State) : (consume n s).draws = s.draws := rfl

/-! ### `appendByte` -/

@[simp] theorem appendByte_params (b : Byte) (s : State) : (appendByte b s).params = s.params := rfl
@[simp] theorem appendByte_busy (b : Byte) (s : State) : (appendByte b s).busy = s.busy := rfl
@[simp] theorem appendByte_fault (b : Byte) (s : State) : (appendByte b s).fault = s.fault := rfl
@[simp] theorem appendByte_finfo (b : Byte) (s : State) : (appendByte b s).finfo = s.finfo := rfl
@[simp] theorem appendByte_cmd (b : Byte) (s : State) : (appendByte b s).cmd = s.cmd := rfl
@[simp] theorem appendByte_res (b : Byte) (s : State) : (appendByte b s).res = s.res := rfl
@[simp] theorem appendByte_args (b : Byte) (s : State) : (appendByte b s).args = s.args := rfl
@[simp] theorem appendByte_ipos (b : Byte) (s : State) : (appendByte b s).ipos = s.ipos := rfl
@[simp] theorem appendByte_iend (b : Byte) (s : State) : (appendByte b s).iend = s.iend := rfl
@[simp] theorem appendByte_acc (b : Byte) (s : State) : (appendByte b s).acc = s.acc ||| (b.setWidth 32 <<< (24 - s.cnt)) := rfl
@[simp] theorem appendByte_cnt (b : Byte) (s : State) : (appendByte b s).cnt = s.cnt + 8 := rfl
@[simp] theorem appendByte_hitend (b : Byte) (s : State) : (appendByte b s).hitend = s.hitend := rfl
@[simp] theorem appendByte_ht (b : Byte) (s : State) : (appendByte b s).ht = s.ht := rfl
@[simp] theorem appendByte_qt (b : Byte) (s : State) : (appendByte b s).qt = s.qt := rfl
@[simp] theorem appendByte_mem (b : Byte) (s : State) : (appendByte b s).mem = s.mem := rfl
@[simp] theorem appendByte_inbox (b : Byte) (s : State) : (appendByte b s).inbox = s.inbox := rfl
@[simp] theorem appendByte_hostData (b : Byte) (s : State) : (appendByte b s).hostData = s.hostData := rfl
@[simp] theorem appendByte_draws (b : Byte) (s : State) : (appendByte b s).draws = s.draws := rfl

/-! ### `setHuff` -/

@[simp] theorem setHuff_params (s : State) (c : HClass) (t : Fin 4) (h : HuffTable) : (s.setHuff c t h).params = s.params := rfl
@[simp] theorem setHuff_busy (s : State) (c : HClass) (t : Fin 4) (h : HuffTable) : (s.setHuff c t h).busy = s.busy := rfl
@[simp] theorem setHuff_fault (s : State) (c : HClass) (t : Fin 4) (h : HuffTable) : (s.setHuff c t h).fault = s.fault := rfl
@[simp] theorem setHuff_finfo (s : State) (c : HClass) (t : Fin 4) (h : HuffTable) : (s.setHuff c t h).finfo = s.finfo := rfl
@[simp] theorem setHuff_cmd (s : State) (c : HClass) (t : Fin 4) (h : HuffTable) : (s.setHuff c t h).cmd = s.cmd := rfl
@[simp] theorem setHuff_res (s : State) (c : HClass) (t : Fin 4) (h : HuffTable) : (s.setHuff c t h).res = s.res := rfl
@[simp] theorem setHuff_args (s : State) (c : HClass) (t : Fin 4) (h : HuffTable) : (s.setHuff c t h).args = s.args := rfl
@[simp] theorem setHuff_ipos (s : State) (c : HClass) (t : Fin 4) (h : HuffTable) : (s.setHuff c t h).ipos = s.ipos := rfl
@[simp] theorem setHuff_iend (s : State) (c : HClass) (t : Fin 4) (h : HuffTable) : (s.setHuff c t h).iend = s.iend := rfl
@[simp] theorem setHuff_acc (s : State) (c : HClass) (t : Fin 4) (h : HuffTable) : (s.setHuff c t h).acc = s.acc := rfl
@[simp] theorem setHuff_cnt (s : State) (c : HClass) (t : Fin 4) (h : HuffTable) : (s.setHuff c t h).cnt = s.cnt := rfl
@[simp] theorem setHuff_hitend (s : State) (c : HClass) (t : Fin 4) (h : HuffTable) : (s.setHuff c t h).hitend = s.hitend := rfl
@[simp] theorem setHuff_qt (s : State) (c : HClass) (t : Fin 4) (h : HuffTable) : (s.setHuff c t h).qt = s.qt := rfl
@[simp] theorem setHuff_mem (s : State) (c : HClass) (t : Fin 4) (h : HuffTable) : (s.setHuff c t h).mem = s.mem := rfl
@[simp] theorem setHuff_inbox (s : State) (c : HClass) (t : Fin 4) (h : HuffTable) : (s.setHuff c t h).inbox = s.inbox := rfl
@[simp] theorem setHuff_hostData (s : State) (c : HClass) (t : Fin 4) (h : HuffTable) : (s.setHuff c t h).hostData = s.hostData := rfl
@[simp] theorem setHuff_draws (s : State) (c : HClass) (t : Fin 4) (h : HuffTable) : (s.setHuff c t h).draws = s.draws := rfl

/-! ### `setQuant` -/

@[simp] theorem setQuant_params (s : State) (t : Fin 4) (q : QuantTable) : (s.setQuant t q).params = s.params := rfl
@[simp] theorem setQuant_busy (s : State) (t : Fin 4) (q : QuantTable) : (s.setQuant t q).busy = s.busy := rfl
@[simp] theorem setQuant_fault (s : State) (t : Fin 4) (q : QuantTable) : (s.setQuant t q).fault = s.fault := rfl
@[simp] theorem setQuant_finfo (s : State) (t : Fin 4) (q : QuantTable) : (s.setQuant t q).finfo = s.finfo := rfl
@[simp] theorem setQuant_cmd (s : State) (t : Fin 4) (q : QuantTable) : (s.setQuant t q).cmd = s.cmd := rfl
@[simp] theorem setQuant_res (s : State) (t : Fin 4) (q : QuantTable) : (s.setQuant t q).res = s.res := rfl
@[simp] theorem setQuant_args (s : State) (t : Fin 4) (q : QuantTable) : (s.setQuant t q).args = s.args := rfl
@[simp] theorem setQuant_ipos (s : State) (t : Fin 4) (q : QuantTable) : (s.setQuant t q).ipos = s.ipos := rfl
@[simp] theorem setQuant_iend (s : State) (t : Fin 4) (q : QuantTable) : (s.setQuant t q).iend = s.iend := rfl
@[simp] theorem setQuant_acc (s : State) (t : Fin 4) (q : QuantTable) : (s.setQuant t q).acc = s.acc := rfl
@[simp] theorem setQuant_cnt (s : State) (t : Fin 4) (q : QuantTable) : (s.setQuant t q).cnt = s.cnt := rfl
@[simp] theorem setQuant_hitend (s : State) (t : Fin 4) (q : QuantTable) : (s.setQuant t q).hitend = s.hitend := rfl
@[simp] theorem setQuant_ht (s : State) (t : Fin 4) (q : QuantTable) : (s.setQuant t q).ht = s.ht := rfl
@[simp] theorem setQuant_mem (s : State) (t : Fin 4) (q : QuantTable) : (s.setQuant t q).mem = s.mem := rfl
@[simp] theorem setQuant_inbox (s : State) (t : Fin 4) (q : QuantTable) : (s.setQuant t q).inbox = s.inbox := rfl
@[simp] theorem setQuant_hostData (s : State) (t : Fin 4) (q : QuantTable) : (s.setQuant t q).hostData = s.hostData := rfl
@[simp] theorem setQuant_draws (s : State) (t : Fin 4) (q : QuantTable) : (s.setQuant t q).draws = s.draws := rfl

/-! ### `clearRegisters` -/

@[simp] theorem clearRegisters_params (s : State) : (clearRegisters s).params = s.params := rfl
@[simp] theorem clearRegisters_busy (s : State) : (clearRegisters s).busy = false := rfl
@[simp] theorem clearRegisters_fault (s : State) : (clearRegisters s).fault = none := rfl
@[simp] theorem clearRegisters_finfo (s : State) : (clearRegisters s).finfo = 0 := rfl
@[simp] theorem clearRegisters_cmd (s : State) : (clearRegisters s).cmd = 0 := rfl
@[simp] theorem clearRegisters_res (s : State) : (clearRegisters s).res = 0 := rfl
@[simp] theorem clearRegisters_args (s : State) : (clearRegisters s).args = Vector.replicate 8 0 := rfl
@[simp] theorem clearRegisters_ipos (s : State) : (clearRegisters s).ipos = 0 := rfl
@[simp] theorem clearRegisters_iend (s : State) : (clearRegisters s).iend = 0 := rfl
@[simp] theorem clearRegisters_acc (s : State) : (clearRegisters s).acc = 0 := rfl
@[simp] theorem clearRegisters_cnt (s : State) : (clearRegisters s).cnt = 0 := rfl
@[simp] theorem clearRegisters_hitend (s : State) : (clearRegisters s).hitend = false := rfl
@[simp] theorem clearRegisters_mem (s : State) : (clearRegisters s).mem = s.mem := rfl
@[simp] theorem clearRegisters_inbox (s : State) : (clearRegisters s).inbox = s.inbox := rfl
@[simp] theorem clearRegisters_hostData (s : State) : (clearRegisters s).hostData = s.hostData := rfl
@[simp] theorem clearRegisters_draws (s : State) : (clearRegisters s).draws = s.draws + 1 := rfl

/-! ### Reading what an update leaves -/

@[simp] theorem arg_complete (s : State) (k : Fin 8) : (complete s).arg k = s.arg k := rfl

@[simp] theorem huff_complete (s : State) (c : HClass) (t : Fin 4) : (complete s).huff c t = s.huff c t := rfl

@[simp] theorem quant_complete (s : State) (t : Fin 4) : (complete s).quant t = s.quant t := rfl

@[simp] theorem huff_takeFault (f : FaultCode) (s : State) (c : HClass) (t : Fin 4) :
    (takeFault f s).huff c t = s.huff c t := rfl

theorem huffIndex_inj (c c' : HClass) (t t' : Fin 4) : huffIndex c t = huffIndex c' t' ↔ c = c' ∧ t = t' := by
  revert t t'; cases c <;> cases c' <;> decide

theorem huff_setHuff (s : State) (c c' : HClass) (t t' : Fin 4) (h : HuffTable) :
    (s.setHuff c t h).huff c' t' = if c = c' ∧ t = t' then h else s.huff c' t' := by
  have e : (huffIndex c t).val = (huffIndex c' t').val ↔ c = c' ∧ t = t' := by
    rw [← huffIndex_inj c c' t t', Fin.ext_iff]
  simp only [State.huff, State.setHuff, Vector.get_eq_getElem, Vector.getElem_set, e]

@[simp] theorem huff_setHuff_same (s : State) (c : HClass) (t : Fin 4) (h : HuffTable) :
    (s.setHuff c t h).huff c t = h := by
  simp [huff_setHuff]

theorem quant_setQuant (s : State) (t t' : Fin 4) (q : QuantTable) :
    (s.setQuant t q).quant t' = if t = t' then q else s.quant t' := by
  have e : t.val = t'.val ↔ t = t' := Fin.ext_iff.symm
  simp only [State.quant, State.setQuant, Vector.get_eq_getElem, Vector.getElem_set, e]

@[simp] theorem quant_setQuant_same (s : State) (t : Fin 4) (q : QuantTable) : (s.setQuant t q).quant t = q := by
  simp [quant_setQuant]

/-- After a reset no Huffman table is valid (R40). -/
@[simp] theorem clearRegisters_hvalid (s : State) (c : HClass) (t : Fin 4) :
    ((clearRegisters s).huff c t).hvalid = false := by
  simp [State.huff, clearRegisters, Vector.get_eq_getElem]

/-- After a reset no quantisation table is valid (R40). -/
@[simp] theorem clearRegisters_qvalid (s : State) (t : Fin 4) : ((clearRegisters s).quant t).qvalid = false := by
  simp [State.quant, clearRegisters, Vector.get_eq_getElem]

/-! ### Checks -/

theorem firstFailing_cons (bad : Bool) (c : FaultCode) (rest : List (Bool × FaultCode)) :
    firstFailing ((bad, c) :: rest) = if bad then some c else firstFailing rest := rfl

@[simp] theorem firstFailing_nil : firstFailing [] = none := rfl

/-- No check fails exactly when every check is good. -/
theorem firstFailing_none (l : List (Bool × FaultCode)) : firstFailing l = none ↔ ∀ p ∈ l, p.1 = false := by
  induction l with
  | nil => simp
  | cons p rest ih =>
    obtain ⟨bad, c⟩ := p
    cases bad <;> simp [firstFailing_cons, ih]

/-! ### The ways a command ends -/

/-- A procedure that returns, continued, ends as the continuation does. -/
@[simp] theorem andThen_done {α β : Type} (a : α) (s : State) (k : α → State → Eff β) :
    (Eff.done a s).andThen k = k a s := rfl

@[simp] theorem andThen_raised {α β : Type} (c : FaultCode) (s : State) (k : α → State → Eff β) :
    (Eff.raised c s : Eff α).andThen k = .raised c s := rfl

@[simp] theorem andThen_stopped {α β : Type} (f : Fault) (k : α → State → Eff β) :
    (Eff.stopped f : Eff α).andThen k = .stopped f := rfl

@[simp] theorem finish_done (u : Unit) (s : State) : (Eff.done u s).finish = .next (complete s) := rfl

@[simp] theorem finish_raised (c : FaultCode) (s : State) :
    (Eff.raised c s : Eff Unit).finish = .next (takeFault c s) := rfl

@[simp] theorem finish_stopped (f : Fault) : (Eff.stopped f : Eff Unit).finish = .fault f := rfl

/-- The next state of a command that is a procedure: it completed, or its fault was latched. -/
theorem finish_next (m : Eff Unit) (t : State) (h : m.finish = .next t) :
    (∃ s, m = .done () s ∧ t = complete s) ∨ (∃ c s, m = .raised c s ∧ t = takeFault c s) := by
  cases m with
  | done u s => exact .inl ⟨s, rfl, by simpa using h.symm⟩
  | raised c s => exact .inr ⟨c, s, rfl, by simpa using h.symm⟩
  | stopped f => simp at h

/-- The next state of a command with checks: its body's, or its first failing check's fault and nothing else. -/
theorem checked_next (check : Option FaultCode) (body : State → State) (s t : State)
    (h : checked check body s = .next t) :
    (check = none ∧ t = complete (body s)) ∨ (∃ c, check = some c ∧ t = takeFault c s) := by
  cases check with
  | none => exact .inl ⟨rfl, by simpa [checked] using h.symm⟩
  | some c => exact .inr ⟨c, rfl, by simpa [checked] using h.symm⟩

/-- A command with checks always answers a next state. -/
theorem checked_total (check : Option FaultCode) (body : State → State) (s : State) :
    ∃ t, checked check body s = .next t := by
  cases check <;> exact ⟨_, rfl⟩

end Sys2Proof.Machine
end

