-- ==== Sys2Proof/Laws/BitReader.lean ====
section
/-! SUPPORT. What the shared procedures of the bit reader can do: the state they leave differs only in the reader's own
fields, and the ranges of the reader are kept. -/

namespace Sys2Proof.Machine

open Sys2Proof

/-! ### Results of procedures -/

/-- Every state that a result holds satisfies `P`. -/
def Eff.Leaves {α : Type} (m : Eff α) (P : State → Prop) : Prop :=
  match m with
  | .done _ s => P s
  | .raised _ s => P s
  | .stopped _ => True

@[simp] theorem leaves_done {α : Type} (a : α) (s : State) (P : State → Prop) :
    (Eff.done a s).Leaves P ↔ P s := Iff.rfl

@[simp] theorem leaves_raised {α : Type} (c : FaultCode) (s : State) (P : State → Prop) :
    (Eff.raised c s : Eff α).Leaves P ↔ P s := Iff.rfl

@[simp] theorem leaves_stopped {α : Type} (f : Fault) (P : State → Prop) :
    (Eff.stopped f : Eff α).Leaves P := trivial

theorem Eff.Leaves.mono {α : Type} {m : Eff α} {P Q : State → Prop} (h : m.Leaves P) (pq : ∀ s, P s → Q s) :
    m.Leaves Q := by
  cases m with
  | done a s => exact pq s h
  | raised c s => exact pq s h
  | stopped f => trivial

theorem leaves_andThen {α β : Type} (m : Eff α) (k : α → State → Eff β) (P : State → Prop) (hm : m.Leaves P)
    (hk : ∀ a s, m = .done a s → P s → (k a s).Leaves P) : (m.andThen k).Leaves P := by
  cases m with
  | done a s => exact hk a s rfl hm
  | raised c s => exact hm
  | stopped f => trivial

/-- A procedure followed by another returns only if both return. -/
theorem andThen_eq_done {α β : Type} (m : Eff α) (k : α → State → Eff β) (b : β) (t : State) :
    m.andThen k = .done b t ↔ ∃ a s, m = .done a s ∧ k a s = .done b t := by
  cases m <;> simp

/-- A sequence raises where its first or its second part raises. -/
theorem andThen_eq_raised {α β : Type} (m : Eff α) (k : α → State → Eff β) (c : FaultCode) (t : State) :
    m.andThen k = .raised c t ↔ m = .raised c t ∨ ∃ a s, m = .done a s ∧ k a s = .raised c t := by
  cases m <;> simp

/-- A sequence stops the machine where its first or its second part does. -/
theorem andThen_eq_stopped {α β : Type} (m : Eff α) (k : α → State → Eff β) (f : Fault) :
    m.andThen k = .stopped f ↔ m = .stopped f ∨ ∃ a s, m = .done a s ∧ k a s = .stopped f := by
  cases m <;> simp

/-! ### The frame of the bit reader -/

/-- `t` differs from `s` at most in ACC, CNT, IPOS and HITEND. -/
def SameButReader (s t : State) : Prop :=
  t = { s with acc := t.acc, cnt := t.cnt, ipos := t.ipos, hitend := t.hitend }

theorem SameButReader.refl (s : State) : SameButReader s s := rfl

theorem SameButReader.trans {s t u : State} (h : SameButReader s t) (h' : SameButReader t u) : SameButReader s u := by
  unfold SameButReader at *; rw [h', h]

/-- What a procedure of the bit reader keeps, from `s` to `t`. -/
structure ReaderKept (s t : State) : Prop where
  frame : SameButReader s t
  accumulator : accumulatorOk s → accumulatorOk t
  stream : streamOk s → streamOk t

theorem ReaderKept.refl (s : State) : ReaderKept s s := ⟨rfl, id, id⟩

theorem ReaderKept.trans {s t u : State} (h : ReaderKept s t) (h' : ReaderKept t u) : ReaderKept s u :=
  ⟨h.frame.trans h'.frame, h'.accumulator ∘ h.accumulator, h'.stream ∘ h.stream⟩

/-! ### ReadIn -/

/-- R100: the three ways `ReadIn` ends. -/
theorem readIn_cases (s : State) :
    (s.iend.toNat ≤ s.ipos.toNat ∧ readIn s = .raised .truncated s) ∨
    (s.ipos.toNat < s.iend.toNat ∧ s.params.memSize ≤ s.ipos.toNat ∧ readIn s = .stopped .outsideMemory) ∨
    (s.ipos.toNat < s.iend.toNat ∧ s.ipos.toNat < s.params.memSize ∧
      readIn s = .done (s.mem.read s.ipos.toNat) { s with ipos := s.ipos + 1 }) := by
  unfold readIn
  by_cases h : s.iend.toNat ≤ s.ipos.toNat
  · exact .inl ⟨h, by simp [h]⟩
  · by_cases h2 : s.params.memSize ≤ s.ipos.toNat
    · exact .inr (.inl ⟨by omega, h2, by simp [h, h2]⟩)
    · exact .inr (.inr ⟨by omega, by omega, by simp [h, h2]⟩)

/-- IPOS does not wrap when a byte is read below IEND. -/
theorem ipos_succ (s : State) (h : s.ipos.toNat < s.iend.toNat) : (s.ipos + 1).toNat = s.ipos.toNat + 1 := by
  have := s.iend.isLt
  have one : (1 : Word).toNat = 1 := rfl
  rw [BitVec.toNat_add, one]
  omega

theorem readIn_kept (s : State) : (readIn s).Leaves (ReaderKept s) := by
  obtain ⟨_, h⟩ | ⟨_, _, h⟩ | ⟨lt, _, h⟩ := readIn_cases s <;> rw [h]
  · exact ReaderKept.refl s
  · trivial
  · refine ⟨rfl, id, fun ⟨_, h2⟩ => ⟨?_, h2⟩⟩
    have := ipos_succ s lt
    simp only
    omega

/-- What `ReadIn` returns and leaves. -/
theorem readIn_done (s t : State) (b : Byte) (h : readIn s = .done b t) :
    s.ipos.toNat < s.iend.toNat ∧ b = s.mem.read s.ipos.toNat ∧ t = { s with ipos := s.ipos + 1 } := by
  obtain ⟨_, e⟩ | ⟨_, _, e⟩ | ⟨lt, _, e⟩ := readIn_cases s <;> rw [e] at h <;> simp at h
  exact ⟨lt, h.1.symm, h.2.symm⟩

/-- With IEND ≤ MEM_SIZE, `ReadIn` never stops the machine (R100). -/
theorem readIn_in_memory (s : State) (h : s.iend.toNat ≤ s.params.memSize) (f : Fault) : readIn s ≠ .stopped f := by
  obtain ⟨_, e⟩ | ⟨_, _, _⟩ | ⟨_, _, e⟩ := readIn_cases s
  · simp [e]
  · omega
  · simp [e]

/-! ### Fill bytes -/

/-- The loop over fill bytes moves only IPOS, forward and not past IEND. -/
theorem skipFill_moves (n : Nat) (s : State) :
    (skipFill n s).Leaves fun t =>
      t = { s with ipos := t.ipos } ∧ s.ipos.toNat ≤ t.ipos.toNat ∧
        (s.ipos.toNat ≤ s.iend.toNat → t.ipos.toNat ≤ s.iend.toNat) := by
  induction n generalizing s with
  | zero => simp [skipFill]
  | succ n ih =>
    rw [skipFill]
    obtain ⟨_, e⟩ | ⟨_, _, e⟩ | ⟨lt, _, e⟩ := readIn_cases s <;> rw [e]
    · simp
    · simp
    · have step := ipos_succ s lt
      simp only [andThen_done]
      split
      · have := ih { s with ipos := s.ipos + 1 }
        revert this
        cases skipFill n { s with ipos := s.ipos + 1 } <;> simp only [leaves_done, leaves_raised, leaves_stopped]
        · rintro ⟨h1, h2, h3⟩; exact ⟨h1, by omega, fun _ => h3 (by omega)⟩
        · rintro ⟨h1, h2, h3⟩; exact ⟨h1, by omega, fun _ => h3 (by omega)⟩
        · exact id
      · simp only [leaves_done]; exact ⟨trivial, by omega, fun _ => by omega⟩

/-- A byte that the loop returns is no 0xFF, and IPOS has moved. -/
theorem skipFill_done (n : Nat) (s t : State) (c : Byte) (h : skipFill n s = .done c t) :
    c ≠ 0xFF ∧ t = { s with ipos := t.ipos } ∧ s.ipos.toNat < t.ipos.toNat ∧ t.ipos.toNat ≤ s.iend.toNat := by
  induction n generalizing s with
  | zero => simp [skipFill] at h
  | succ n ih =>
    rw [skipFill, andThen_eq_done] at h
    obtain ⟨b, s1, hr, hk⟩ := h
    obtain ⟨lt, rfl, rfl⟩ := readIn_done s s1 b hr
    have step := ipos_succ s lt
    split at hk
    · obtain ⟨h1, h2, h3, h4⟩ := ih _ hk
      exact ⟨h1, h2, by simp only at h3; omega, h4⟩
    · rename_i hne
      simp only [Eff.done.injEq] at hk
      obtain ⟨rfl, rfl⟩ := hk
      exact ⟨hne, rfl, by simp only; omega, by simp only; omega⟩

/-! ### One turn of the refill -/

/-- One turn keeps the frame, and IPOS stays at or before IEND, also when it is rewound at a marker (R114). -/
theorem nextByte_kept (s : State) : (nextByte s).Leaves (ReaderKept s) := by
  unfold nextByte
  by_cases hh : s.hitend = true
  · simp only [hh, if_true]; exact ReaderKept.refl s
  · simp only [hh]
    refine leaves_andThen _ _ _ (readIn_kept s) fun b s1 hr k1 => ?_
    obtain ⟨lt, rfl, rfl⟩ := readIn_done s s1 b hr
    have step := ipos_succ s lt
    split
    · have moves := skipFill_moves (streamLeft { s with ipos := s.ipos + 1 }) { s with ipos := s.ipos + 1 }
      generalize hm : skipFill (streamLeft { s with ipos := s.ipos + 1 }) { s with ipos := s.ipos + 1 } = m at moves
      cases m with
      | stopped f => trivial
      | raised c t =>
        obtain ⟨ht, _, hle⟩ := moves
        refine ⟨by rw [ht]; rfl, fun h => by rw [ht]; exact h, fun ⟨_, h2⟩ => ?_⟩
        rw [ht]
        exact ⟨hle (by simp only; omega), h2⟩
      | done c t =>
        obtain ⟨_, ht, hlt, hle⟩ := skipFill_done _ _ _ _ hm
        simp only at hlt hle
        simp only [andThen_done]
        split
        · refine ⟨by rw [ht]; rfl, fun h => by rw [ht]; exact h, fun ⟨_, h2⟩ => ?_⟩
          rw [ht]; exact ⟨hle, h2⟩
        · refine ⟨by rw [ht]; rfl, fun h => by rw [ht]; exact h, fun ⟨_, h2⟩ => ?_⟩
          rw [ht]
          refine ⟨?_, h2⟩
          have e : (t.ipos - 2).toNat = t.ipos.toNat - 2 := by
            have := t.ipos.isLt
            have two : (2 : Word).toNat = 2 := rfl
            rw [BitVec.toNat_sub, two]
            omega
          show (t.ipos - 2).toNat ≤ s.iend.toNat
          omega
    · simpa using k1

/-- A byte put below the valid bits keeps the bits below it 0 (R31). -/
theorem appendByte_accumulatorOk (b : Byte) (s : State) (h : accumulatorOk s) (hc : s.cnt ≤ 24) :
    accumulatorOk (appendByte b s) := by
  obtain ⟨_, zero⟩ := h
  refine ⟨by simp; omega, fun i hi => ?_⟩
  simp only [appendByte_cnt, appendByte_acc, BitVec.getLsbD_or, BitVec.getLsbD_shiftLeft] at hi ⊢
  simp [zero i (by omega), show i < 24 - s.cnt by omega]

/-! ### Refill -/

/-- R104: the loop keeps the frame and the ranges of the reader. -/
theorem refillTurns_kept (n : Nat) (s : State) : (refillTurns n s).Leaves (ReaderKept s) := by
  induction n generalizing s with
  | zero => exact ReaderKept.refl s
  | succ n ih =>
    rw [refillTurns]
    split
    · exact ReaderKept.refl s
    · rename_i hc
      refine leaves_andThen _ _ _ (nextByte_kept s) fun ob s1 hs k1 => ?_
      cases ob with
      | none => exact k1
      | some b =>
        have cnt : s1.cnt = s.cnt := by
          revert hs
          unfold nextByte
          split
          · intro h; simp at h; rw [← h.2]
          · rw [andThen_eq_done]
            rintro ⟨b1, t1, hr, hk⟩
            obtain ⟨_, rfl, rfl⟩ := readIn_done _ _ _ hr
            split at hk
            · rw [andThen_eq_done] at hk
              obtain ⟨c, t2, hf, hk⟩ := hk
              obtain ⟨_, ht, _⟩ := skipFill_done _ _ _ _ hf
              split at hk <;> simp at hk
              rw [← hk.2, ht]
            · simp at hk; rw [← hk.2]
        have step : ReaderKept s1 (appendByte b s1) :=
          ⟨rfl, fun h => appendByte_accumulatorOk b s1 h (by omega), id⟩
        exact (ih (appendByte b s1)).mono fun t k => k1.trans (step.trans k)

/-- `Refill` keeps the frame and the ranges of the reader. -/
theorem refill_kept (s : State) : (refill s).Leaves (ReaderKept s) := refillTurns_kept 4 s

theorem ensureBits_kept (n : Nat) (s : State) : (ensureBits n s).Leaves (ReaderKept s) := by
  unfold ensureBits
  split
  · exact refill_kept s
  · exact ReaderKept.refl s

/-- A refill that finds more than 24 bits does nothing (R104). -/
theorem refill_full (s : State) (h : 24 < s.cnt) : refill s = .done () s := by
  simp [refill, refillTurns, h]

/-- R105: `Consume` keeps the ranges of the reader. -/
theorem consume_kept (n : Nat) (s : State) (h : n ≤ s.cnt) : ReaderKept s (consume n s) := by
  refine ⟨rfl, fun ⟨hc, zero⟩ => ⟨by simp; omega, fun i hi => ?_⟩, id⟩
  simp only [consume_acc, consume_cnt, BitVec.getLsbD_shiftLeft] at hi ⊢
  by_cases hn : i < n
  · simp [hn]
  · simp [zero (i - n) (by omega)]

/-- R106: `GetBits` keeps the frame and the ranges of the reader, and what it returns is below 2^n. -/
theorem getBits_kept (n : Nat) (s : State) : (getBits n s).Leaves (ReaderKept s) := by
  unfold getBits
  refine leaves_andThen _ _ _ (ensureBits_kept n s) fun _ s1 _ k1 => ?_
  split
  · exact k1
  · exact k1.trans (consume_kept n s1 (by omega))

/-- R109: the top n bits are a number below 2^n. -/
theorem topBits_lt (n : Nat) (s : State) (h : n ≤ 32) : (topBits n s).toNat < 2 ^ n := by
  have := s.acc.isLt
  simp only [topBits, BitVec.toNat_ushiftRight, Nat.shiftRight_eq_div_pow]
  rw [Nat.div_lt_iff_lt_mul (by positivity), ← Nat.pow_add, show n + (32 - n) = 32 by omega]
  exact this

/-- With IEND ≤ MEM_SIZE no loop over fill bytes stops the machine. -/
theorem skipFill_in_memory (n : Nat) (s : State) (h : s.iend.toNat ≤ s.params.memSize) (f : Fault) :
    skipFill n s ≠ .stopped f := by
  induction n generalizing s with
  | zero => simp [skipFill]
  | succ n ih =>
    rw [skipFill, Ne, andThen_eq_stopped]
    rintro (e | ⟨b, s1, hr, hk⟩)
    · exact readIn_in_memory s h f e
    · obtain ⟨_, rfl, rfl⟩ := readIn_done _ _ _ hr
      split at hk
      · exact ih { s with ipos := s.ipos + 1 } h hk
      · simp at hk

theorem nextByte_in_memory (s : State) (h : s.iend.toNat ≤ s.params.memSize) (f : Fault) :
    nextByte s ≠ .stopped f := by
  unfold nextByte
  split
  · simp
  · rw [Ne, andThen_eq_stopped]
    rintro (e | ⟨b, s1, hr, hk⟩)
    · exact readIn_in_memory s h f e
    · obtain ⟨_, rfl, rfl⟩ := readIn_done _ _ _ hr
      split at hk
      · rw [andThen_eq_stopped] at hk
        rcases hk with e | ⟨c, s2, _, hk⟩
        · exact skipFill_in_memory _ _ (by exact h) f e
        · split at hk <;> simp at hk
      · simp at hk

/-- With IEND ≤ MEM_SIZE no refill stops the machine. -/
theorem refillTurns_in_memory (n : Nat) (s : State) (h : s.iend.toNat ≤ s.params.memSize) (f : Fault) :
    refillTurns n s ≠ .stopped f := by
  induction n generalizing s with
  | zero => simp [refillTurns]
  | succ n ih =>
    rw [refillTurns]
    split
    · simp
    · rw [Ne, andThen_eq_stopped]
      rintro (e | ⟨ob, s1, hr, hk⟩)
      · exact nextByte_in_memory s h f e
      · have kept := nextByte_kept s
        rw [hr] at kept
        cases ob with
        | none => simp at hk
        | some b =>
          refine ih (appendByte b s1) ?_ hk
          have := kept.frame
          rw [this]; exact h

theorem ensureBits_in_memory (n : Nat) (s : State) (h : s.iend.toNat ≤ s.params.memSize) (f : Fault) :
    ensureBits n s ≠ .stopped f := by
  unfold ensureBits
  split
  · exact refillTurns_in_memory 4 s h f
  · simp

end Sys2Proof.Machine
end

