-- ==== Sys2Proof/Laws/Huffman.lean ====
section
/-! SUPPORT. The Huffman unit: the shape of what the code loop builds, the slow scan, and what decoding a symbol can
do. -/

namespace Sys2Proof.Machine

open Sys2Proof

/-! ### The code loop -/

/-- One length of the code loop: it fails, or it puts the codes, the delta and the maximum of that length before those
of the longer ones. -/
theorem buildCodes_cons (i code k l : Nat) (rest : List Nat) (b : CodeBook) :
    buildCodes i code k (l :: rest) = some b ↔
      ¬(0 < l ∧ 2 ^ i ≤ code + l - 1) ∧ ∃ b', buildCodes (i + 1) (2 * (code + l)) (k + l) rest = some b' ∧
        b = { codes := (List.range l).map (code + ·) ++ b'.codes
              deltas := ((k : Int) - (code : Int)) :: b'.deltas
              maxcodes := (code + l) * 2 ^ (16 - i) :: b'.maxcodes } := by
  rw [buildCodes]
  split
  · rename_i h; simp [h]
  · rename_i h
    cases buildCodes (i + 1) (2 * (code + l)) (k + l) rest with
    | none => simp
    | some b' =>
      simp only [Option.some.injEq, exists_eq_left']
      exact ⟨fun e => ⟨h, e.symm⟩, fun e => e.2.symm⟩

/-- The code loop gives one code per symbol and one delta and one maximum per length. -/
theorem buildCodes_lengths (counts : List Nat) (i code k : Nat) (b : CodeBook)
    (h : buildCodes i code k counts = some b) :
    b.codes.length = counts.sum ∧ b.deltas.length = counts.length ∧ b.maxcodes.length = counts.length := by
  induction counts generalizing i code k b with
  | nil => simp [buildCodes] at h; subst h; simp
  | cons l rest ih =>
    obtain ⟨_, b', hb, rfl⟩ := (buildCodes_cons i code k l rest b).1 h
    obtain ⟨h1, h2, h3⟩ := ih _ _ _ _ hb
    simp [h1, h2, h3]

/-- The size loop gives one size per symbol. -/
theorem buildSizes_length (counts : List Nat) (i : Nat) : (buildSizes i counts).length = counts.sum := by
  induction counts generalizing i with
  | nil => rfl
  | cons l rest ih => simp [buildSizes, ih]

/-- Every size lies among the lengths the counts are for. -/
theorem buildSizes_range (counts : List Nat) (i x : Nat) (h : x ∈ buildSizes i counts) :
    i ≤ x ∧ x < i + counts.length := by
  induction counts generalizing i with
  | nil => simp [buildSizes] at h
  | cons l rest ih =>
    rw [buildSizes, List.mem_append] at h
    rcases h with h | h
    · obtain ⟨_, rfl⟩ := List.mem_replicate.1 h
      simp
    · have := ih _ h
      simp only [List.length_cons]
      omega

/-- The table HBUILD commits is valid and has the symbols it was given. -/
@[simp] theorem builtTable_hvalid (counts : List Nat) (symbols : List Byte) (b : CodeBook) :
    (builtTable counts symbols b).hvalid = true := rfl

@[simp] theorem builtTable_nsym (counts : List Nat) (symbols : List Byte) (b : CodeBook) :
    (builtTable counts symbols b).nsym = counts.sum := rfl

@[simp] theorem builtTable_symbol (counts : List Nat) (symbols : List Byte) (b : CodeBook) :
    (builtTable counts symbols b).symbol = symbols := rfl

@[simp] theorem builtTable_size (counts : List Nat) (symbols : List Byte) (b : CodeBook) :
    (builtTable counts symbols b).size = buildSizes 1 counts := rfl

@[simp] theorem builtTable_code (counts : List Nat) (symbols : List Byte) (b : CodeBook) :
    (builtTable counts symbols b).code = b.codes.map (BitVec.ofNat 16) := rfl

/-- FAST[e] of a built table is the fast loop of R131 at e. -/
theorem builtTable_fast (counts : List Nat) (symbols : List Byte) (b : CodeBook) (e : Fin 512) :
    (builtTable counts symbols b).fast.get e =
      BitVec.ofNat 8 (fastEntry (buildSizes 1 counts) b.codes counts.sum e.val) := by
  simp [builtTable, Vector.get_eq_getElem]

theorem huffCounts_length (s : State) : (huffCounts s).length = 16 := by simp [huffCounts]

/-- A count is one byte (R68). -/
theorem huffCounts_lt (s : State) (l : Nat) (h : l ∈ huffCounts s) : l < 256 := by
  simp only [huffCounts, huffCount, List.mem_map] at h
  obtain ⟨j, _, rfl⟩ := h
  exact (s.mem.read _).isLt

theorem huffSymbols_length (s : State) : (huffSymbols s).length = (huffCounts s).sum := by
  simp [huffSymbols, huffNsym]

/-- R131: the ways HBUILD ends. It always answers a next state. -/
theorem execHbuild_cases (c : HClass) (t : Fin 4) (s : State) :
    (∃ f, hbuildCheck s = some f ∧ execHbuild c t s = .next (takeFault f s)) ∨
    (hbuildCheck s = none ∧ buildCodes 1 0 0 (huffCounts s) = none ∧
      execHbuild c t s = .next (takeFault .huffBadTable s)) ∨
    (∃ b, hbuildCheck s = none ∧ buildCodes 1 0 0 (huffCounts s) = some b ∧
      execHbuild c t s = .next (complete (s.setHuff c t (builtTable (huffCounts s) (huffSymbols s) b)))) := by
  unfold execHbuild
  cases h : hbuildCheck s with
  | some f => exact .inl ⟨f, rfl, rfl⟩
  | none =>
    cases hb : buildCodes 1 0 0 (huffCounts s) with
    | none => exact .inr (.inl ⟨rfl, rfl, rfl⟩)
    | some b => exact .inr (.inr ⟨b, rfl, rfl, rfl⟩)

/-! ### Symbol decoding -/

/-- The slow scan stops at the first length whose MAXCODE is above the 16 bits, or after the last length. -/
theorem findLength_spec (h : HuffTable) (x : Word) (n i : Nat) :
    i ≤ findLength h x n i ∧ findLength h x n i ≤ i + n ∧
      (∀ j, i ≤ j → j < findLength h x n i → ¬ x < h.maxcodeAt j) ∧
      (findLength h x n i < i + n → x < h.maxcodeAt (findLength h x n i)) := by
  induction n generalizing i with
  | zero => simp only [findLength]; exact ⟨by omega, by omega, by omega, by omega⟩
  | succ n ih =>
    rw [findLength]
    split
    · rename_i hx; exact ⟨by omega, by omega, by omega, fun _ => hx⟩
    · rename_i hx
      obtain ⟨h1, h2, h3, h4⟩ := ih (i + 1)
      refine ⟨by omega, by omega, fun j hj hlt => ?_, fun hlt => h4 (by omega)⟩
      by_cases e : j = i
      · subst e; exact hx
      · exact h3 j (by omega) hlt

/-- `t` differs from `s` at most in RES and the bit reader's fields. -/
def SameButReaderRes (s t : State) : Prop :=
  t = { s with res := t.res, acc := t.acc, cnt := t.cnt, ipos := t.ipos, hitend := t.hitend }

theorem SameButReader.withRes {s t : State} (h : SameButReader s t) : SameButReaderRes s t := by
  unfold SameButReader at h
  unfold SameButReaderRes
  conv_lhs => rw [h]
  rw [h]

/-- Decoding a symbol from buffered bits: it consumes some number of bits that are there and writes RES, or it raises
HUFF_BAD_CODE and changes nothing. -/
theorem decodeSymbol_cases (h : HuffTable) (s : State) :
    (∃ n b, n ≤ s.cnt ∧ decodeSymbol h s = .done () (consume n (s.setRes (BitVec.setWidth 32 b)))
      ∧ ∃ k, b = h.symbolAt k) ∨
    decodeSymbol h s = .raised .huffBadCode s := by
  unfold decodeSymbol
  simp only
  split
  · rename_i hf; exact .inl ⟨_, _, hf.2, rfl, _, rfl⟩
  · unfold slowDecode
    simp only
    split
    · exact .inr rfl
    · split
      · exact .inr rfl
      · split
        · exact .inr rfl
        · rename_i _ hc _; exact .inl ⟨_, _, by omega, rfl, _, rfl⟩

end Sys2Proof.Machine
end

