-- ==== Sys2Proof/Laws/Memory.lean ====
section
/-! SUPPORT. The data memory: read after write, the canonical form is kept, and what a run of byte writes does. -/

namespace Sys2Proof.Machine

open Sys2Proof

theorem Memory.lookup_insertCell (a : Nat) (b : Byte) (x : Nat) (cs : List Host.Cell)
    (fresh : ∀ c ∈ cs, c.1 ≠ a) :
    Memory.lookup x (Memory.insertCell a b cs) = if x = a then b else Memory.lookup x cs := by
  induction cs with
  | nil => simp [Memory.insertCell, Memory.lookup]
  | cons c rest ih =>
    obtain ⟨k, v⟩ := c
    have hk : k ≠ a := fresh (k, v) (by simp)
    have ih := ih fun c hc => fresh c (by simp [hc])
    by_cases h : a < k
    · simp [Memory.insertCell, Memory.lookup, h]
    · simp only [Memory.insertCell, h, if_false, Memory.lookup, ih]
      by_cases hx : x = k
      · subst hx; simp [hk]
      · simp [hx]

theorem Memory.lookup_filter (a x : Nat) (cs : List Host.Cell) :
    Memory.lookup x (cs.filter fun c => c.1 != a) = if x = a then Memory.blank else Memory.lookup x cs := by
  induction cs with
  | nil => simp [Memory.lookup]
  | cons c rest ih =>
    obtain ⟨k, v⟩ := c
    by_cases h : k = a
    · subst h
      simp only [List.filter, bne_self_eq_false, ih, Memory.lookup]
      by_cases hx : x = k <;> simp [hx]
    · have hb : (k != a) = true := by simp [h]
      simp only [List.filter, hb, Memory.lookup, ih]
      by_cases hx : x = k
      · subst hx; simp [h]
      · simp [hx]

/-- Read after write. -/
theorem Memory.read_write (m : Memory) (a : Nat) (b : Byte) (x : Nat) :
    (m.write a b).read x = if x = a then b else m.read x := by
  unfold Memory.write Memory.read
  by_cases hb : b = Memory.blank
  · simp [hb, Memory.lookup_filter]
  · simp only [hb, if_false]
    rw [Memory.lookup_insertCell, Memory.lookup_filter]
    · by_cases hx : x = a <;> simp [hx]
    · intro c hc
      have := (List.mem_filter.1 hc).2
      simpa using this

@[simp] theorem Memory.read_write_same (m : Memory) (a : Nat) (b : Byte) : (m.write a b).read a = b := by
  simp [Memory.read_write]

theorem Memory.read_write_ne (m : Memory) (a : Nat) (b : Byte) (x : Nat) (h : x ≠ a) :
    (m.write a b).read x = m.read x := by
  simp [Memory.read_write, h]

/-- A run of writes leaves every address it does not name alone. -/
theorem Memory.read_fill_ne (m : Memory) (addr : Nat → Nat) (val : Nat → Byte) (n x : Nat)
    (h : ∀ j, j < n → addr j ≠ x) : (m.fill addr val n).read x = m.read x := by
  induction n with
  | zero => rfl
  | succ n ih =>
    rw [Memory.fill, Memory.read_write_ne _ _ _ _ (Ne.symm (h n (by omega)))]
    exact ih fun j hj => h j (by omega)

/-- A run of writes to different addresses leaves each value at its address. -/
theorem Memory.read_fill_at (m : Memory) (addr : Nat → Nat) (val : Nat → Byte) (n j : Nat) (hj : j < n)
    (inj : ∀ i k, i < n → k < n → addr i = addr k → i = k) : (m.fill addr val n).read (addr j) = val j := by
  induction n with
  | zero => omega
  | succ n ih =>
    rw [Memory.fill, Memory.read_write]
    by_cases h : addr j = addr n
    · have : j = n := inj j n hj (by omega) h
      simp [this]
    · have : j ≠ n := fun e => h (by rw [e])
      simp only [h, if_false]
      exact ih (by omega) fun i k hi hk => inj i k (by omega) (by omega)

/-! ### The canonical form -/

theorem Memory.rising_iff (cs : List Host.Cell) :
    Memory.rising cs = true ↔ cs.Pairwise fun c d => c.1 < d.1 := by
  induction cs with
  | nil => simp [Memory.rising]
  | cons c rest ih =>
    cases rest with
    | nil => simp [Memory.rising]
    | cons d rest =>
      simp only [Memory.rising, Bool.and_eq_true, decide_eq_true_eq, ih]
      constructor
      · rintro ⟨h, p⟩
        refine List.Pairwise.cons ?_ p
        intro e he
        rcases List.mem_cons.1 he with rfl | he
        · exact h
        · exact Nat.lt_trans h (List.rel_of_pairwise_cons p he)
      · intro p
        exact ⟨List.rel_of_pairwise_cons p (by simp), List.Pairwise.of_cons p⟩

theorem Memory.mem_insertCell (a : Nat) (b : Byte) (cs : List Host.Cell) (c : Host.Cell)
    (h : c ∈ Memory.insertCell a b cs) : c = (a, b) ∨ c ∈ cs := by
  induction cs with
  | nil => simpa [Memory.insertCell] using h
  | cons d rest ih =>
    obtain ⟨k, v⟩ := d
    unfold Memory.insertCell at h
    split at h
    · rcases List.mem_cons.1 h with h | h
      · exact .inl h
      · exact .inr h
    · rcases List.mem_cons.1 h with h | h
      · exact .inr (by simp [h])
      · rcases ih h with h | h
        · exact .inl h
        · exact .inr (by simp [h])

theorem Memory.insertCell_rising (a : Nat) (b : Byte) (cs : List Host.Cell) (fresh : ∀ c ∈ cs, c.1 ≠ a)
    (p : cs.Pairwise fun c d => c.1 < d.1) :
    (Memory.insertCell a b cs).Pairwise fun c d => c.1 < d.1 := by
  induction cs with
  | nil => simp [Memory.insertCell]
  | cons d rest ih =>
    obtain ⟨k, v⟩ := d
    have hk : k ≠ a := fresh (k, v) (by simp)
    unfold Memory.insertCell
    split
    · rename_i h
      refine List.Pairwise.cons ?_ p
      intro e he
      rcases List.mem_cons.1 he with rfl | he
      · exact h
      · exact Nat.lt_trans h (List.rel_of_pairwise_cons p he)
    · rename_i h
      refine List.Pairwise.cons ?_ (ih (fun c hc => fresh c (by simp [hc])) p.of_cons)
      intro e he
      rcases Memory.mem_insertCell a b rest e he with rfl | he
      · exact Nat.lt_of_le_of_ne (Nat.le_of_not_lt h) hk
      · exact List.rel_of_pairwise_cons p he

/-- A write keeps the canonical form. -/
theorem Memory.write_wf (m : Memory) (a : Nat) (b : Byte) (h : m.wf = true) : (m.write a b).wf = true := by
  simp only [Memory.wf, Bool.and_eq_true, Memory.rising_iff, List.all_eq_true] at h ⊢
  obtain ⟨p, nb⟩ := h
  have pf : (m.cells.filter fun c => c.1 != a).Pairwise fun c d => c.1 < d.1 := p.filter _
  have nbf : ∀ c ∈ m.cells.filter fun c => c.1 != a, (c.2 != Memory.blank) = true :=
    fun c hc => nb c (List.mem_filter.1 hc).1
  by_cases hb : b = Memory.blank
  · simp only [Memory.write, hb, if_true]
    exact ⟨pf, nbf⟩
  · simp only [Memory.write, hb, if_false]
    refine ⟨Memory.insertCell_rising _ _ _ (fun c hc => by simpa using (List.mem_filter.1 hc).2) pf, ?_⟩
    intro c hc
    rcases Memory.mem_insertCell _ _ _ _ hc with rfl | hc
    · simpa using hb
    · exact nbf c hc

/-- A write below `size` lists no address at or past `size`. -/
theorem Memory.write_below (m : Memory) (a : Nat) (b : Byte) (size : Nat) (h : m.below size = true)
    (ha : a < size) : (m.write a b).below size = true := by
  simp only [Memory.below, List.all_eq_true, decide_eq_true_eq] at h ⊢
  intro c hc
  by_cases hb : b = Memory.blank
  · simp only [Memory.write, hb, if_true] at hc
    exact h c (List.mem_filter.1 hc).1
  · simp only [Memory.write, hb, if_false] at hc
    rcases Memory.mem_insertCell _ _ _ _ hc with rfl | hc
    · exact ha
    · exact h c (List.mem_filter.1 hc).1

/-- A run of writes keeps the canonical form. -/
theorem Memory.fill_wf (m : Memory) (addr : Nat → Nat) (val : Nat → Byte) (n : Nat) (h : m.wf = true) :
    (m.fill addr val n).wf = true := by
  induction n with
  | zero => exact h
  | succ n ih => exact Memory.write_wf _ _ _ ih

/-- A run of writes below `size` lists no address at or past `size`. -/
theorem Memory.fill_below (m : Memory) (addr : Nat → Nat) (val : Nat → Byte) (n size : Nat)
    (h : m.below size = true) (ha : ∀ j, j < n → addr j < size) : (m.fill addr val n).below size = true := by
  induction n with
  | zero => exact h
  | succ n ih => exact Memory.write_below _ _ _ _ (ih fun j hj => ha j (by omega)) (ha n (by omega))

/-! ### Writes to the addresses that exist -/

/-- What `fillBelow` does at one address: the last write there that exists, or nothing. -/
theorem Memory.read_fillBelow_ne (m : Memory) (size : Nat) (addr : Nat → Nat) (val : Nat → Byte) (n x : Nat)
    (h : ∀ j, j < n → addr j ≠ x) : (m.fillBelow size addr val n).read x = m.read x := by
  induction n with
  | zero => rfl
  | succ n ih =>
    have rest := ih fun j hj => h j (by omega)
    simp only [Memory.fillBelow]
    split
    · rw [Memory.read_write_ne _ _ _ _ (Ne.symm (h n (by omega))), rest]
    · exact rest

/-- Where every write has a value that its address alone gives, an address that exists and is written holds it. -/
theorem Memory.read_fillBelow_at (m : Memory) (size : Nat) (addr : Nat → Nat) (f : Nat → Byte) (n j : Nat)
    (hj : j < n) (hs : addr j < size) : (m.fillBelow size addr (fun k => f (addr k)) n).read (addr j) = f (addr j) := by
  induction n with
  | zero => omega
  | succ n ih =>
    simp only [Memory.fillBelow]
    by_cases e : addr n = addr j
    · rw [e, if_pos hs, Memory.read_write_same]
    · have rest := ih (by rcases Nat.lt_succ_iff_lt_or_eq.1 hj with h | h; exact h; exact absurd (by rw [h]) e)
      split
      · rw [Memory.read_write_ne _ _ _ _ (Ne.symm e), rest]
      · exact rest

theorem Memory.fillBelow_wf (m : Memory) (size : Nat) (addr : Nat → Nat) (val : Nat → Byte) (n : Nat)
    (h : m.wf = true) : (m.fillBelow size addr val n).wf = true := by
  induction n with
  | zero => exact h
  | succ n ih =>
    simp only [Memory.fillBelow]
    split
    · exact Memory.write_wf _ _ _ ih
    · exact ih

theorem Memory.fillBelow_below (m : Memory) (size : Nat) (addr : Nat → Nat) (val : Nat → Byte) (n : Nat)
    (h : m.below size = true) : (m.fillBelow size addr val n).below size = true := by
  induction n with
  | zero => exact h
  | succ n ih =>
    simp only [Memory.fillBelow]
    split
    · rename_i hn; exact Memory.write_below _ _ _ _ ih hn
    · exact ih

/-- An address below every listed one reads as the blank byte. -/
theorem Memory.lookup_of_lt (a : Nat) (cs : List Host.Cell) (h : ∀ c ∈ cs, a < c.1) :
    Memory.lookup a cs = Memory.blank := by
  induction cs with
  | nil => rfl
  | cons c rest ih =>
    obtain ⟨k, v⟩ := c
    have : a < k := h (k, v) (by simp)
    rw [Memory.lookup, if_neg (by omega)]
    exact ih fun c hc => h c (by simp [hc])

end Sys2Proof.Machine
end

