-- ==== Sys2Proof/Laws/Commands.lean ====
section
/-! SUPPORT. What a whole command can do: the inversions of its ways to end, and the addresses of its write set. -/

namespace Sys2Proof.Machine

open Sys2Proof

/-! ### Commands with field N -/

theorem widthCheck_eq (n : Nat) : widthCheck n = if 16 < n then some .badWidth else none := by
  by_cases h : 16 < n <;> simp [widthCheck, firstFailing_cons, h]

/-- A width above 16 raises BAD_WIDTH before anything else happens (R82). -/
theorem withWidth_wide (n : Nat) (body : State → Eff Word) (s : State) (h : 16 < n) :
    withWidth n body s = .next (takeFault .badWidth s) := by
  simp [withWidth, widthCheck_eq, h]

/-- Width 0 writes 0 to RES and nothing else. -/
theorem withWidth_zero (body : State → Eff Word) (s : State) :
    withWidth 0 body s = .next (complete (s.setRes 0)) := by
  simp [withWidth, widthCheck_eq]

/-- Widths 1..16 run the body and write its result to RES. -/
theorem withWidth_body (n : Nat) (body : State → Eff Word) (s : State) (h1 : 1 ≤ n) (h2 : n ≤ 16) :
    withWidth n body s = ((body s).andThen fun v s1 => .done () (s1.setRes v)).finish := by
  simp [withWidth, widthCheck_eq, show ¬16 < n by omega, show n ≠ 0 by omega]

/-! ### Write sets lie inside the data memory -/

theorem hullsMeet_false (lo1 hi1 lo2 hi2 : Nat) : hullsMeet lo1 hi1 lo2 hi2 = false ↔ hi2 < lo1 ∨ hi1 < lo2 := by
  simp only [hullsMeet, Bool.and_eq_false_iff, decide_eq_false_iff_not]
  omega

theorem outOfRange_false (s : State) (hi : Nat) : outOfRange s hi = false ↔ hi < s.params.memSize := by
  simp [outOfRange]

/-- What the checks of IDCT say when they pass (R163). -/
theorem idctCheck_none (t : Fin 4) (s : State) :
    idctCheck t s = none ↔
      (s.quant t).qvalid = true ∧ 8 ≤ s.arg 2 ∧ s.arg 0 + 127 < s.params.memSize ∧
        s.arg 1 + 7 * s.arg 2 + 7 < s.params.memSize ∧
        (s.arg 1 + 7 * s.arg 2 + 7 < s.arg 0 ∨ s.arg 0 + 127 < s.arg 1) := by
  rw [idctCheck, firstFailing_none]
  simp only [List.mem_cons, List.not_mem_nil, or_false, forall_eq_or_imp, forall_eq, Bool.not_eq_false',
    decide_eq_false_iff_not, Bool.or_eq_false_iff, outOfRange_false, hullsMeet_false]
  constructor
  · rintro ⟨h1, h2, ⟨h3, h4⟩, h5⟩; exact ⟨h1, by omega, h3, h4, h5⟩
  · rintro ⟨h1, h2, h3, h4, h5⟩; exact ⟨h1, by omega, ⟨h3, h4⟩, h5⟩

/-- What the checks of UPX and UPY say when they pass (R190). -/
theorem upsCheck_none (s : State) :
    upsCheck s = none ↔
      (1 ≤ s.arg 2 ∧ s.arg 2 ≤ 65536 ∧ 1 ≤ s.arg 3 ∧ s.arg 3 ≤ 65536) ∧
        s.arg 0 + upsCount s - 1 < s.params.memSize ∧ s.arg 1 + 2 * upsCount s - 1 < s.params.memSize ∧
        (s.arg 1 + 2 * upsCount s - 1 < s.arg 0 ∨ s.arg 0 + upsCount s - 1 < s.arg 1) := by
  rw [upsCheck, firstFailing_none]
  simp only [List.mem_cons, List.not_mem_nil, or_false, forall_eq_or_imp, forall_eq,
    decide_eq_false_iff_not, Bool.or_eq_false_iff, outOfRange_false, hullsMeet_false]
  constructor
  · rintro ⟨⟨⟨⟨h1, h2⟩, h3⟩, h4⟩, ⟨h5, h6⟩, h7⟩
    exact ⟨⟨by omega, by omega, by omega, by omega⟩, h5, h6, h7⟩
  · rintro ⟨⟨h1, h2, h3, h4⟩, h5, h6, h7⟩
    exact ⟨⟨⟨⟨by omega, by omega⟩, by omega⟩, by omega⟩, ⟨h5, h6⟩, h7⟩

/-- What the checks of the colour commands say when they pass (R210). -/
theorem colorCheck_none (planes : List Nat) (s : State) :
    colorCheck planes s = none ↔
      (1 ≤ s.arg 5 ∧ s.arg 5 ≤ 65535 ∧ 1 ≤ s.arg 6 ∧ s.arg 6 ≤ 65535 ∧ s.arg 5 ≤ s.arg 3) ∧
        (∀ p ∈ planes, planeLast s p < s.params.memSize) ∧ s.arg 4 + rgbaCount s - 1 < s.params.memSize ∧
        (∀ p ∈ planes, s.arg 4 + rgbaCount s - 1 < p ∨ planeLast s p < s.arg 4) := by
  rw [colorCheck, firstFailing_none]
  simp only [List.mem_cons, List.not_mem_nil, or_false, forall_eq_or_imp, forall_eq,
    decide_eq_false_iff_not, Bool.or_eq_false_iff, outOfRange_false, hullsMeet_false, List.any_eq_false,
    Bool.not_eq_true]
  constructor
  · rintro ⟨⟨⟨⟨⟨h1, h2⟩, h3⟩, h4⟩, h5⟩, ⟨h6, h7⟩, h8⟩
    exact ⟨⟨by omega, by omega, by omega, by omega, by omega⟩, h6, h7, h8⟩
  · rintro ⟨⟨h1, h2, h3, h4, h5⟩, h6, h7, h8⟩
    exact ⟨⟨⟨⟨⟨by omega, by omega⟩, by omega⟩, by omega⟩, by omega⟩, ⟨h6, h7⟩, h8⟩

/-- The destination samples of IDCT are at different addresses: S ≥ 8 keeps the rows apart (R71). -/
theorem idctAddr_inj (s : State) (h : 8 ≤ s.arg 2) (i j : Nat) (e : idctAddr s i = idctAddr s j) : i = j := by
  unfold idctAddr at e
  have hi := Nat.div_add_mod i 8
  have hj := Nat.div_add_mod j 8
  have li := Nat.mod_lt i (show 0 < 8 by omega)
  have lj := Nat.mod_lt j (show 0 < 8 by omega)
  rcases Nat.lt_trichotomy (i / 8) (j / 8) with lt | eq | lt
  · have : (i / 8 + 1) * s.arg 2 ≤ j / 8 * s.arg 2 := Nat.mul_le_mul_right _ lt
    rw [Nat.add_mul] at this
    omega
  · rw [eq] at e hi; omega
  · have : (j / 8 + 1) * s.arg 2 ≤ i / 8 * s.arg 2 := Nat.mul_le_mul_right _ lt
    rw [Nat.add_mul] at this
    omega

/-- The destination samples of IDCT lie in the write hull of R163. -/
theorem idctAddr_le (s : State) (j : Nat) (h : j < 64) : idctAddr s j ≤ s.arg 1 + 7 * s.arg 2 + 7 := by
  unfold idctAddr
  have : j / 8 * s.arg 2 ≤ 7 * s.arg 2 := Nat.mul_le_mul_right _ (by omega)
  omega

/-- Every byte of the write set of a command whose checks pass exists (R64). -/
theorem idctAddr_in_memory (t : Fin 4) (s : State) (h : idctCheck t s = none) (j : Nat) (hj : j < 64) :
    idctAddr s j < s.params.memSize := by
  obtain ⟨_, _, _, h4, _⟩ := (idctCheck_none t s).1 h
  have := idctAddr_le s j hj
  omega

theorem upsAddr_in_memory (s : State) (h : upsCheck s = none) (j : Nat) (hj : j < 2 * upsCount s) :
    upsAddr s j < s.params.memSize := by
  obtain ⟨_, _, h2, _⟩ := (upsCheck_none s).1 h
  unfold upsAddr
  omega

theorem rgbaAddr_in_memory (planes : List Nat) (s : State) (h : colorCheck planes s = none) (j : Nat)
    (hj : j < rgbaCount s) : rgbaAddr s j < s.params.memSize := by
  obtain ⟨_, _, h2, _⟩ := (colorCheck_none _ s).1 h
  unfold rgbaAddr
  omega

end Sys2Proof.Machine
end

