-- ==== Sys2Proof/Laws/HostPort.lean ====
section
/-! SUPPORT. The host port: what the stopping of a running command can change, and the cases of an access. -/

namespace Sys2Proof.Machine

open Sys2Proof

/-- Stopping a command changes no register but the free ones: the parameters, the protocol fields, CMD, the arguments,
memory and the environment stay. -/
theorem freeWrittenRegisters_frame (i : Instr) (s : State) :
    freeWrittenRegisters i s =
      { s with
        res := (freeWrittenRegisters i s).res
        ipos := (freeWrittenRegisters i s).ipos
        iend := (freeWrittenRegisters i s).iend
        acc := (freeWrittenRegisters i s).acc
        cnt := (freeWrittenRegisters i s).cnt
        hitend := (freeWrittenRegisters i s).hitend
        ht := (freeWrittenRegisters i s).ht
        qt := (freeWrittenRegisters i s).qt } := by
  cases i <;> rfl

theorem disturbRegisters_frame (s : State) :
    disturbRegisters s =
      { s with
        res := (disturbRegisters s).res
        ipos := (disturbRegisters s).ipos
        iend := (disturbRegisters s).iend
        acc := (disturbRegisters s).acc
        cnt := (disturbRegisters s).cnt
        hitend := (disturbRegisters s).hitend
        ht := (disturbRegisters s).ht
        qt := (disturbRegisters s).qt
        draws := (disturbRegisters s).draws } := by
  unfold disturbRegisters
  split
  · split
    · rename_i i _; rw [freeWrittenRegisters_frame i s]
    · rfl
  · rfl

/-- A free CNT is in its range (R31). -/
theorem freeWrittenRegisters_cnt (i : Instr) (s : State) (h : s.cnt ≤ 32) : (freeWrittenRegisters i s).cnt ≤ 32 := by
  cases i <;>
    simp only [freeWrittenRegisters, State.freeReader, State.freeAccumulator, State.freeRes, setHuff_cnt,
      setQuant_cnt] <;> omega

/-- With no command running nothing is disturbed. -/
@[simp] theorem disturbRegisters_idle (s : State) (h : s.busy = false) : disturbRegisters s = s := by
  simp [disturbRegisters, h]

@[simp] theorem disturbMemory_idle (s : State) (h : s.busy = false) : disturbMemory s = s := by
  simp [disturbMemory, h]

/-- The stopping of a command changes no field but memory and the count of draws. -/
theorem disturbMemory_frame (s : State) :
    disturbMemory s = { s with mem := (disturbMemory s).mem, draws := (disturbMemory s).draws } := by
  unfold disturbMemory
  split
  · split
    · rfl
    · rfl
  · rfl

/-- A byte outside the write set of a command keeps its value when the command is stopped. -/
theorem freeWrittenMemory_read (i : Instr) (s : State) (a : Nat)
    (h : ∀ j, j < writeCount i s → writeAddr i s j ≠ a) : (freeWrittenMemory i s).mem.read a = s.mem.read a := by
  exact Memory.read_fillBelow_ne _ _ _ _ _ _ h

/-- A byte of its write set that exists is free. -/
theorem freeWrittenMemory_free (i : Instr) (s : State) (j : Nat) (hj : j < writeCount i s)
    (hs : writeAddr i s j < s.params.memSize) :
    (freeWrittenMemory i s).mem.read (writeAddr i s j) = freeByte s.draws (writeAddr i s j) :=
  Memory.read_fillBelow_at _ _ _ (freeByte s.draws) _ _ hj hs

theorem disturbMemory_read (s : State) (i : Instr) (hd : decode s.cmd = .ok i) (a : Nat)
    (h : ∀ j, j < writeCount i s → writeAddr i s j ≠ a) : (disturbMemory s).mem.read a = s.mem.read a := by
  unfold disturbMemory
  split
  · rw [hd]; exact freeWrittenMemory_read i s a h
  · rfl

/-- The stopping of a command keeps memory canonical, and inside the data memory. -/
theorem disturbMemory_memoryOk (s : State) (h : memoryOk s) : memoryOk (disturbMemory s) := by
  obtain ⟨h1, h2, h3⟩ := h
  unfold disturbMemory
  split
  · split
    · rename_i i _
      exact ⟨h1, Memory.fillBelow_wf _ _ _ _ _ h2, Memory.fillBelow_below _ _ _ _ _ h3⟩
    · exact ⟨h1, h2, h3⟩
  · exact ⟨h1, h2, h3⟩

/-- The ways a host access to the data memory ends. -/
theorem hostMemory_next (a : Nat) (access : State → State) (s t : State) (h : hostMemory a access s = .next t) :
    a < s.params.memSize ∧ memoryHazardAt a s = false ∧ t = access s := by
  unfold hostMemory at h
  split at h
  · simp at h
  · split at h
    · simp at h
    · rename_i h1 h2
      exact ⟨by omega, by simpa using h2, by simpa using h.symm⟩

/-- The cases of one step. -/
theorem step_cases (s : State) :
    (s.inbox = [] ∧ s.busy = false ∧ step s = .next s) ∨
    (s.busy = true ∧ (∀ e rest, s.inbox = e :: rest → e.early = false) ∧ step s = runCommand s) ∨
    (∃ e rest, s.inbox = e :: rest ∧ (s.busy = true → e.early = true) ∧
      step s = hostAct e.action { s with inbox := rest }) := by
  unfold step
  cases hi : s.inbox with
  | nil =>
    cases hb : s.busy with
    | false => exact .inl ⟨rfl, rfl, rfl⟩
    | true => exact .inr (.inl ⟨rfl, by simp, rfl⟩)
  | cons e rest =>
    cases hb : s.busy with
    | false => exact .inr (.inr ⟨e, rest, rfl, by simp, by simp⟩)
    | true =>
      cases he : e.early with
      | false => exact .inr (.inl ⟨rfl, by rintro e' r' h; simp at h; rw [← h.1, he], by simp [he]⟩)
      | true => exact .inr (.inr ⟨e, rest, rfl, fun _ => he, by simp [he]⟩)

end Sys2Proof.Machine
end

