-- ==== Sys2Proof/Laws/Idct.lean ====
section
/-! SUPPORT. Supplied kernels: the data form of IDCT_KERNEL leaves no function out (spec/42_idct.md R170). -/

namespace Sys2Proof.Machine

open Sys2Proof
open Sys2Proof.Config (Oct KernelTerm SuppliedKernel)

/-- The term that is `yes` at the inputs `v` and `no` elsewhere. -/
def atInputs (v : Oct) (yes no : KernelTerm) : KernelTerm :=
  (List.finRange 8).foldr (fun k rest => .ifZero (.xor (.input k) (.const (octGet v k.val))) rest no) yes

theorem kernelTermValue_atInputs (s v : Oct) (yes no : KernelTerm) :
    kernelTermValue s (atInputs v yes no) = if s = v then kernelTermValue s yes else kernelTermValue s no := by
  have chain : ∀ ks : List (Fin 8),
      kernelTermValue s
          (ks.foldr (fun k rest => .ifZero (.xor (.input k) (.const (octGet v k.val))) rest no) yes) =
        if ∀ k ∈ ks, octGet s k.val = octGet v k.val then kernelTermValue s yes else kernelTermValue s no := by
    intro ks
    induction ks with
    | nil => simp
    | cons k ks ih =>
      simp only [List.foldr_cons, kernelTermValue, ih, List.forall_mem_cons]
      by_cases h : octGet s k.val = octGet v k.val <;> simp [h]
  have same : (∀ k ∈ List.finRange 8, octGet s k.val = octGet v k.val) ↔ s = v := by
    constructor
    · intro h
      obtain ⟨s0, s1, s2, s3, s4, s5, s6, s7⟩ := s
      obtain ⟨v0, v1, v2, v3, v4, v5, v6, v7⟩ := v
      have g := fun k => h k (List.mem_finRange k)
      simpa [octGet] using And.intro (g 0) (And.intro (g 1) (And.intro (g 2) (And.intro (g 3)
        (And.intro (g 4) (And.intro (g 5) (And.intro (g 6) (g 7)))))))
    · rintro rfl _ _
      rfl
  rw [atInputs, chain]
  simp only [same]

/-- One function from eight words to a word as a term: its values one by one. -/
theorem kernelTerm_is_any_function (f : Oct → Word) : ∃ e : KernelTerm, ∀ s, kernelTermValue s e = f s := by
  have tupled : Function.Injective fun (s : Oct) (k : Fin 8) => (octGet s k.val).toFin := by
    intro s v h
    obtain ⟨s0, s1, s2, s3, s4, s5, s6, s7⟩ := s
    obtain ⟨v0, v1, v2, v3, v4, v5, v6, v7⟩ := v
    have g := fun k : Fin 8 => BitVec.toFin_inj.1 (congrFun h k)
    simpa [octGet] using And.intro (g 0) (And.intro (g 1) (And.intro (g 2) (And.intro (g 3)
      (And.intro (g 4) (And.intro (g 5) (And.intro (g 6) (g 7)))))))
  have : Finite Oct := Finite.of_injective _ tupled
  obtain ⟨all, -, mem⟩ := Finite.exists_univ_list Oct
  suffices ∀ l : List Oct, ∃ e : KernelTerm, ∀ s ∈ l, kernelTermValue s e = f s by
    obtain ⟨e, he⟩ := this all
    exact ⟨e, fun s => he s (mem s)⟩
  intro l
  induction l with
  | nil => exact ⟨.const 0, by simp⟩
  | cons v l ih =>
    obtain ⟨e, he⟩ := ih
    refine ⟨atInputs v (.const (f v)) e, fun s hs => ?_⟩
    rw [kernelTermValue_atInputs]
    split
    · rename_i h; rw [h]; rfl
    · rename_i h; exact he s ((List.mem_cons.1 hs).resolve_left h)

/-- Every total function of the signature of R170 is a supplied kernel. -/
theorem supplied_kernel_is_any_function (f : Oct → Oct) : ∃ k : SuppliedKernel, ∀ s, runKernel k s = f s := by
  choose e he using fun r : Nat => kernelTerm_is_any_function fun s => octGet (f s) r
  exact ⟨⟨e 0, e 1, e 2, e 3, e 4, e 5, e 6, e 7⟩, fun s => by simp [runKernel, he, octGet]⟩

/-- Every kernel that has the DC property of R172 is IDCT_KERNEL for some value of the parameter. -/
theorem kernel_parameter_is_any_kernel (p : Config.Params) (f : Oct → Oct)
    (dc : ∀ s, dcOnly s = true → f s = octSplat (4096#32 * s.e0)) :
    ∃ k, ∀ s, idctKernel { p with kernel := .supplied k } s = f s := by
  obtain ⟨k, hk⟩ := supplied_kernel_is_any_function f
  refine ⟨k, fun s => ?_⟩
  simp only [idctKernel]
  split
  · rename_i h; exact (dc s h).symm
  · exact hk s

end Sys2Proof.Machine
end

