-- ==== Sys2Proof/Laws/PerInstr.lean ====
section
/-! SUPPORT. Per-command facts about the encoder: the word of a well-formed command has the opcode of R84 in bits 7:0
and zeros in bits 31:16 (spec/30_encoding.md R80). -/

namespace Sys2Proof.Laws.EncodedFields

open Sys2Proof

/-- The opcode of R84. -/
def opcode : Instr → Byte
  | .brinit => 0x01
  | .brreset => 0x02
  | .refill => 0x03
  | .peek _ => 0x04
  | .getbits _ => 0x05
  | .recext _ => 0x06
  | .rstsync => 0x07
  | .hbuild _ _ => 0x10
  | .hdec _ _ => 0x11
  | .qload _ => 0x20
  | .idct _ => 0x21
  | .upx => 0x30
  | .upy => 0x31
  | .ycc2rgba => 0x40
  | .gray2rgba => 0x41

/-- Bits 7:0 of the encoded word are the opcode and bits 31:16 are 0. -/
abbrev FieldsRight (i : Instr) : Prop :=
  (encode i).extractLsb' 0 8 = opcode i ∧ (encode i).extractLsb' 16 16 = 0

/-- The fields of a well-formed command's word are right. -/
def Statement (i : Instr) : Prop := i.wellFormed = true → FieldsRight i

/-- A fact about a width field, from its 32 cases. -/
theorem of_fin {P : Nat → Prop} (h : ∀ n : Fin 32, P n.val) (n : Nat) (w : widthEncodable n = true) : P n :=
  h ⟨n, by simpa [widthEncodable] using w⟩

theorem brinit : Statement .brinit := fun _ => by decide

theorem brreset : Statement .brreset := fun _ => by decide

theorem refill : Statement .refill := fun _ => by decide

theorem peek (n : Nat) : Statement (.peek n) :=
  of_fin (P := fun n => FieldsRight (.peek n)) (by decide) n

theorem getbits (n : Nat) : Statement (.getbits n) :=
  of_fin (P := fun n => FieldsRight (.getbits n)) (by decide) n

theorem recext (n : Nat) : Statement (.recext n) :=
  of_fin (P := fun n => FieldsRight (.recext n)) (by decide) n

theorem rstsync : Statement .rstsync := fun _ => by decide

theorem hbuild (c : HClass) (t : Fin 4) : Statement (.hbuild c t) := by
  intro _; revert t; cases c <;> decide

theorem hdec (c : HClass) (t : Fin 4) : Statement (.hdec c t) := by
  intro _; revert t; cases c <;> decide

theorem qload (t : Fin 4) : Statement (.qload t) := by
  intro _; revert t; decide

theorem idct (t : Fin 4) : Statement (.idct t) := by
  intro _; revert t; decide

theorem upx : Statement .upx := fun _ => by decide

theorem upy : Statement .upy := fun _ => by decide

theorem ycc2rgba : Statement .ycc2rgba := fun _ => by decide

theorem gray2rgba : Statement .gray2rgba := fun _ => by decide

end Sys2Proof.Laws.EncodedFields
end

