-- ==== Sys2Proof/Tests/Slice0.lean ====
section
/-! SUPPORT. The model's own tests: which terms are commands, the decoding of words written out from
spec/30_encoding.md, one step of each command with the result that the spec gives (its example or its vector of
spec/95_test_vectors.md), and for every statement of `Certificates/Slice0/Obligations.lean` a concrete case that meets
its hypotheses. -/

namespace Sys2Proof.Tests

open Sys2Proof Sys2Proof.Machine
open Sys2Proof.Config (Oct)

/-! ### Helpers -/

/-- The state after reset with argument registers ARG0, ARG1, ... and memory cells. -/
def machine (args : List Nat) (cells : List Host.Cell) : State :=
  { State.reset with
    args := Vector.ofFn fun k => BitVec.ofNat 32 (args.getD k.val 0)
    mem := ⟨cells⟩ }

/-- Bytes at consecutive addresses; a zero byte is not listed. -/
def bytes (a : Nat) (bs : List Nat) : List Host.Cell :=
  (bs.zipIdx.map fun p => (a + p.2, BitVec.ofNat 8 p.1)).filter fun c => c.2 != 0

/-- The reset machine with the stream `bs` at 0x100. -/
def stream (bs : List Nat) : State :=
  { machine [] (bytes 0x100 bs) with ipos := 0x100, iend := BitVec.ofNat 32 (0x100 + bs.length) }

/-- The machine with the accumulator holding `cnt` bits. -/
def withBits (acc : Word) (cnt : Nat) (s : State) : State := { s with acc := acc, cnt := cnt }

/-- The machine with a data memory of `n` bytes. -/
def withMemSize (n : Nat) (s : State) : State := { s with params := { s.params with memSize := n } }

/-- The outcome is a next state of which `p` holds. -/
def after (o : Host.Outcome State Fault Refusal) (p : State → Bool) : Bool :=
  match o with
  | .next t => p t
  | .fault _ => false
  | .refused _ => false

/-- The outcome is a next state with the fault `c` latched. -/
def faults (o : Host.Outcome State Fault Refusal) (c : FaultCode) : Bool := after o fun t => decide (t.fault = some c)

/-- The bytes of memory from `a` on. -/
def window (a n : Nat) (s : State) : List Nat := (List.range n).map fun j => (s.mem.read (a + j)).toNat

/-- The machine running the command word `w`, with one early action asked. -/
def running (w : Word) (a : HostAction) : State := { State.reset with cmd := w, busy := true, inbox := [⟨true, a⟩] }

/-- The idle machine with one action asked. -/
def asked (a : HostAction) : State := { State.reset with inbox := [⟨false, a⟩] }

/-- The idle machine with a latched fault and one action asked. -/
def faulted (a : HostAction) : State :=
  { State.reset with fault := some .badArgs, finfo := 1, cmd := 1, inbox := [⟨false, a⟩] }

/-! ### Which terms are commands -/

theorem test_peek_32_is_no_command : (Instr.peek 32).wellFormed = false := by decide
theorem test_getbits_32_is_no_command : (Instr.getbits 32).wellFormed = false := by decide
theorem test_recext_32_is_no_command : (Instr.recext 32).wellFormed = false := by decide
theorem test_width_31_is_encodable : (Instr.recext 31).wellFormed = true := by decide

/-! ### Words written out from R81 and R84: bits 31..16, N (5), T (2), C (1), OP (8) -/

theorem test_decode_brinit : decode 0b0000000000000000_00000_00_0_00000001#32 = .ok .brinit := by decide
theorem test_decode_brreset : decode 0b0000000000000000_00000_00_0_00000010#32 = .ok .brreset := by decide
theorem test_decode_refill : decode 0b0000000000000000_00000_00_0_00000011#32 = .ok .refill := by decide
theorem test_decode_peek : decode 0b0000000000000000_10000_00_0_00000100#32 = .ok (.peek 16) := by decide
theorem test_decode_getbits : decode 0b0000000000000000_00111_00_0_00000101#32 = .ok (.getbits 7) := by decide
theorem test_decode_recext : decode 0b0000000000000000_11111_00_0_00000110#32 = .ok (.recext 31) := by decide
theorem test_decode_rstsync : decode 0b0000000000000000_00000_00_0_00000111#32 = .ok .rstsync := by decide
theorem test_decode_hbuild : decode 0b0000000000000000_00000_01_0_00010000#32 = .ok (.hbuild .dc 1) := by decide
theorem test_decode_hdec : decode 0b0000000000000000_00000_10_1_00010001#32 = .ok (.hdec .ac 2) := by decide
theorem test_decode_qload : decode 0b0000000000000000_00000_11_0_00100000#32 = .ok (.qload 3) := by decide
theorem test_decode_idct : decode 0b0000000000000000_00000_01_0_00100001#32 = .ok (.idct 1) := by decide
theorem test_decode_upx : decode 0b0000000000000000_00000_00_0_00110000#32 = .ok .upx := by decide
theorem test_decode_upy : decode 0b0000000000000000_00000_00_0_00110001#32 = .ok .upy := by decide
theorem test_decode_ycc2rgba : decode 0b0000000000000000_00000_00_0_01000000#32 = .ok .ycc2rgba := by decide
theorem test_decode_gray2rgba : decode 0b0000000000000000_00000_00_0_01000001#32 = .ok .gray2rgba := by decide

/-- P5: opcode 0x08 is unassigned, bit 16 must be zero; and bit 8 is not a field of F_Q. -/
theorem test_decode_rejects :
    decode 0x00000008 = .error .unknownOpcode ∧ decode 0x00010001 = .error .mustBeZero ∧
      decode 0x00000121 = .error .mustBeZero := by decide

/-- The words of the examples of R87, assembled. -/
theorem test_encode_examples :
    encode (.hdec .ac 2) = 0x00000511 ∧ encode (.getbits 7) = 0x00003805 ∧ encode (.recext 16) = 0x00008006 ∧
      encode (.idct 3) = 0x00000621 ∧ encode (.hbuild .dc 0) = 0x00000010 := by decide

theorem test_fetch_runs_the_word :
    after (step (State.reset.withFetchWord 32 0x00000221)) (fun t =>
      decide (t.statusWord = 0x00000C02) && decide (t.finfo = 0x00000221)) = true := by decide

/-! ### One step of each command -/

/-- R101, its example. -/
theorem test_brinit :
    after (exec .brinit (machine [0x200, 0x210] [])) (fun t =>
      decide (t.ipos = 0x200) && decide (t.iend = 0x210) && decide (t.cnt = 0)) = true := by decide

/-- R102, its example. -/
theorem test_brreset :
    after (exec .brreset { withBits 0xFFF80000 13 State.reset with hitend := true }) (fun t =>
      decide (t.cnt = 0) && !t.hitend) = true := by decide

/-- R103, its example. -/
theorem test_refill :
    after (exec .refill (stream [0x12, 0x34, 0x56, 0x78])) (fun t =>
      decide (t.acc = 0x12345678) && decide (t.cnt = 32) && decide (t.ipos = 0x104)) = true := by decide

/-- R104: FF FF D9 stops with IPOS at the second FF. -/
theorem test_refill_marker :
    after (exec .refill (stream [0xFF, 0xFF, 0xD9])) (fun t =>
      decide (t.ipos = 0x101) && t.hitend && decide (t.cnt = 0)) = true := by decide

/-- R107, its example. -/
theorem test_peek :
    after (exec (.peek 3) (withBits 0xA0000000 3 State.reset)) (fun t =>
      decide (t.res = 5) && decide (t.cnt = 3)) = true := by decide

/-- R108, its example. -/
theorem test_getbits :
    after (exec (.getbits 4) (withBits 0xB4000000 8 State.reset)) (fun t =>
      decide (t.res = 0xB) && decide (t.acc = 0x40000000) && decide (t.cnt = 4)) = true := by decide

/-- R110, its example. -/
theorem test_recext :
    after (exec (.recext 3) (withBits 0x60000000 3 State.reset)) (fun t => decide (t.res = 0xFFFFFFFC)) = true := by
  decide

/-- R112, its example. -/
theorem test_rstsync :
    after (exec .rstsync { withBits 0x80000000 1 (stream [0xFF, 0xD3]) with hitend := true }) (fun t =>
      decide (t.res = 3) && decide (t.ipos = 0x102) && decide (t.cnt = 0) && !t.hitend) = true := by decide

/-- The input of the example of R131: two codes of length 2 and one of length 3. -/
def smallInput : State :=
  machine [0x400] (bytes 0x400 [0, 2, 1, 0, 0, 0, 0, 0, 0, 0, 0, 0, 0, 0, 0, 0, 5, 6, 7])

/-- R131, its example. -/
theorem test_hbuild :
    after (exec (.hbuild .dc 0) smallInput) (fun t =>
      let h := t.huff .dc 0
      h.hvalid && decide (h.code = [0, 1, 4]) && decide (h.deltaAt 3 = BitVec.ofInt 32 (-2))
        && decide (h.maxcodeAt 2 = 0x8000) && decide (h.maxcodeAt 3 = 0xA000)) = true := by decide +kernel

/-- Vector H9: code 2 does not fit one bit. -/
theorem test_hbuild_bad_table :
    faults (exec (.hbuild .dc 0) (machine [0x400] (bytes 0x400 [3]))) .huffBadTable = true := by decide +kernel

/-- The counts of `smallInput`. -/
def smallCounts : List Nat := [0, 2, 1, 0, 0, 0, 0, 0, 0, 0, 0, 0, 0, 0, 0, 0]

/-- Its code book, by the example of R131. -/
def smallBook : CodeBook where
  codes := [0, 1, 4]
  deltas := [0, 0, -2, -7, -17, -37, -77, -157, -317, -637, -1277, -2557, -5117, -10237, -20477, -40957]
  maxcodes := 0 :: 0x8000 :: List.replicate 14 0xA000

/-- Its table. -/
def smallTable : HuffTable := builtTable smallCounts [5, 6, 7] smallBook

theorem witness_smallTable_built : Built smallTable :=
  ⟨smallCounts, [5, 6, 7], smallBook, by decide, by decide, by decide, by decide, by decide, rfl⟩

/-- The machine with that table in HT[DC][0] and `cnt` bits buffered. -/
def smallDecoder (acc : Word) (cnt : Nat) : State := (withBits acc cnt State.reset).setHuff .dc 0 smallTable

theorem witness_smallDecoder (acc : Word) (cnt : Nat) : (smallDecoder acc cnt).huff .dc 0 = smallTable := by
  simp [smallDecoder]

/-- FAST[e] of that table. (The kernel evaluates one entry, not the 512 of the table.) -/
theorem smallTable_fast (e : Fin 512) :
    smallTable.fast.get e = BitVec.ofNat 8 (fastEntry [2, 2, 3] [0, 1, 4] 3 e.val) :=
  builtTable_fast smallCounts [5, 6, 7] smallBook e

/-- R140, its example. -/
theorem test_hdec :
    after (decodeSymbol smallTable (smallDecoder 0x90000000 32)).finish (fun t =>
      decide (t.res = 0x07) && decide (t.cnt = 29) && decide (t.acc = 0x80000000)) = true := by
  simp only [decodeSymbol, fastHit, smallTable_fast]
  decide

/-- What HDEC does on that table with 16 bits or more. -/
theorem test_hdec_runs (acc : Word) :
    exec (.hdec .dc 0) (smallDecoder acc 32) = (decodeSymbol smallTable (smallDecoder acc 32)).finish := by
  simp only [exec, execHdec, witness_smallDecoder]
  rw [if_pos (by rfl)]
  simp only [ensureBits, Eff.andThen]
  rw [if_neg (show ¬(smallDecoder acc 32).cnt < 16 by simp [smallDecoder, withBits])]
  simp only [witness_smallDecoder]

/-- R160: 64 bytes of 01. -/
theorem test_qload :
    after (exec (.qload 0) (machine [0x100] (bytes 0x100 (List.replicate 64 1)))) (fun t =>
      (t.quant 0).qvalid && decide ((t.quant 0).entry = Vector.replicate 64 1)) = true := by decide +kernel

/-- A machine with QT[0] all 1, the coefficient block at 0x1000 and the destination 0x2000 with stride 8. -/
def block (cells : List Host.Cell) : State :=
  (machine [0x1000, 0x2000, 8] cells).setQuant 0 ⟨true, Vector.replicate 64 1⟩

/-- Vector I2. -/
theorem test_idct_dc :
    after (exec (.idct 0) (block (bytes 0x1000 [16]))) (fun t =>
      decide (t.mem.read 0x2000 = 130) && decide (t.mem.read 0x203F = 130) && decide (t.mem.read 0x2040 = 0)) = true := by
  decide +kernel

/-- Vector I12 (with the default kernel): the first row. -/
theorem test_idct_kernel :
    ((List.range 8).map fun c =>
      (idctSample Config.Params.default (fun i => if i = 1 then 100 else 0) 0 c).toNat) =
      [145, 143, 138, 131, 125, 118, 113, 111] := by decide +kernel

/-- Vector U1. -/
theorem test_upx :
    after (exec .upx (machine [0x100, 0x200, 2, 1] (bytes 0x100 [0, 255]))) (fun t =>
      decide (window 0x200 5 t = [0, 64, 191, 255, 0])) = true := by decide +kernel

/-- Vector U3. -/
theorem test_upy :
    after (exec .upy (machine [0x100, 0x200, 1, 3] (bytes 0x100 [10, 20, 30]))) (fun t =>
      decide (window 0x200 6 t = [10, 13, 18, 23, 28, 30])) = true := by decide +kernel

/-- Vector K9: the green mask matters. -/
theorem test_ycc2rgba :
    after (exec .ycc2rgba (machine [0x100, 0x101, 0x102, 1, 0x200, 1, 1] (bytes 0x100 [100, 2, 34]))) (fun t =>
      decide (window 0x200 4 t = [0, 210, 0, 255])) = true := by decide +kernel

/-- Vector K11. -/
theorem test_gray2rgba :
    after (exec .gray2rgba (machine [0x100, 0, 0, 1, 0x200, 1, 1] (bytes 0x100 [77]))) (fun t =>
      decide (window 0x200 4 t = [77, 77, 77, 255])) = true := by decide +kernel

/-! ### Cases that meet the hypotheses of the statements

#### Command words and steps -/

theorem witness_DecodeOfEncode : (Instr.peek 31).wellFormed = true ∧ (Instr.peek 0).wellFormed = true := by decide

theorem witness_LegalWordsDecodeToTheirCommand : decode 0x00000711 = .ok (.hdec .ac 3) := by decide

theorem witness_commandTurn (n w : Nat) : commandTurn (State.reset.withFetchWord n w) :=
  ⟨rfl, fun _ _ h => by simp [State.withFetchWord] at h⟩

theorem witness_IllegalWordsRaiseIllegalCmd :
    commandTurn (State.reset.withFetchWord 32 0x00010001) ∧
      ¬ legalWord (State.reset.withFetchWord 32 0x00010001).cmd :=
  ⟨witness_commandTurn _ _, by unfold legalWord; decide⟩

theorem witness_StepRunsTheCommandInCmd :
    (commandTurn (State.reset.withFetchWord 32 0x00003805) ∧
        decode (State.reset.withFetchWord 32 0x00003805).cmd = .ok (.getbits 7)) ∧
      State.reset.busy = false ∧ State.reset.inbox = [] :=
  ⟨⟨witness_commandTurn _ _, by decide⟩, rfl, rfl⟩

/-- An action that waits for the end of the command leaves the command its turn. -/
theorem witness_commandTurn_late : commandTurn { running 1 .hardReset with inbox := [⟨false, .hardReset⟩] } :=
  ⟨rfl, fun e rest h => by simp at h; rw [← h.1]⟩

theorem witness_EveryCommandEnds :
    (stream [1, 2]).iend.toNat ≤ (stream [1, 2]).params.memSize ∧
      (∃ t, (stream [1, 2]).fault = none ∧ exec .brreset (stream [1, 2]) = .next t) ∧
      (withMemSize 2 { State.reset with iend := 2 }).iend.toNat ≤
        (withMemSize 2 { State.reset with iend := 2 }).params.memSize :=
  ⟨by decide, ⟨_, rfl, rfl⟩, by decide⟩

/-! #### Registers -/

theorem witness_actionTurn_asked (a : HostAction) : actionTurn (asked a) a [] := ⟨false, rfl, fun h => by cases h⟩

theorem witness_actionTurn_faulted (a : HostAction) : actionTurn (faulted a) a [] := ⟨false, rfl, fun h => by cases h⟩

theorem witness_actionTurn_running (w : Word) (a : HostAction) : actionTurn (running w a) a [] :=
  ⟨true, rfl, fun _ => rfl⟩

theorem witness_TblStatusBits (v : Word) : actionTurn (running 2 (.regWrite 0x24 4 v)) (.regWrite 0x24 4 v) [] :=
  witness_actionTurn_running _ _

/-- After the write, with nothing else asked, the command has its turn. -/
theorem witness_CmdRegister_turn :
    decode 0x00000002 = .ok .brreset ∧
      commandTurn { asked (.regWrite 0x0C 4 2) with cmd := 2, busy := true, inbox := [] } :=
  ⟨by decide, rfl, fun _ _ h => by cases h⟩

theorem witness_CmdRegister (w : Word) :
    (actionTurn (asked (.regWrite 0x0C 4 w)) (.regWrite 0x0C 4 w) [] ∧ (asked (.regWrite 0x0C 4 w)).busy = false ∧
        (asked (.regWrite 0x0C 4 w)).fault = none) ∧
      (actionTurn (faulted (.regWrite 0x0C 4 w)) (.regWrite 0x0C 4 w) [] ∧
        (faulted (.regWrite 0x0C 4 w)).busy = false ∧ (faulted (.regWrite 0x0C 4 w)).fault ≠ none) ∧
      (actionTurn (running 2 (.regWrite 0x0C 4 w)) (.regWrite 0x0C 4 w) [] ∧
        (running 2 (.regWrite 0x0C 4 w)).busy = true) :=
  ⟨⟨witness_actionTurn_asked _, rfl, rfl⟩, ⟨witness_actionTurn_faulted _, rfl, by simp [faulted]⟩,
    witness_actionTurn_running _ _, rfl⟩

theorem witness_ArgRegisters (v : Word) (k : Fin 8) :
    (actionTurn (asked (.regWrite (0x40 + 4 * k.val) 4 v)) (.regWrite (0x40 + 4 * k.val) 4 v) [] ∧
        (asked (.regWrite (0x40 + 4 * k.val) 4 v)).busy = false) ∧
      (actionTurn (running 2 (.regWrite (0x40 + 4 * k.val) 4 v)) (.regWrite (0x40 + 4 * k.val) 4 v) [] ∧
        (running 2 (.regWrite (0x40 + 4 * k.val) 4 v)).busy = true) ∧
      ∃ t, exec .brreset State.reset = .next t :=
  ⟨⟨witness_actionTurn_asked _, rfl⟩, ⟨witness_actionTurn_running _ _, rfl⟩, _, rfl⟩

theorem witness_StatusAndReaderRegisters :
    State.reset.fault = none ∧ (faulted .hardReset).fault = some .badArgs ∧ State.reset.cnt ≤ 32 ∧
      (withBits 5 32 State.reset).cnt ≤ 32 := by decide

theorem witness_RegisterReads :
    ((asked (.regRead 0x7C 4)).busy = false ∧ 0x7C % 4 = 0 ∧ 0x7C < 128 ∧
      actionTurn (asked (.regRead 0x7C 4)) (.regRead 0x7C 4) [] ∧
      actionTurn (asked (.regRead 0x00 4)) (.regRead 0x00 4) [] ∧
      actionTurn (asked (.regRead 0x04 4)) (.regRead 0x04 4) [] ∧
      actionTurn (asked (.regRead 0x10 4)) (.regRead 0x10 4) [] ∧
      actionTurn (asked (.regRead 0x28 4)) (.regRead 0x28 4) []) ∧
    ((running 0x3 (.regRead 0x10 4)).busy = true ∧ decode (running 0x3 (.regRead 0x10 4)).cmd = .ok .refill ∧
      0x10 ∉ writtenRegisters .refill ∧ actionTurn (running 0x3 (.regRead 0x10 4)) (.regRead 0x10 4) []) ∧
    (decode (running 0x8 (.regRead 0x1C 4)).cmd = .error .unknownOpcode ∧
      actionTurn (running 0x8 (.regRead 0x1C 4)) (.regRead 0x1C 4) []) ∧
    ((running 0x10 (.regRead 0x08 4)).busy = true ∧
      actionTurn (running 0x10 (.regRead 0x08 4)) (.regRead 0x08 4) []) :=
  ⟨⟨rfl, by decide, by decide, witness_actionTurn_asked _, witness_actionTurn_asked _, witness_actionTurn_asked _,
    witness_actionTurn_asked _, witness_actionTurn_asked _⟩,
    ⟨rfl, by decide, by decide, witness_actionTurn_running _ _⟩, ⟨by decide, witness_actionTurn_running _ _⟩, rfl,
    witness_actionTurn_running _ _⟩

/-- R270: the STATUS read of the busy protocol. -/
theorem test_status_read_while_busy :
    after (step (running 0x21 (.regRead 0x08 4))) (fun t => t.busy && decide (t.hostData = 1)) = true := by decide

theorem witness_WritesWithoutEffectAndBadAccesses (v : Word) :
    actionTurn (running 2 (.regWrite 0x28 4 v)) (.regWrite 0x28 4 v) [] ∧
      actionTurn (asked (.regWrite 0x00 4 v)) (.regWrite 0x00 4 v) [] ∧
      ((0xFFFFFFFE : Word).getLsbD 0 = false ∧
        actionTurn (faulted (.regWrite 0x04 4 0xFFFFFFFE)) (.regWrite 0x04 4 0xFFFFFFFE) []) ∧
      actionTurn (asked (.regWrite 0x7C 4 v)) (.regWrite 0x7C 4 v) [] ∧
      actionTurn (asked (.regWrite 0x2C 4 v)) (.regWrite 0x2C 4 v) [] ∧
      (((2 : Nat) ≠ 4 ∨ 0x0C % 4 ≠ 0) ∧ actionTurn (asked (.regWrite 0x0C 2 v)) (.regWrite 0x0C 2 v) []) ∧
      (((4 : Nat) ≠ 4 ∨ 0x0D % 4 ≠ 0) ∧ actionTurn (running 2 (.regRead 0x0D 4)) (.regRead 0x0D 4) []) :=
  ⟨witness_actionTurn_running _ _, witness_actionTurn_asked _, ⟨by decide, witness_actionTurn_faulted _⟩,
    witness_actionTurn_asked _, witness_actionTurn_asked _, ⟨by decide, witness_actionTurn_asked _⟩, by decide,
    witness_actionTurn_running _ _⟩

theorem witness_OtherCommandsKeepRes :
    (∃ t, State.reset.fault = none ∧ exec .brreset State.reset = .next t ∧ t.fault = none) ∧
      (∃ t, State.reset.fault = none ∧ exec (.peek 17) State.reset = .next t ∧ t.fault ≠ none) :=
  ⟨⟨_, rfl, rfl, rfl⟩, _, rfl, rfl, by simp [takeFault, latchFault]⟩

/-! #### Host accesses to memory -/

/-- A running IDCT 0 with its write set at 0x2000. -/
def runningIdct (a : HostAction) : State :=
  { block [] with cmd := 0x21, busy := true, inbox := [⟨true, a⟩] }

theorem witness_HostMemoryAccess :
    (actionTurn (asked (.memWrite 0xFFFFFFFF 7)) (.memWrite 0xFFFFFFFF 7) [] ∧
        0xFFFFFFFF < (asked (.memWrite 0xFFFFFFFF 7)).params.memSize ∧
        (asked (.memWrite 0xFFFFFFFF 7)).busy = false) ∧
      (actionTurn (runningIdct (.memWrite 0x3000 7)) (.memWrite 0x3000 7) [] ∧
        decode (runningIdct (.memWrite 0x3000 7)).cmd = .ok (.idct 0) ∧
        readsByte (.idct 0) (runningIdct (.memWrite 0x3000 7)) 0x3000 = false ∧
        writesByte (.idct 0) (runningIdct (.memWrite 0x3000 7)) 0x3000 = false) ∧
      (actionTurn (asked (.memRead 0)) (.memRead 0) [] ∧ 0 < (asked (.memRead 0)).params.memSize ∧
        (asked (.memRead 0)).busy = false) ∧
      (actionTurn (runningIdct (.memWrite 0x203F 7)) (.memWrite 0x203F 7) [] ∧
        (runningIdct (.memWrite 0x203F 7)).busy = true ∧
        decode (runningIdct (.memWrite 0x203F 7)).cmd = .ok (.idct 0) ∧
        writesByte (.idct 0) (runningIdct (.memWrite 0x203F 7)) 0x203F = true) ∧
      (actionTurn (asked (.memWrite 0x100000000 7)) (.memWrite 0x100000000 7) [] ∧
        (asked (.memWrite 0x100000000 7)).params.memSize ≤ 0x100000000) :=
  ⟨⟨witness_actionTurn_asked _, by decide, rfl⟩, ⟨⟨true, rfl, fun _ => rfl⟩, by decide, by decide +kernel, by decide +kernel⟩,
    ⟨witness_actionTurn_asked _, by decide, rfl⟩,
    ⟨⟨true, rfl, fun _ => rfl⟩, rfl, by decide, by decide +kernel⟩, witness_actionTurn_asked _, by decide⟩

/-! #### Faults and reset -/

/-- A command that raises each of the codes 3..12, but for HUFF_BAD_CODE (the next theorem). -/
theorem witness_FaultCodesOfEachCommand :
    (faults (exec .brinit (withMemSize 8 (machine [0, 9] []))) .memRange && faults (exec .brinit (machine [9, 8] [])) .badArgs
      && faults (exec .refill State.reset) .truncated && faults (exec (.peek 17) State.reset) .badWidth
      && faults (exec (.getbits 9) (withBits 0xAB000000 8 (stream [0xFF, 0xD9]))) .bitsUnderrun
      && faults (exec .rstsync (stream [0xFF, 0xD8])) .rstMissing
      && faults (exec (.hbuild .dc 0) (machine [0x400] (bytes 0x400 [3]))) .huffBadTable
      && faults (exec (.hdec .ac 2) State.reset) .huffNoTable
      && faults (exec (.idct 1) State.reset) .qtNotLoaded) = true := by decide +kernel

theorem witness_FaultCodesOfEachCommand_badCode :
    faults (exec (.hdec .dc 0) (smallDecoder 0xFF000000 32)) .huffBadCode = true := by
  rw [test_hdec_runs]
  simp only [decodeSymbol, fastHit, smallTable_fast]
  decide

theorem witness_FaultStaysUntilReset :
    (∃ t, (faulted (.regWrite 0x5C 4 5)).busy = false ∧ (faulted (.regWrite 0x5C 4 5)).fault = some .badArgs ∧
        step (faulted (.regWrite 0x5C 4 5)) = .next t) ∧
      (∃ t, step (faulted .hardReset) = .next t) ∧ (∃ t, step (faulted (.regWrite 0x04 4 1)) = .next t) ∧
      (∃ t, step (faulted (.memWrite 3 4)) = .next t) :=
  ⟨⟨_, rfl, rfl, rfl⟩, ⟨_, rfl⟩, ⟨_, rfl⟩, _, rfl⟩

theorem witness_BusyWriteStopsTheCommand :
    ((running 0x3 (.regWrite 0x0C 4 9)).busy = true ∧ decode (running 0x3 (.regWrite 0x0C 4 9)).cmd = .ok .refill ∧
        actionTurn (running 0x3 (.regWrite 0x0C 4 9)) (.regWrite 0x0C 4 9) []) ∧
      ((runningIdct (.regWrite (0x40 + 4 * 7) 4 9)).busy = true ∧
        decode (runningIdct (.regWrite (0x40 + 4 * 7) 4 9)).cmd = .ok (.idct 0) ∧ 7 < 8 ∧
        actionTurn (runningIdct (.regWrite (0x40 + 4 * 7) 4 9)) (.regWrite (0x40 + 4 * 7) 4 9) []) :=
  ⟨⟨rfl, by decide, witness_actionTurn_running _ _⟩, rfl, by decide, by decide, true, rfl, fun _ => rfl⟩

theorem witness_StateAfterReset :
    actionTurn (runningIdct .hardReset) .hardReset [] ∧
      ((0xFFFFFFFF : Word).getLsbD 0 = true ∧
        actionTurn (faulted (.regWrite 0x04 4 0xFFFFFFFF)) (.regWrite 0x04 4 0xFFFFFFFF) []) :=
  ⟨⟨true, rfl, fun _ => rfl⟩, by decide, witness_actionTurn_faulted _⟩

theorem witness_ResetKeepsMemory :
    (actionTurn (faulted .hardReset) .hardReset [] ∧ (faulted .hardReset).busy = false ∧
        ∃ t, step (faulted .hardReset) = .next t) ∧
      (actionTurn (runningIdct (.regWrite 0x04 4 1)) (.regWrite 0x04 4 1) [] ∧
        decode (runningIdct (.regWrite 0x04 4 1)).cmd = .ok (.idct 0) ∧
        (∀ j, j < writeCount (.idct 0) (runningIdct (.regWrite 0x04 4 1)) →
          writeAddr (.idct 0) (runningIdct (.regWrite 0x04 4 1)) j ≠ 0x2040) ∧
        (runningIdct (.regWrite 0x04 4 1)).busy = true ∧ 63 < writeCount (.idct 0) (runningIdct (.regWrite 0x04 4 1)) ∧
        writeAddr (.idct 0) (runningIdct (.regWrite 0x04 4 1)) 63 < (runningIdct (.regWrite 0x04 4 1)).params.memSize ∧
        ∃ t, step (runningIdct (.regWrite 0x04 4 1)) = .next t) :=
  ⟨⟨witness_actionTurn_faulted _, rfl, _, rfl⟩, ⟨true, rfl, fun _ => rfl⟩, by decide, by decide +kernel, rfl, by decide,
    by decide, _, rfl⟩

/-- R261: the write set is unspecified also where a check of the stopped command fails (here QVALID[1] = 0). -/
theorem test_reset_frees_the_write_set :
    after (softReset { machine [0x1000, 0x2000, 8] [(0x2000, 7)] with cmd := 0x221, busy := true } |> .next) (fun t =>
      !t.busy) = true ∧
      (softReset { machine [0x1000, 0x2000, 8] [(0x2000, 7)] with cmd := 0x221, busy := true }).mem.read 0x2000 =
        freeByte 0 0x2000 :=
  ⟨rfl, freeWrittenMemory_free (.idct 1) { machine [0x1000, 0x2000, 8] [(0x2000, 7)] with cmd := 0x221, busy := true } 0
    (by decide) (by decide)⟩

/-! #### Bit-reader commands -/

theorem witness_BrinitSetsTheStream :
    (withMemSize 8 (machine [0, 9] [])).params.memSize < (withMemSize 8 (machine [0, 9] [])).arg 1 ∧
      ((withMemSize 8 (machine [9, 8] [])).arg 1 ≤ (withMemSize 8 (machine [9, 8] [])).params.memSize ∧
        (withMemSize 8 (machine [9, 8] [])).arg 1 < (withMemSize 8 (machine [9, 8] [])).arg 0) ∧
      ((withMemSize 8 (machine [8, 8] [])).arg 1 ≤ (withMemSize 8 (machine [8, 8] [])).params.memSize ∧
        (withMemSize 8 (machine [8, 8] [])).arg 0 ≤ (withMemSize 8 (machine [8, 8] [])).arg 1) := by decide

theorem witness_RefillIsItsLoop :
    24 < (withBits 0 25 State.reset).cnt ∧
      (∃ s1, (stream [0xFF, 0xD9]).cnt ≤ 24 ∧ nextByte (stream [0xFF, 0xD9]) = .done none s1) ∧
      (∃ s1, (withBits 0 24 (stream [0x12])).cnt ≤ 24 ∧ nextByte (withBits 0 24 (stream [0x12])) = .done (some 0x12) s1) ∧
      (∃ s1, State.reset.cnt ≤ 24 ∧ nextByte State.reset = .raised .truncated s1) :=
  ⟨by decide, ⟨_, by decide, rfl⟩, ⟨_, by decide, rfl⟩, _, by decide, rfl⟩

theorem witness_RefillAddsBytes :
    24 < (withBits 0 25 State.reset).cnt ∧
      ((withBits 0 24 { State.reset with hitend := true }).cnt ≤ 24 ∧
        (withBits 0 24 { State.reset with hitend := true }).hitend = true) ∧
      (let s := withBits 0 17 (stream [0x12]);
        s.cnt ≤ 24 ∧ s.hitend = false ∧ 1 = (32 - s.cnt) / 8 ∧ s.ipos.toNat + 1 ≤ s.iend.toNat ∧
          s.iend.toNat ≤ s.params.memSize ∧ ∀ j, j < 1 → s.mem.read (s.ipos.toNat + j) ≠ 0xFF) := by decide

theorem witness_StuffingAndFillBytes :
    ({ State.reset with hitend := true } : State).hitend = true ∧
      (let s := stream [0xFE];
        s.hitend = false ∧ s.ipos.toNat < s.iend.toNat ∧ s.iend.toNat ≤ s.params.memSize ∧
          s.mem.read s.ipos.toNat ≠ 0xFF) ∧
      (let s := stream [0xFF, 0x00];
        s.hitend = false ∧ s.ipos.toNat + 1 < s.iend.toNat ∧ s.iend.toNat ≤ s.params.memSize ∧
          (∀ j, j < 1 → s.mem.read (s.ipos.toNat + j) = 0xFF) ∧ s.mem.read (s.ipos.toNat + 1) = 0) ∧
      (let s := stream [0xFF, 0xFF, 0x01];
        s.hitend = false ∧ s.ipos.toNat + 2 < s.iend.toNat ∧ s.iend.toNat ≤ s.params.memSize ∧
          (∀ j, j < 2 → s.mem.read (s.ipos.toNat + j) = 0xFF) ∧ s.mem.read (s.ipos.toNat + 2) ≠ 0xFF ∧
          s.mem.read (s.ipos.toNat + 2) ≠ 0) ∧
      (let s := stream [0xFF];
        s.hitend = false ∧ s.ipos.toNat + 1 = s.iend.toNat ∧ s.iend.toNat ≤ s.params.memSize ∧
          ∀ j, j < 1 → s.mem.read (s.ipos.toNat + j) = 0xFF) ∧
      (State.reset.hitend = false ∧ State.reset.ipos.toNat + 0 = State.reset.iend.toNat) := by decide

theorem witness_RefillAtAMarkerOrTheEnd :
    (let s := withBits 0 24 (stream [0xFF, 0xFF, 0xD9]);
      s.cnt ≤ 24 ∧ s.hitend = false ∧ s.iend.toNat ≤ s.params.memSize ∧
        (∀ j, j < 2 → s.mem.read (s.ipos.toNat + j) = 0xFF) ∧ s.ipos.toNat + 2 < s.iend.toNat ∧
        s.mem.read (s.ipos.toNat + 2) ≠ 0xFF ∧ s.mem.read (s.ipos.toNat + 2) ≠ 0) ∧
      (let s := stream [0xFF];
        s.cnt ≤ 24 ∧ s.hitend = false ∧ s.iend.toNat ≤ s.params.memSize ∧
          (∀ j, j < 1 → s.mem.read (s.ipos.toNat + j) = 0xFF) ∧ s.ipos.toNat + 1 = s.iend.toNat) := by decide

/-- A machine that has met a marker: a refill adds zero bytes. -/
def afterMarker (cnt : Nat) : State := { withBits 0 cnt State.reset with hitend := true }

/-- Widths 17, 0, 16 on a full accumulator; 16 with a refill; 16 at the end of the stream. -/
theorem witness_PeekResult :
    16 < 17 ∧ 16 ≤ (withBits 0xFFFF0000 16 State.reset).cnt ∧
      (∃ s1, (afterMarker 15).cnt < 16 ∧ refill (afterMarker 15) = .done () s1) ∧
      (∃ s1, State.reset.cnt < 16 ∧ refill State.reset = .raised .truncated s1) :=
  ⟨by decide, by decide, ⟨_, by decide, rfl⟩, _, by decide, rfl⟩

theorem witness_GetbitsResult :
    16 < 17 ∧ (∃ s1, buffered 16 (withBits 0xFFFF0000 16 State.reset) s1 ∧ 16 ≤ s1.cnt) ∧
      (∃ s1, buffered 16 (afterMarker 15) s1 ∧ 16 ≤ s1.cnt) ∧
      (∃ s1, buffered 9 (withBits 0xAB000000 8 (stream [0xFF, 0xD9])) s1 ∧ s1.cnt < 9) ∧
      (∃ s1, State.reset.cnt < 1 ∧ refill State.reset = .raised .truncated s1) :=
  ⟨by decide, ⟨_, .inl ⟨by decide, rfl⟩, by decide⟩, ⟨_, .inr ⟨by decide, rfl⟩, by decide⟩,
    ⟨_, .inr ⟨by decide, rfl⟩, by decide⟩, _, by decide, rfl⟩

theorem witness_RecextResult :
    16 < 17 ∧ (∃ s1, buffered 1 (withBits 0 1 State.reset) s1 ∧ 1 ≤ s1.cnt) ∧
      (∃ s1, buffered 16 (afterMarker 0) s1 ∧ 16 ≤ s1.cnt) ∧
      (∃ s1, buffered 9 (withBits 0xAB000000 8 (stream [0xFF, 0xD9])) s1 ∧ s1.cnt < 9) ∧
      (∃ s1, State.reset.cnt < 16 ∧ refill State.reset = .raised .truncated s1) :=
  ⟨by decide, ⟨_, .inl ⟨by decide, rfl⟩, by decide⟩, ⟨_, .inr ⟨by decide, rfl⟩, by decide⟩,
    ⟨_, .inr ⟨by decide, rfl⟩, by decide⟩, _, by decide, rfl⟩

theorem witness_SignedResultRange :
    (1 ≤ 16 ∧ 16 ≤ 16 ∧ 16 ≤ (withBits 0xFFFF0000 16 State.reset).cnt ∧
        65535 = (withBits 0xFFFF0000 16 State.reset).acc.toNat / 2 ^ (32 - 16)) ∧
      (1 ≤ (withBits 0 1 State.reset).cnt ∧ 0 = (withBits 0 1 State.reset).acc.toNat / 2 ^ (32 - 1)) := by decide

theorem witness_RstsyncPassesARestartMarker :
    (let s := stream [0xFF];
      s.iend.toNat ≤ s.params.memSize ∧ s.iend.toNat < s.ipos.toNat + 2) ∧
      (let s := stream [0xFF, 0xD8];
        s.iend.toNat ≤ s.params.memSize ∧ s.ipos.toNat + 2 ≤ s.iend.toNat ∧
          0xD7 < (s.mem.read (s.ipos.toNat + 1)).toNat) ∧
      (let s := stream [0xFF, 0xCF];
        s.ipos.toNat + 2 ≤ s.iend.toNat ∧ (s.mem.read (s.ipos.toNat + 1)).toNat < 0xD0) ∧
      (let s := stream [0xFE, 0xD0];
        s.ipos.toNat + 2 ≤ s.iend.toNat ∧ s.mem.read s.ipos.toNat ≠ 0xFF) ∧
      (let s := stream [0xFF, 0xD7];
        s.iend.toNat ≤ s.params.memSize ∧ s.ipos.toNat + 2 ≤ s.iend.toNat ∧ 7 ≤ 7 ∧
          s.mem.read s.ipos.toNat = 0xFF ∧ s.mem.read (s.ipos.toNat + 1) = BitVec.ofNat 8 (0xD0 + 7)) := by decide

theorem witness_ReaderCommandsFrame :
    (∃ t, exec .refill (stream [1, 2, 3, 4]) = .next t) ∧ (∃ t, exec (.getbits 31) State.reset = .next t) ∧
      (∃ t, exec (.hdec .ac 3) State.reset = .next t) ∧ (∃ t, exec .brinit (machine [1, 2] []) = .next t) :=
  ⟨⟨_, rfl⟩, ⟨_, rfl⟩, ⟨_, rfl⟩, _, rfl⟩

/-! #### Huffman commands -/

theorem witness_CanonicalCodeAssignment :
    smallCounts.length = 16 ∧ buildCodes 1 0 0 smallCounts = some smallBook ∧ 1 < countOf smallCounts 2 := by decide

theorem witness_HbuildCommitsTheTable :
    smallInput.arg 0 + 16 + huffNsym smallInput ≤ smallInput.params.memSize ∧ huffNsym smallInput ≤ 256 ∧
      ∀ i, 1 ≤ i → i ≤ 16 → 0 < huffCount smallInput i →
        firstCode (huffCounts smallInput) i + huffCount smallInput i ≤ 2 ^ i := by
  refine ⟨by decide +kernel, by decide +kernel, ?_⟩
  have all : ∀ i : Fin 17, 1 ≤ i.val → 0 < huffCount smallInput i.val →
      firstCode (huffCounts smallInput) i.val + huffCount smallInput i.val ≤ 2 ^ i.val := by decide +kernel
  exact fun i h1 h2 h3 => all ⟨i, by omega⟩ h1 h3

theorem witness_HbuildFaultsKeepTheTable :
    (let s := withMemSize 15 (machine [0] []);
      s.params.memSize < s.arg 0 + 16) ∧
      (let s := machine [0] (bytes 0 [0, 0, 0, 0, 0, 0, 0, 0, 0, 0, 0, 0, 0, 0, 2, 255]);
        s.arg 0 + 16 ≤ s.params.memSize ∧ 256 < huffNsym s) ∧
      (let s := withMemSize 16 (machine [0] (bytes 0 [1]));
        s.arg 0 + 16 ≤ s.params.memSize ∧ huffNsym s ≤ 256 ∧ s.params.memSize < s.arg 0 + 16 + huffNsym s) ∧
      (let s := machine [0] (bytes 0 [3]);
        s.arg 0 + 16 + huffNsym s ≤ s.params.memSize ∧ huffNsym s ≤ 256 ∧
          (1 ≤ 1 ∧ 1 ≤ 16 ∧ 0 < huffCount s 1 ∧ 2 ^ 1 < firstCode (huffCounts s) 1 + huffCount s 1)) := by
  decide +kernel

theorem witness_BuiltTableInvariants : Built smallTable ∧ 2 < smallTable.nsym := ⟨witness_smallTable_built, by decide⟩

/-- The 9-bit pattern 0x120 begins with the code of index 2; the pattern 0x1FF begins with no code. -/
theorem witness_FastTableIsThePrefixLookup :
    Built smallTable ∧
      (2 < smallTable.nsym ∧ smallTable.sizeAt 2 ≤ 9 ∧
        (0x120 : Fin 512).val / 2 ^ (9 - smallTable.sizeAt 2) = (smallTable.codeAt 2).toNat) ∧
      (∀ k, k < smallTable.nsym → smallTable.sizeAt k ≤ 9 →
        (0x1FF : Fin 512).val / 2 ^ (9 - smallTable.sizeAt k) ≠ (smallTable.codeAt k).toNat) :=
  ⟨witness_smallTable_built, by decide, by decide⟩

theorem witness_MaxcodeFindsTheLength :
    Built smallTable ∧ 0x9FFF < 65536 ∧ 2 < smallTable.nsym ∧
      0x9FFF / 2 ^ (16 - smallTable.sizeAt 2) = (smallTable.codeAt 2).toNat :=
  ⟨witness_smallTable_built, by decide, by decide, by decide⟩

theorem witness_HdecRoundTrip :
    smallTable = (smallDecoder 0x90000000 16).huff .dc 0 ∧ Built smallTable ∧ 2 < smallTable.nsym ∧
      ¬(smallTable.nsym = 256 ∧ 2 = 255 ∧ smallTable.sizeAt 255 ≤ 9) ∧
      buffered 16 (smallDecoder 0x90000000 16) (smallDecoder 0x90000000 16) ∧
      smallTable.sizeAt 2 ≤ (smallDecoder 0x90000000 16).cnt ∧
      (smallDecoder 0x90000000 16).acc.toNat / 2 ^ (32 - smallTable.sizeAt 2) = (smallTable.codeAt 2).toNat :=
  ⟨(witness_smallDecoder _ _).symm, witness_smallTable_built, by decide, by decide, .inl ⟨by decide, rfl⟩, by decide,
    by decide⟩

/-- The counts of R142's example: 255 codes of length 8 and one of length 9. -/
def fullCounts : List Nat := [0, 0, 0, 0, 0, 0, 0, 255, 1, 0, 0, 0, 0, 0, 0, 0]

/-- Symbol index k holds the byte 255 − k (vector H15). -/
def fullSymbols : List Byte := (List.range 256).map fun k => BitVec.ofNat 8 (255 - k)

/-- Its code book: the codes 0..254 of length 8 and 510 of length 9. -/
def fullBook : CodeBook where
  codes := List.range 255 ++ [510]
  deltas := [0, 0, 0, 0, 0, 0, 0, 0, -255, -766, -1788, -3832, -7920, -16096, -32448, -65152]
  maxcodes := [0, 0, 0, 0, 0, 0, 0, 0xFF00, 0xFF80, 0xFF80, 0xFF80, 0xFF80, 0xFF80, 0xFF80, 0xFF80, 0xFF80]

/-- Its table. -/
def fullTable : HuffTable := builtTable fullCounts fullSymbols fullBook

theorem witness_fullTable_built : Built fullTable :=
  ⟨fullCounts, fullSymbols, fullBook, by decide, by decide, by decide, by decide +kernel, by decide +kernel, rfl⟩

/-- The machine with that table in HT[DC][1] and `cnt` bits buffered. -/
def fullDecoder (acc : Word) (cnt : Nat) : State := (withBits acc cnt State.reset).setHuff .dc 1 fullTable

theorem witness_fullDecoder (acc : Word) (cnt : Nat) : (fullDecoder acc cnt).huff .dc 1 = fullTable := by
  simp [fullDecoder]

/-- Vector H16: bits 111111110 0. -/
theorem test_hdec_sentinel :
    after (decodeSymbol fullTable (fullDecoder 0xFF000000 32)).finish (fun t =>
      decide (t.res = 0x01) && decide (t.cnt = 22)) = true := by
  have f (e : Fin 512) : fullTable.fast.get e = _ := builtTable_fast fullCounts fullSymbols fullBook e
  simp only [decodeSymbol, fastHit, f]
  decide +kernel

theorem witness_SentinelCollision :
    fullTable = (fullDecoder 0xFF000000 32).huff .dc 1 ∧ Built fullTable ∧ fullTable.nsym = 256 ∧
      fullTable.sizeAt 255 ≤ 9 ∧ buffered 16 (fullDecoder 0xFF000000 32) (fullDecoder 0xFF000000 32) ∧
      (fullDecoder 0xFF000000 32).acc.toNat / 2 ^ (32 - fullTable.sizeAt 255) = (fullTable.codeAt 255).toNat ∧
      1022 = ((fullTable.codeAt 255).toNat + 1) * 2 ^ (10 - fullTable.sizeAt 255) ∧
      254 = (fullDecoder 0xFF000000 32).acc.toNat / 2 ^ 22 + 256 - 1022 ∧ 10 ≤ (fullDecoder 0xFF000000 32).cnt :=
  ⟨(witness_fullDecoder _ _).symm, witness_fullTable_built, by decide +kernel, by decide +kernel,
    .inl ⟨by decide, rfl⟩, by decide +kernel, by decide +kernel, by decide, by decide⟩

/-- A decoder that has 9 bits when the stream has met a marker: only the clause of CNT < 10. -/
theorem witness_SentinelCollision_short :
    ∃ s1, buffered 16 (withBits 0xFF000000 9 { fullDecoder 0 0 with ipos := 0, iend := 2, mem := ⟨[(0, 0xFF), (1, 0xD9)]⟩ }) s1 ∧
      s1.cnt < 10 ∧ s1.acc.toNat / 2 ^ (32 - 9) = 510 :=
  ⟨_, .inr ⟨by decide, rfl⟩, by decide, by decide⟩

theorem witness_HdecFaults :
    (State.reset.huff .ac 2).hvalid = false ∧
      (∃ s1, smallTable = (smallDecoder 0 15).huff .dc 0 ∧ smallTable.hvalid = true ∧ (smallDecoder 0 15).cnt < 16 ∧
        refill (smallDecoder 0 15) = .raised .truncated s1) ∧
      (∃ s1, Built smallTable ∧
        buffered 16 { smallDecoder 0x80000000 2 with iend := 2, mem := ⟨[(0, 0xFF), (1, 0xD9)]⟩ } s1 ∧
        fastHit smallTable s1 ≠ 255 ∧ s1.cnt < smallTable.sizeAt (fastHit smallTable s1).toNat ∧
        2 < smallTable.nsym ∧ s1.acc.toNat / 2 ^ (32 - smallTable.sizeAt 2) = (smallTable.codeAt 2).toNat ∧
        s1.cnt < smallTable.sizeAt 2) :=
  ⟨by decide, ⟨_, (witness_smallDecoder _ _).symm, rfl, by decide, rfl⟩, _, witness_smallTable_built,
    .inr ⟨by decide, rfl⟩, by simp only [fastHit, smallTable_fast]; decide, by
    simp only [fastHit, smallTable_fast]; decide, by decide, by decide, by decide⟩

/-- No code begins the stream: the scan reaches length 17 (vector H4). -/
theorem witness_HdecFaults_noMatch :
    smallTable = (smallDecoder 0xFF000000 32).huff .dc 0 ∧
      buffered 16 (smallDecoder 0xFF000000 32) (smallDecoder 0xFF000000 32) ∧
      fastHit smallTable (smallDecoder 0xFF000000 32) = 255 ∧
      (∀ i : Fin 17, 10 ≤ i.val → (smallTable.maxcodeAt i.val).toNat ≤ (smallDecoder 0xFF000000 32).acc.toNat / 65536) ∧
      (∀ k, k < smallTable.nsym →
        (smallDecoder 0xFF000000 32).acc.toNat / 2 ^ (32 - smallTable.sizeAt k) ≠ (smallTable.codeAt k).toNat) :=
  ⟨(witness_smallDecoder _ _).symm, .inl ⟨by decide, rfl⟩, by simp only [fastHit, smallTable_fast]; decide,
    by decide +kernel, by decide⟩

/-- The scan stops at length 10 with 9 bits buffered. -/
theorem witness_HdecFaults_longMatch :
    ∃ s1, buffered 16 { fullDecoder 0xFF000000 9 with iend := 2, mem := ⟨[(0, 0xFF), (1, 0xD9)]⟩ } s1 ∧
      fastHit fullTable s1 = 255 ∧ s1.acc.toNat / 65536 < (fullTable.maxcodeAt 10).toNat ∧ s1.cnt < 10 := by
  have f (e : Fin 512) : fullTable.fast.get e = _ := builtTable_fast fullCounts fullSymbols fullBook e
  refine ⟨_, .inr ⟨by decide, rfl⟩, ?_, by decide +kernel, by decide⟩
  simp only [fastHit, f]
  decide +kernel

/-- A table that no build makes: MAXCODE[10] = 1 and no symbols, so that index 0 is out of range. -/
def strayTable : HuffTable :=
  { HuffTable.atReset with hvalid := true, maxcode := Vector.replicate 17 1, fast := Vector.replicate 512 255 }

theorem witness_HdecFaults_outOfRange :
    strayTable.hvalid = true ∧ buffered 16 (withBits 0 32 State.reset) (withBits 0 32 State.reset) ∧
      fastHit strayTable (withBits 0 32 State.reset) = 255 ∧
      (withBits 0 32 State.reset).acc.toNat / 65536 < (strayTable.maxcodeAt 10).toNat ∧
      (strayTable.nsym : Int) ≤
        (((withBits 0 32 State.reset).acc.toNat / 2 ^ (32 - 10) : Nat) : Int) + (strayTable.deltaAt 10).toInt :=
  ⟨rfl, .inl ⟨by decide, rfl⟩, by decide +kernel, by decide +kernel, by decide +kernel⟩

/-- The table of no symbols. -/
def emptyTable : HuffTable :=
  builtTable (List.replicate 16 0) []
    ⟨[], List.replicate 16 0, List.replicate 16 0⟩

theorem witness_HdecFaults_empty :
    Built emptyTable ∧ emptyTable.nsym = 0 ∧ buffered 16 (withBits 0 16 State.reset) (withBits 0 16 State.reset) :=
  ⟨⟨List.replicate 16 0, [], ⟨[], List.replicate 16 0, List.replicate 16 0⟩, by decide, by decide, by decide, by decide,
    by decide, rfl⟩, by decide, .inl ⟨by decide, rfl⟩⟩

/-! #### Dequantisation and IDCT -/

theorem witness_QloadStoresTheTable :
    (withMemSize 63 State.reset).params.memSize < (withMemSize 63 State.reset).arg 0 + 64 ∧
      (withMemSize 64 State.reset).arg 0 + 64 ≤ (withMemSize 64 State.reset).params.memSize := by decide

theorem witness_DequantisedProductIsExact :
    (let s := machine [0x1000] (bytes 0x1000 [0x00, 0x80]);
      (-32768 : Int) = (BitVec.ofNat 16
          ((s.mem.read (s.arg 0 + 2 * 0)).toNat + 256 * (s.mem.read (s.arg 0 + 2 * 0 + 1)).toNat)).toInt ∧
        s.params.dequantWrap16 = false) ∧
      (({ State.reset with params := { Config.Params.default with dequantWrap16 := true } } : State).params.dequantWrap16
        = true) := by decide

theorem witness_KernelDcProperty :
    (524287#32).toInt.natAbs < 524288 ∧ (BitVec.ofInt 32 (-524287)).toInt.natAbs < 524288 ∧ 7 < 8 := by decide

theorem witness_DcOnlyBlock :
    (∀ i, 1 ≤ i → i < 64 → (fun i => if i = 0 then 65535#32 else 0#32) i = 0#32) ∧
      ((fun i => if i = 0 then 65535#32 else 0#32) 0).toInt.natAbs < 65536 ∧ 7 < 8 :=
  ⟨fun i h _ => by simp; omega, by decide, by decide⟩

theorem witness_IdctWritesTheBlock :
    (let s := block [];
      (s.quant 0).qvalid = true ∧ 8 ≤ s.arg 2 ∧ s.arg 0 + 128 ≤ s.params.memSize ∧
        s.arg 1 + 7 * s.arg 2 + 8 ≤ s.params.memSize ∧
        (s.arg 1 + 7 * s.arg 2 + 7 < s.arg 0 ∨ s.arg 0 + 127 < s.arg 1)) ∧
      (∀ j, j < 64 → idctAddr (block []) j ≠ 0x2040) := by decide +kernel

/-- A machine with QT[0] loaded, `memSize` bytes of memory and the given ARG0, ARG1, ARG2. -/
def idctArgs (memSize : Nat) (args : List Nat) : State :=
  withMemSize memSize ((machine args []).setQuant 0 ⟨true, Vector.replicate 64 1⟩)

theorem witness_IdctFaultOrder :
    (State.reset.quant 1).qvalid = false ∧
      (let s := idctArgs 256 [0, 128, 7];
        (s.quant 0).qvalid = true ∧ s.arg 2 < 8) ∧
      (let s := idctArgs 191 [0, 128, 8];
        (s.quant 0).qvalid = true ∧ 8 ≤ s.arg 2 ∧ s.params.memSize < s.arg 1 + 7 * s.arg 2 + 8) ∧
      (let s := idctArgs 191 [64, 0, 8];
        (s.quant 0).qvalid = true ∧ 8 ≤ s.arg 2 ∧ s.params.memSize < s.arg 0 + 128) ∧
      (let s := idctArgs 192 [0, 127, 8];
        (s.quant 0).qvalid = true ∧ 8 ≤ s.arg 2 ∧ s.arg 0 + 128 ≤ s.params.memSize ∧
          s.arg 1 + 7 * s.arg 2 + 8 ≤ s.params.memSize ∧ s.arg 0 ≤ s.arg 1 + 7 * s.arg 2 + 7 ∧
          s.arg 1 ≤ s.arg 0 + 127) := by decide +kernel

/-! #### Upsampling -/

theorem witness_UpxDoublesRows :
    let s := withMemSize 12 (machine [0, 4, 2, 2] []);
    1 ≤ s.arg 2 ∧ s.arg 2 ≤ 65536 ∧ 1 ≤ s.arg 3 ∧ s.arg 3 ≤ 65536 ∧ s.arg 0 + s.arg 2 * s.arg 3 ≤ s.params.memSize ∧
      s.arg 1 + 2 * (s.arg 2 * s.arg 3) ≤ s.params.memSize ∧
      (s.arg 1 + 2 * (s.arg 2 * s.arg 3) ≤ s.arg 0 ∨ s.arg 0 + s.arg 2 * s.arg 3 ≤ s.arg 1) ∧
      ∀ j, j < 2 * upsCount s → upsAddr s j ≠ 12 := by decide +kernel

theorem witness_UpyDoublesColumns :
    let s := withMemSize 3 (machine [2, 0, 1, 1] []);
    1 ≤ s.arg 2 ∧ s.arg 2 ≤ 65536 ∧ 1 ≤ s.arg 3 ∧ s.arg 3 ≤ 65536 ∧ s.arg 0 + s.arg 2 * s.arg 3 ≤ s.params.memSize ∧
      s.arg 1 + 2 * (s.arg 2 * s.arg 3) ≤ s.params.memSize ∧
      (s.arg 1 + 2 * (s.arg 2 * s.arg 3) ≤ s.arg 0 ∨ s.arg 0 + s.arg 2 * s.arg 3 ≤ s.arg 1) ∧
      ∀ j, j < 2 * upsCount s → upsAddr s j ≠ 2 := by decide +kernel

theorem witness_UpsampleFaultOrder :
    (machine [0, 16, 0, 1] []).arg 2 < 1 ∧ 65536 < (machine [0, 16, 1, 65537] []).arg 3 ∧
      (let s := withMemSize 11 (machine [0, 4, 2, 2] []);
        1 ≤ s.arg 2 ∧ s.arg 2 ≤ 65536 ∧ 1 ≤ s.arg 3 ∧ s.arg 3 ≤ 65536 ∧
          s.params.memSize < s.arg 1 + 2 * (s.arg 2 * s.arg 3)) ∧
      (let s := withMemSize 12 (machine [0, 3, 2, 2] []);
        1 ≤ s.arg 2 ∧ s.arg 2 ≤ 65536 ∧ 1 ≤ s.arg 3 ∧ s.arg 3 ≤ 65536 ∧
          s.arg 0 + s.arg 2 * s.arg 3 ≤ s.params.memSize ∧
          s.arg 1 + 2 * (s.arg 2 * s.arg 3) ≤ s.params.memSize ∧
          s.arg 0 < s.arg 1 + 2 * (s.arg 2 * s.arg 3) ∧ s.arg 1 < s.arg 0 + s.arg 2 * s.arg 3) := by decide +kernel

/-! #### Colour conversion -/

theorem witness_ColourArithmeticIsExact : 1048575 < 1048576 ∧ 2 < 3 := by decide

/-- One pixel: planes at 0, 1 and 2, the image at 3, in a memory of 7 bytes. -/
theorem witness_YccWritesThePixels :
    let s := withMemSize 7 (machine [0, 1, 2, 1, 3, 1, 1] []);
    1 ≤ s.arg 5 ∧ s.arg 5 ≤ 65535 ∧ 1 ≤ s.arg 6 ∧ s.arg 6 ≤ 65535 ∧ s.arg 5 ≤ s.arg 3 ∧
      (∀ k : Fin 8, k.val < 3 → s.arg k + (s.arg 6 - 1) * s.arg 3 + s.arg 5 ≤ s.params.memSize ∧
        (s.arg 4 + 4 * (s.arg 5 * s.arg 6) ≤ s.arg k ∨ s.arg k + (s.arg 6 - 1) * s.arg 3 + s.arg 5 ≤ s.arg 4)) ∧
      s.arg 4 + 4 * (s.arg 5 * s.arg 6) ≤ s.params.memSize ∧ ∀ j, j < rgbaCount s → rgbaAddr s j ≠ 7 := by
  decide +kernel

theorem witness_GrayWritesThePixels :
    let s := withMemSize 5 (machine [4, 0, 0, 1, 0, 1, 1] []);
    1 ≤ s.arg 5 ∧ s.arg 5 ≤ 65535 ∧ 1 ≤ s.arg 6 ∧ s.arg 6 ≤ 65535 ∧ s.arg 5 ≤ s.arg 3 ∧
      s.arg 0 + (s.arg 6 - 1) * s.arg 3 + s.arg 5 ≤ s.params.memSize ∧
      (s.arg 4 + 4 * (s.arg 5 * s.arg 6) ≤ s.arg 0 ∨ s.arg 0 + (s.arg 6 - 1) * s.arg 3 + s.arg 5 ≤ s.arg 4) ∧
      s.arg 4 + 4 * (s.arg 5 * s.arg 6) ≤ s.params.memSize ∧ ∀ j, j < rgbaCount s → rgbaAddr s j ≠ 4 := by
  decide +kernel

theorem witness_NeutralChromaGivesLuma : 0 < 1048576 ∧ 1048575 < 1048576 ∧ 3 < 4 := by decide

theorem witness_ColourFaultOrder :
    (let s := machine [0, 1, 2, 1, 3, 0, 1] [];
      s.arg 5 < 1) ∧
      (let s := machine [0, 1, 2, 1, 3, 2, 1] [];
        s.arg 3 < s.arg 5) ∧
      (let s := withMemSize 6 (machine [0, 1, 2, 1, 3, 1, 1] []);
        1 ≤ s.arg 5 ∧ s.arg 5 ≤ 65535 ∧ 1 ≤ s.arg 6 ∧ s.arg 6 ≤ 65535 ∧ s.arg 5 ≤ s.arg 3 ∧
          s.params.memSize < s.arg 4 + 4 * (s.arg 5 * s.arg 6)) ∧
      (let s := withMemSize 7 (machine [0, 1, 3, 1, 3, 1, 1] []);
        1 ≤ s.arg 5 ∧ s.arg 5 ≤ 65535 ∧ 1 ≤ s.arg 6 ∧ s.arg 6 ≤ 65535 ∧ s.arg 5 ≤ s.arg 3 ∧
          (∀ p ∈ [s.arg 0, s.arg 1, s.arg 2], p + (s.arg 6 - 1) * s.arg 3 + s.arg 5 ≤ s.params.memSize) ∧
          s.arg 4 + 4 * (s.arg 5 * s.arg 6) ≤ s.params.memSize ∧
          (∃ p ∈ [s.arg 0, s.arg 1, s.arg 2],
            p < s.arg 4 + 4 * (s.arg 5 * s.arg 6) ∧ s.arg 4 < p + (s.arg 6 - 1) * s.arg 3 + s.arg 5)) := by
  decide +kernel

theorem witness_MemoryAndTableCommandsFrame :
    (∃ t, exec .upx (machine [0, 4, 2, 2] []) = .next t) ∧ (∃ t, exec (.idct 0) (block []) = .next t) ∧
      (∃ t, exec (.qload 3) State.reset = .next t) ∧
      (∀ j, j < writeCount (.idct 0) (block []) → writeAddr (.idct 0) (block []) j ≠ 0x1000) :=
  ⟨⟨_, rfl⟩, ⟨_, rfl⟩, ⟨_, rfl⟩, by decide +kernel⟩

/-! #### Invariants -/

theorem witness_RunsBeginInTheInvariant :
    Config.Params.default.legal = true ∧ ({ Config.Params.default with memSize := 1 } : Config.Params).legal = true := by
  decide

/-- A machine about to run BRRESET. -/
theorem witness_StepKeepsTheInvariant :
    Inv (State.reset.withFetchWord 32 2) ∧ ∃ t, step (State.reset.withFetchWord 32 2) = .next t := by
  refine ⟨⟨⟨fun _ => rfl, fun _ => rfl⟩, ⟨by decide, by decide, by decide⟩, by decide, fun _ =>
    ⟨⟨by decide, fun i _ => by simp [State.withFetchWord, State.reset]⟩, ⟨by decide, by decide⟩, ?_⟩⟩, _, rfl⟩
  have none_valid : ∀ c ∈ [HClass.dc, HClass.ac], ∀ t : Fin 4,
      ((State.reset.withFetchWord 32 2).huff c t).hvalid = false := by decide
  intro c t h
  have f := none_valid c (by cases c <;> simp) t
  rw [f] at h
  cases h

/-- A machine with 16 bytes of memory of which the host reads the byte past the end. -/
def pastTheEnd : State :=
  { State.reset with params := ⟨16, .r171, .nearest, false, 2, 524288⟩, inbox := [⟨false, .memRead 16⟩] }

theorem witness_pastTheEnd : Inv pastTheEnd ∧ step pastTheEnd = .fault .outsideMemory := by
  refine ⟨⟨⟨fun _ => rfl, fun _ => rfl⟩, ⟨by decide, by decide, by decide⟩, by decide, fun _ =>
    ⟨⟨by decide, fun i _ => by simp [pastTheEnd, State.reset]⟩, ⟨by decide, by decide⟩, ?_⟩⟩, rfl⟩
  have none_valid : ∀ c ∈ [HClass.dc, HClass.ac], ∀ t : Fin 4, (pastTheEnd.huff c t).hvalid = false := by decide
  intro c t h
  have f := none_valid c (by cases c <;> simp) t
  rw [f] at h
  cases h

theorem witness_NoCommandReadsOutsideMemory :
    (∃ s, Reachable s ∧ step s = .fault .outsideMemory) ∧
      (let s := idctArgs 192 [0, 128, 8];
        s.fault = none ∧ s.iend.toNat ≤ s.params.memSize ∧ readsByte (.idct 0) s 127 = true ∧
          writeAddr (.idct 0) s 63 = 191 ∧ ∃ t, exec (.idct 0) s = .next t ∧ t.fault = none) :=
  ⟨⟨_, Reachable.start ⟨16, .r171, .nearest, false, 2, 524288⟩ [⟨false, .memRead 16⟩] (by decide), rfl⟩,
    rfl, by decide, by decide, by decide, _, rfl, rfl⟩

/-! #### The transform on any block -/

/-- The even part x0, x1, x2, x3 of R171 under NEAREST as terms. -/
def evenPart : Fin 4 → Config.KernelTerm :=
  let c (v : Int) : Config.KernelTerm := .const (BitVec.ofInt 32 v)
  let p1 : Config.KernelTerm := .mul (.add (.input 2) (.input 6)) (c 2217)
  let t2 : Config.KernelTerm := .add p1 (.mul (.input 6) (c (-7568)))
  let t3 : Config.KernelTerm := .add p1 (.mul (.input 2) (c 3135))
  let t0 : Config.KernelTerm := .mul (.add (.input 0) (.input 4)) (c 4096)
  let t1 : Config.KernelTerm := .mul (.sub (.input 0) (.input 4)) (c 4096)
  fun k => match k with
    | 0 => .add t0 t3
    | 1 => .add t1 t2
    | 2 => .sub t1 t2
    | 3 => .sub t0 t3

/-- The odd part t0, t1, t2, t3 of R171 under NEAREST as terms. -/
def oddPart : Fin 4 → Config.KernelTerm :=
  let c (v : Int) : Config.KernelTerm := .const (BitVec.ofInt 32 v)
  let p3 : Config.KernelTerm := .add (.input 7) (.input 3)
  let p4 : Config.KernelTerm := .add (.input 5) (.input 1)
  let p5 : Config.KernelTerm := .mul (.add p3 p4) (c 4816)
  let p1 : Config.KernelTerm := .add p5 (.mul (.add (.input 7) (.input 1)) (c (-3686)))
  let p2 : Config.KernelTerm := .add p5 (.mul (.add (.input 5) (.input 3)) (c (-10498)))
  let q3 : Config.KernelTerm := .mul p3 (c (-8035))
  let q4 : Config.KernelTerm := .mul p4 (c (-1598))
  fun k => match k with
    | 0 => .add (.add (.mul (.input 7) (c 1223)) p1) q3
    | 1 => .add (.add (.mul (.input 5) (c 8410)) p2) q4
    | 2 => .add (.add (.mul (.input 3) (c 12586)) p2) q3
    | 3 => .add (.add (.mul (.input 1) (c 6149)) p1) q4

/-- The butterfly of R171 under NEAREST, supplied as data. -/
def suppliedR171 : Config.SuppliedKernel where
  u0 := .add (evenPart 0) (oddPart 3)
  u1 := .add (evenPart 1) (oddPart 2)
  u2 := .add (evenPart 2) (oddPart 1)
  u3 := .add (evenPart 3) (oddPart 0)
  u4 := .sub (evenPart 3) (oddPart 0)
  u5 := .sub (evenPart 2) (oddPart 1)
  u6 := .sub (evenPart 1) (oddPart 2)
  u7 := .sub (evenPart 0) (oddPart 3)

/-- A supplied kernel is the function its data says: here the default one, on every input. -/
theorem test_supplied_kernel (x : Oct) : runKernel suppliedR171 x = kernelR171 .nearest x := by
  simp [runKernel, suppliedR171, evenPart, oddPart, kernelTermValue, octGet, kernelR171, roundedConst, kNearest]

theorem witness_IdctPassesAndKernel :
    Config.Params.default.kernel = .r171 ∧
      ({ Config.Params.default with kernel := .supplied suppliedR171 } : Config.Params).kernel = .supplied suppliedR171 ∧
      (∃ r, 1 ≤ r ∧ r < 8 ∧ octGet (⟨0, 0, 0, 0, 0, 0, 0, 1⟩ : Oct) r ≠ 0) ∧
      524288 ≤ (524288#32).toInt.natAbs ∧
      (∀ r, 1 ≤ r → r < 8 → (fun i => if i = 0 then 5#32 else 0#32) (8 * r + 0) = 0#32) ∧
      (∃ r, 1 ≤ r ∧ r < 8 ∧ (fun i => if i = 57 then 5#32 else 0#32) (8 * r + 1) ≠ 0#32) :=
  ⟨rfl, rfl, ⟨7, by decide⟩, by decide, fun r h _ => by simp; omega, 7, by decide⟩

end Sys2Proof.Tests
end

section
/-! PROOFS of the scope statements (spec/00_scope.md). A step runs one command or takes one action. What every command
keeps and how it ends is proved once for the 15 commands; the end of every command and the invariant of every step
follow from it. The transform is read in exact integers: reduction to s32 commutes with every operation. -/

namespace Sys2Proof.Machine

open Sys2Proof
open Sys2Proof.Config (Oct)

/-! ### The turns of a step -/

/-- The decoded command is what runs (R85). -/
theorem runCommand_of_decode (s : State) (i : Instr) (h : decode s.cmd = .ok i) : runCommand s = exec i s := by
  simp [runCommand, h]

/-- On a command's turn the step is its run (R16). -/
theorem step_of_commandTurn (s : State) (h : commandTurn s) : step s = runCommand s := by
  obtain ⟨busy, late⟩ := h
  obtain ⟨_, idle, _⟩ | ⟨_, _, run⟩ | ⟨e, rest, inbox, early, _⟩ := step_cases s
  · simp [idle] at busy
  · exact run
  · simp [late e rest inbox] at early
    simp [early] at busy

/-- With no command running and nothing asked, the state persists (R244). -/
theorem step_of_idle (s : State) (busy : s.busy = false) (inbox : s.inbox = []) : step s = .next s := by
  simp [step, busy, inbox]

/-- Settles O5, from the two turns of a step. -/
theorem stepRunsTheCommandInCmd : Obligations.StepRunsTheCommandInCmd :=
  ⟨fun s i turn dec => (step_of_commandTurn s turn).trans (runCommand_of_decode s i dec), step_of_idle⟩

/-! ### What a command keeps, and how it ends -/

/-- What a command's pseudocode keeps from the state `s` it starts in to the state `u` it ends or raises in: the latch
and CMD, and each part of the invariant that speaks of memory, the bit reader and the tables. -/
structure CommandKept (s u : State) : Prop where
  fault : u.fault = s.fault
  finfo : u.finfo = s.finfo
  cmd : u.cmd = s.cmd
  memory : memoryOk s → memoryOk u
  accumulator : accumulatorOk s → accumulatorOk u
  stream : streamOk s → streamOk u
  tables : tablesOk s → tablesOk u

theorem CommandKept.refl (s : State) : CommandKept s s := ⟨rfl, rfl, rfl, id, id, id, id⟩

theorem CommandKept.trans {s u v : State} (h : CommandKept s u) (h' : CommandKept u v) : CommandKept s v where
  fault := h'.fault.trans h.fault
  finfo := h'.finfo.trans h.finfo
  cmd := h'.cmd.trans h.cmd
  memory := h'.memory ∘ h.memory
  accumulator := h'.accumulator ∘ h.accumulator
  stream := h'.stream ∘ h.stream
  tables := h'.tables ∘ h.tables

theorem ReaderKept.commandKept {s u : State} (h : ReaderKept s u) : CommandKept s u where
  fault := by rw [h.frame]
  finfo := by rw [h.frame]
  cmd := by rw [h.frame]
  memory m := by rw [h.frame]; exact m
  accumulator := h.accumulator
  stream := h.stream
  tables t := by rw [h.frame]; exact t

theorem setRes_kept (v : Word) (s : State) : CommandKept s (s.setRes v) := ⟨rfl, rfl, rfl, id, id, id, id⟩

theorem setQuant_kept (s : State) (t : Fin 4) (q : QuantTable) : CommandKept s (s.setQuant t q) :=
  ⟨rfl, rfl, rfl, id, id, id, id⟩

/-- A table put in place of another keeps R36 when it is a built one. -/
theorem setHuff_kept (s : State) (c : HClass) (t : Fin 4) (h : HuffTable) (built : Built h) :
    CommandKept s (s.setHuff c t h) := by
  refine ⟨rfl, rfl, rfl, id, id, id, fun ok c' t' valid => ?_⟩
  rw [huff_setHuff] at valid ⊢
  split at valid
  · rename_i same
    rwa [if_pos same]
  · rename_i other
    rw [if_neg other]
    exact ok c' t' valid

/-- Byte writes at addresses that exist. -/
theorem fill_kept (s : State) (addr : Nat → Nat) (val : Nat → Byte) (n : Nat)
    (inside : ∀ j, j < n → addr j < s.params.memSize) : CommandKept s { s with mem := s.mem.fill addr val n } where
  fault := rfl
  finfo := rfl
  cmd := rfl
  memory := fun ⟨legal, wf, below⟩ =>
    ⟨legal, Memory.fill_wf _ _ _ _ wf, Memory.fill_below _ _ _ _ _ below inside⟩
  accumulator := id
  stream := id
  tables := id

/-- An empty accumulator has no bit to check (R31). -/
theorem accumulatorOk_of_zero (s : State) (acc : s.acc = 0) (cnt : s.cnt = 0) : accumulatorOk s := by
  simp [accumulatorOk, acc, cnt]

/-- Where the command answers a next state, it completed or its fault was latched, in a state that keeps what a command
keeps. -/
def EndsKept (s : State) (o : Host.Outcome State Fault Refusal) : Prop :=
  ∀ t, o = .next t → ∃ u, CommandKept s u ∧ (t = complete u ∨ ∃ c, t = takeFault c u)

theorem endsKept_complete {s u : State} (h : CommandKept s u) : EndsKept s (.next (complete u)) := by
  rintro t ⟨⟩
  exact ⟨u, h, .inl rfl⟩

theorem endsKept_takeFault {s u : State} (c : FaultCode) (h : CommandKept s u) :
    EndsKept s (.next (takeFault c u)) := by
  rintro t ⟨⟩
  exact ⟨u, h, .inr ⟨c, rfl⟩⟩

theorem endsKept_finish {s : State} {m : Eff Unit} (h : m.Leaves (CommandKept s)) : EndsKept s m.finish := by
  cases m with
  | done a u => exact endsKept_complete h
  | raised c u => exact endsKept_takeFault c h
  | stopped f => rintro t ⟨⟩

theorem endsKept_checked {check : Option FaultCode} {body : State → State} {s : State}
    (h : check = none → CommandKept s (body s)) : EndsKept s (checked check body s) := by
  cases check with
  | none => exact endsKept_complete (h rfl)
  | some c => exact endsKept_takeFault c (.refl s)

theorem endsKept_withWidth (n : Nat) {body : State → Eff Word} {s : State} (h : (body s).Leaves (CommandKept s)) :
    EndsKept s (withWidth n body s) := by
  rcases Nat.lt_or_ge 16 n with wide | narrow
  · rw [withWidth_wide n body s wide]
    exact endsKept_takeFault _ (.refl s)
  rcases Nat.eq_zero_or_pos n with rfl | pos
  · rw [withWidth_zero]
    exact endsKept_complete (setRes_kept 0 s)
  · rw [withWidth_body n body s pos narrow]
    exact endsKept_finish (leaves_andThen _ _ _ h fun v s1 _ kept => kept.trans (setRes_kept v s1))

/-! ### Each command keeps it -/

/-- What the checks of BRINIT say when they pass (R101). -/
theorem brinitCheck_none (s : State) :
    brinitCheck s = none ↔ s.arg 1 ≤ s.params.memSize ∧ s.arg 0 ≤ s.arg 1 := by
  simp [brinitCheck, firstFailing_none]

theorem execBrinit_endsKept (s : State) : EndsKept s (execBrinit s) := by
  unfold execBrinit
  refine endsKept_checked fun check => ?_
  obtain ⟨inside, ordered⟩ := (brinitCheck_none s).1 check
  exact ⟨rfl, rfl, rfl, id, fun _ => accumulatorOk_of_zero _ rfl rfl, fun _ => ⟨ordered, inside⟩, id⟩

theorem ensureBits_commandKept (n : Nat) (s : State) : (ensureBits n s).Leaves (CommandKept s) :=
  (ensureBits_kept n s).mono fun _ kept => kept.commandKept

theorem getBits_commandKept (n : Nat) (s : State) : (getBits n s).Leaves (CommandKept s) :=
  (getBits_kept n s).mono fun _ kept => kept.commandKept

theorem execPeek_endsKept (n : Nat) (s : State) : EndsKept s (execPeek n s) := by
  unfold execPeek
  exact endsKept_withWidth n (leaves_andThen _ _ _ (ensureBits_commandKept n s) fun _ _ _ kept => kept)

theorem execRecext_endsKept (n : Nat) (s : State) : EndsKept s (execRecext n s) := by
  unfold execRecext
  exact endsKept_withWidth n (leaves_andThen _ _ _ (getBits_commandKept n s) fun _ _ _ kept => kept)

/-- R112: the ways RSTSYNC ends; ACC and CNT are 0 in every one that leaves a state. -/
theorem rstsync_cases (s : State) :
    (∃ c, rstsync s = .raised c { s with acc := 0, cnt := 0 }) ∨
    (s.params.memSize < s.ipos.toNat + 2 ∧ s.ipos.toNat + 2 ≤ s.iend.toNat ∧ rstsync s = .stopped .outsideMemory) ∨
    (s.ipos.toNat + 2 ≤ s.iend.toNat ∧ ∃ v, rstsync s =
      .done () { s with acc := 0, cnt := 0, ipos := s.ipos + 2, hitend := false, res := v }) := by
  unfold rstsync
  simp only
  split
  · exact .inl ⟨_, rfl⟩
  · rename_i left
    split
    · rename_i past
      exact .inr (.inl ⟨past, by omega, rfl⟩)
    · split
      · exact .inl ⟨_, rfl⟩
      · exact .inr (.inr ⟨by omega, _, rfl⟩)

/-- IPOS does not wrap when two bytes are left before IEND. -/
theorem ipos_add_two (s : State) (h : s.ipos.toNat + 2 ≤ s.iend.toNat) : (s.ipos + 2).toNat = s.ipos.toNat + 2 := by
  have := s.iend.isLt
  have two : (2 : Word).toNat = 2 := rfl
  rw [BitVec.toNat_add, two]
  omega

theorem rstsync_kept (s : State) : (rstsync s).Leaves (CommandKept s) := by
  obtain ⟨c, e⟩ | ⟨_, _, e⟩ | ⟨left, v, e⟩ := rstsync_cases s <;> rw [e]
  · exact ⟨rfl, rfl, rfl, id, fun _ => accumulatorOk_of_zero _ rfl rfl, id, id⟩
  · trivial
  · refine ⟨rfl, rfl, rfl, id, fun _ => accumulatorOk_of_zero _ rfl rfl, fun ⟨_, inside⟩ => ⟨?_, inside⟩, id⟩
    show (s.ipos + 2).toNat ≤ s.iend.toNat
    rwa [ipos_add_two s left]

/-- The table that HBUILD commits is one that R131 builds. -/
theorem built_of_hbuild (s : State) (b : CodeBook) (check : hbuildCheck s = none)
    (book : buildCodes 1 0 0 (huffCounts s) = some b) : Built (builtTable (huffCounts s) (huffSymbols s) b) := by
  have few : huffNsym s ≤ 256 := by
    simp only [hbuildCheck, firstFailing_none] at check
    simpa using check (decide (256 < huffNsym s), .huffBadTable) (by simp)
  exact ⟨_, _, b, huffCounts_length s, huffCounts_lt s, few, huffSymbols_length s, book, rfl⟩

theorem execHbuild_endsKept (c : HClass) (t : Fin 4) (s : State) : EndsKept s (execHbuild c t s) := by
  obtain ⟨f, _, e⟩ | ⟨_, _, e⟩ | ⟨b, check, book, e⟩ := execHbuild_cases c t s <;> rw [e]
  · exact endsKept_takeFault f (.refl s)
  · exact endsKept_takeFault _ (.refl s)
  · exact endsKept_complete (setHuff_kept s c t _ (built_of_hbuild s b check book))

theorem decodeSymbol_kept (h : HuffTable) (s : State) : (decodeSymbol h s).Leaves (CommandKept s) := by
  obtain ⟨n, b, enough, e, _⟩ | e := decodeSymbol_cases h s <;> rw [e]
  · exact (setRes_kept (b.setWidth 32) s).trans (consume_kept n (s.setRes (b.setWidth 32)) enough).commandKept
  · exact .refl s

theorem execHdec_endsKept (c : HClass) (t : Fin 4) (s : State) : EndsKept s (execHdec c t s) := by
  unfold execHdec
  split
  · exact endsKept_finish (leaves_andThen _ _ _ (ensureBits_commandKept 16 s) fun _ s1 _ kept =>
      (decodeSymbol_kept _ s1).mono fun _ => kept.trans)
  · exact endsKept_takeFault _ (.refl s)

/-- Every command keeps what a command keeps, and completes or latches one fault (R231). -/
theorem exec_endsKept (i : Instr) (s : State) : EndsKept s (exec i s) := by
  cases i with
  | brinit => exact execBrinit_endsKept s
  | brreset => exact endsKept_complete ⟨rfl, rfl, rfl, id, fun _ => accumulatorOk_of_zero _ rfl rfl, id, id⟩
  | refill => exact endsKept_finish ((refill_kept s).mono fun _ kept => kept.commandKept)
  | peek n => exact execPeek_endsKept n s
  | getbits n => exact endsKept_withWidth n (getBits_commandKept n s)
  | recext n => exact execRecext_endsKept n s
  | rstsync => exact endsKept_finish (rstsync_kept s)
  | hbuild c t => exact execHbuild_endsKept c t s
  | hdec c t => exact execHdec_endsKept c t s
  | qload t =>
    simp only [exec, execQload]
    exact endsKept_checked fun _ => setQuant_kept s t _
  | idct t =>
    simp only [exec, execIdct]
    exact endsKept_checked fun check => fill_kept s _ _ _ (idctAddr_in_memory t s check)
  | upx =>
    simp only [exec, execUpx]
    exact endsKept_checked fun check => fill_kept s _ _ _ (upsAddr_in_memory s check)
  | upy =>
    simp only [exec, execUpy]
    exact endsKept_checked fun check => fill_kept s _ _ _ (upsAddr_in_memory s check)
  | ycc2rgba =>
    simp only [exec, execYcc2rgba]
    exact endsKept_checked fun check => fill_kept s _ _ _ (rgbaAddr_in_memory _ s check)
  | gray2rgba =>
    simp only [exec, execGray2rgba]
    exact endsKept_checked fun check => fill_kept s _ _ _ (rgbaAddr_in_memory _ s check)

/-! ### Every command answers a next state -/

theorem finish_total (m : Eff Unit) (h : ∀ f, m ≠ .stopped f) : ∃ t, m.finish = .next t := by
  cases m with
  | done a s => exact ⟨_, rfl⟩
  | raised c s => exact ⟨_, rfl⟩
  | stopped f => exact absurd rfl (h f)

/-- A sequence does not stop the machine when its first part and what follows do not. -/
theorem andThen_ne_stopped {α β : Type} {m : Eff α} {k : α → State → Eff β} {f : Fault} (hm : m ≠ .stopped f)
    (hk : ∀ a s, k a s ≠ .stopped f) : m.andThen k ≠ .stopped f := by
  rw [Ne, andThen_eq_stopped]
  rintro (e | ⟨a, s, _, e⟩)
  · exact hm e
  · exact hk a s e

theorem getBits_in_memory (n : Nat) (s : State) (h : s.iend.toNat ≤ s.params.memSize) (f : Fault) :
    getBits n s ≠ .stopped f :=
  andThen_ne_stopped (ensureBits_in_memory n s h f) fun _ s1 => by split <;> simp

theorem rstsync_in_memory (s : State) (h : s.iend.toNat ≤ s.params.memSize) (f : Fault) : rstsync s ≠ .stopped f := by
  obtain ⟨c, e⟩ | ⟨past, left, _⟩ | ⟨_, v, e⟩ := rstsync_cases s
  · simp [e]
  · omega
  · simp [e]

theorem decodeSymbol_ne_stopped (h : HuffTable) (s : State) (f : Fault) : decodeSymbol h s ≠ .stopped f := by
  obtain ⟨n, b, _, e, _⟩ | e := decodeSymbol_cases h s <;> simp [e]

theorem withWidth_total (n : Nat) (body : State → Eff Word) (s : State) (h : ∀ f, body s ≠ .stopped f) :
    ∃ t, withWidth n body s = .next t := by
  rcases Nat.lt_or_ge 16 n with wide | narrow
  · exact ⟨_, withWidth_wide n body s wide⟩
  rcases Nat.eq_zero_or_pos n with rfl | pos
  · exact ⟨_, withWidth_zero body s⟩
  · rw [withWidth_body n body s pos narrow]
    exact finish_total _ fun f => andThen_ne_stopped (h f) fun _ _ => by simp

theorem execHdec_total (c : HClass) (t : Fin 4) (s : State) (h : s.iend.toNat ≤ s.params.memSize) :
    ∃ u, execHdec c t s = .next u := by
  unfold execHdec
  split
  · exact finish_total _ fun f =>
      andThen_ne_stopped (ensureBits_in_memory 16 s h f) fun _ s1 => decodeSymbol_ne_stopped _ s1 f
  · exact ⟨_, rfl⟩

theorem execHbuild_total (c : HClass) (t : Fin 4) (s : State) : ∃ u, execHbuild c t s = .next u := by
  obtain ⟨f, _, e⟩ | ⟨_, _, e⟩ | ⟨b, _, _, e⟩ := execHbuild_cases c t s <;> exact ⟨_, e⟩

/-- With IEND ≤ MEM_SIZE no command stops the machine or is refused (R16, R100). -/
theorem exec_total (i : Instr) (s : State) (h : s.iend.toNat ≤ s.params.memSize) : ∃ t, exec i s = .next t := by
  cases i with
  | brinit =>
    simp only [exec, execBrinit]
    exact checked_total _ _ s
  | brreset => exact ⟨_, rfl⟩
  | refill => exact finish_total _ (refillTurns_in_memory 4 s h)
  | peek n =>
    simp only [exec, execPeek]
    exact withWidth_total n _ s fun f => andThen_ne_stopped (ensureBits_in_memory n s h f) (by simp)
  | getbits n => exact withWidth_total n _ s (getBits_in_memory n s h)
  | recext n =>
    simp only [exec, execRecext]
    exact withWidth_total n _ s fun f => andThen_ne_stopped (getBits_in_memory n s h f) (by simp)
  | rstsync => exact finish_total _ (rstsync_in_memory s h)
  | hbuild c t => exact execHbuild_total c t s
  | hdec c t => exact execHdec_total c t s h
  | qload t =>
    simp only [exec, execQload]
    exact checked_total _ _ s
  | idct t =>
    simp only [exec, execIdct]
    exact checked_total _ _ s
  | upx =>
    simp only [exec, execUpx]
    exact checked_total _ _ s
  | upy =>
    simp only [exec, execUpy]
    exact checked_total _ _ s
  | ycc2rgba =>
    simp only [exec, execYcc2rgba]
    exact checked_total _ _ s
  | gray2rgba =>
    simp only [exec, execGray2rgba]
    exact checked_total _ _ s

/-- A command that answers a next state is no longer running (R26). -/
theorem exec_busy (i : Instr) (s t : State) (h : exec i s = .next t) : t.busy = false := by
  obtain ⟨u, _, rfl | ⟨c, rfl⟩⟩ := exec_endsKept i s t h
  · exact complete_busy u
  · exact takeFault_busy c u

/-- Settles O6: no command stops the machine, and its end is one of the two of R231. -/
theorem everyCommandEnds : Obligations.EveryCommandEnds := by
  refine ⟨fun i s inside => ?_, fun i s t ok run => ?_⟩
  · obtain ⟨t, run⟩ := exec_total i s inside
    exact ⟨t, run, exec_busy i s t run⟩
  · obtain ⟨u, kept, rfl | ⟨c, rfl⟩⟩ := exec_endsKept i s t run
    · exact ⟨rfl, kept.cmd, .inl ⟨kept.fault.trans ok, kept.finfo⟩⟩
    · exact ⟨rfl, kept.cmd, .inr ⟨c, rfl, kept.cmd⟩⟩

/-! ### The invariant -/

theorem Inv.memory {s : State} (h : Inv s) : memoryOk s := h.2.1

/-- No fault is latched while a command runs (R232). -/
theorem Inv.fault_of_busy {s : State} (h : Inv s) (busy : s.busy = true) : s.fault = none := h.1.1 busy

/-- The inbox is no part of the invariant. -/
theorem inv_inbox (s : State) (inbox : List HostEvent) (h : Inv s) : Inv { s with inbox := inbox } := h

/-- Nor are the answers of host reads and the count of draws. -/
theorem inv_answer (s : State) (v : Word) (n : Nat) (h : Inv s) : Inv { s with hostData := v, draws := n } := h

/-- Where no fault is latched, every part of the invariant holds. -/
theorem inv_no_fault (s : State) (h : Inv s) (ok : s.fault = none) :
    s.finfo = 0 ∧ memoryOk s ∧ accumulatorOk s ∧ streamOk s ∧ tablesOk s := by
  obtain ⟨⟨_, finfo⟩, memory, _, rest⟩ := h
  obtain ⟨accumulator, stream, tables⟩ := rest (by simp [ok])
  exact ⟨finfo ok, memory, accumulator, stream, tables⟩

/-- The end of a command that ran with no fault latched keeps the invariant. -/
theorem EndsKept.inv {s t : State} {o : Host.Outcome State Fault Refusal} (ends : EndsKept s o) (h : Inv s)
    (ok : s.fault = none) (e : o = .next t) : Inv t := by
  obtain ⟨finfo, memory, accumulator, stream, tables⟩ := inv_no_fault s h ok
  obtain ⟨u, kept, ended⟩ := ends t e
  have memory' := kept.memory memory
  have accumulator' := kept.accumulator accumulator
  have rest := And.intro accumulator' (And.intro (kept.stream stream) (kept.tables tables))
  rcases ended with rfl | ⟨c, rfl⟩
  · exact ⟨⟨by simp, fun _ => kept.finfo.trans finfo⟩, memory', accumulator'.1, fun _ => rest⟩
  · exact ⟨⟨by simp, by simp⟩, memory', accumulator'.1, fun _ => rest⟩

/-- The run of the word in CMD keeps the invariant, also when it is no command. -/
theorem runCommand_inv (s t : State) (h : Inv s) (busy : s.busy = true) (run : runCommand s = .next t) : Inv t := by
  have ok := h.fault_of_busy busy
  unfold runCommand at run
  split at run
  · exact (exec_endsKept _ s).inv h ok run
  · exact (endsKept_takeFault .illegalCmd (.refl s)).inv h ok run

/-- A reset leads to the invariant from any memory that is in order (R40). -/
theorem clearRegisters_inv (s : State) (h : memoryOk s) : Inv (clearRegisters s) := by
  have stream : streamOk (clearRegisters s) := by simp [streamOk]
  have tables : tablesOk (clearRegisters s) := fun c t valid => by simp at valid
  have accumulator := accumulatorOk_of_zero (clearRegisters s) rfl rfl
  exact ⟨⟨by simp, by simp⟩, h, by simp, fun _ => ⟨accumulator, stream, tables⟩⟩

theorem disturbRegisters_memoryOk (s : State) (h : memoryOk s) : memoryOk (disturbRegisters s) := by
  rw [disturbRegisters_frame]
  exact h

/-- A stopped command leaves CNT in its range (R31). -/
theorem disturbRegisters_cnt (s : State) (h : s.cnt ≤ 32) : (disturbRegisters s).cnt ≤ 32 := by
  unfold disturbRegisters
  split
  · split
    · exact freeWrittenRegisters_cnt _ s h
    · exact h
  · exact h

/-- After BUSY_WRITE the invariant asks only for the latch, memory and the range of CNT (R236). -/
theorem busyWriteFault_inv (info : Word) (s : State) (h : Inv s) : Inv (busyWriteFault info s) := by
  obtain ⟨_, memory, cnt, _⟩ := h
  have cnt' : (disturbMemory s).cnt ≤ 32 := by rw [disturbMemory_frame]; exact cnt
  exact ⟨⟨by simp [busyWriteFault], by simp [busyWriteFault]⟩,
    disturbRegisters_memoryOk _ (disturbMemory_memoryOk s memory), disturbRegisters_cnt _ cnt',
    fun other => absurd rfl other⟩

theorem writeCtrl_inv (v : Word) (s : State) (h : Inv s) : Inv (writeCtrl v s) := by
  unfold writeCtrl
  split
  · exact clearRegisters_inv _ (disturbMemory_memoryOk s h.memory)
  · exact h

theorem writeCmd_inv (v : Word) (s : State) (h : Inv s) : Inv (writeCmd v s) := by
  unfold writeCmd
  split
  · exact busyWriteFault_inv v s h
  · split
    · exact h
    · rename_i unlatched
      obtain ⟨⟨_, finfo⟩, rest⟩ := h
      exact ⟨⟨fun _ => by simpa using unlatched, finfo⟩, rest⟩

theorem writeArg_inv (k : Nat) (v : Word) (s : State) (h : Inv s) : Inv (writeArg k v s) := by
  unfold writeArg
  split
  · exact busyWriteFault_inv _ s h
  · exact h

theorem writeRegister_inv (off : Nat) (v : Word) (s : State) (h : Inv s) : Inv (writeRegister off v s) := by
  unfold writeRegister
  split
  · exact writeCtrl_inv v s h
  · split
    · exact writeCmd_inv v s h
    · split
      · exact writeArg_inv _ v s h
      · exact h

/-- A byte that the host writes where memory exists. -/
theorem memWrite_inv (s : State) (a : Nat) (b : Byte) (h : Inv s) (inside : a < s.params.memSize) :
    Inv { s with mem := s.mem.write a b } := by
  obtain ⟨protocol, ⟨legal, wf, below⟩, rest⟩ := h
  exact ⟨protocol, ⟨legal, Memory.write_wf _ _ _ wf, Memory.write_below _ _ _ _ below inside⟩, rest⟩

/-- Every action of the outside world keeps the invariant. -/
theorem hostAct_inv (a : HostAction) (s t : State) (h : Inv s) (act : hostAct a s = .next t) : Inv t := by
  cases a with
  | regWrite off width v =>
    simp only [hostAct] at act
    split at act <;> cases act
    exact writeRegister_inv off v s h
  | regRead off width =>
    simp only [hostAct] at act
    split at act <;> cases act
    exact inv_answer s _ _ h
  | memWrite addr b =>
    simp only [hostAct] at act
    obtain ⟨inside, _, rfl⟩ := hostMemory_next _ _ s t act
    exact memWrite_inv s addr b h inside
  | memRead addr =>
    simp only [hostAct] at act
    obtain ⟨_, _, rfl⟩ := hostMemory_next _ _ s t act
    exact inv_answer s _ s.draws h
  | hardReset =>
    cases act
    exact clearRegisters_inv _ (disturbMemory_memoryOk s h.memory)

/-- Settles O58, by the cases of a step: the run of a command, or one action of the outside world. -/
theorem stepKeepsTheInvariant : Obligations.StepKeepsTheInvariant := by
  intro s t h run
  obtain ⟨_, _, e⟩ | ⟨busy, _, e⟩ | ⟨event, rest, _, _, e⟩ := step_cases s <;> rw [e] at run
  · cases run
    exact h
  · exact runCommand_inv s t h busy run
  · exact hostAct_inv event.action _ t (inv_inbox s rest h) run

/-! ### The transform in exact integers -/

/-- An integer reduced to s32 is the word that it gives, read as signed (R10). -/
theorem toInt_ofInt_eq_wrap32 (v : Int) : (BitVec.ofInt 32 v).toInt = wrap32 v := by
  rw [BitVec.toInt_ofInt, Int.bmod_def, wrap32]
  split <;> omega

theorem ofInt_sub (a b : Int) : BitVec.ofInt 32 (a - b) = BitVec.ofInt 32 a - BitVec.ofInt 32 b :=
  Int.cast_sub a b

/-- Wrap-around addition is addition in exact integers, reduced to s32. -/
theorem toInt_add_eq_wrap32 (a b : Word) : (a + b).toInt = wrap32 (a.toInt + b.toInt) := by
  rw [← toInt_ofInt_eq_wrap32, BitVec.ofInt_add, BitVec.ofInt_toInt, BitVec.ofInt_toInt]

theorem toInt_mul_eq_wrap32 (a b : Word) : (a * b).toInt = wrap32 (a.toInt * b.toInt) := by
  rw [← toInt_ofInt_eq_wrap32, BitVec.ofInt_mul, BitVec.ofInt_toInt, BitVec.ofInt_toInt]

/-- A rounded shift of the passes: the addend, reduced to s32, then the floor of the quotient (R164, R165). -/
theorem toInt_sshiftRight_add (u c : Word) (n : Nat) :
    ((u + c).sshiftRight n).toInt = wrap32 (u.toInt + c.toInt) / 2 ^ n := by
  rw [BitVec.toInt_sshiftRight, toInt_add_eq_wrap32, Int.shiftRight_eq_div_pow]
  norm_cast

/-- `clamp255` of a word is the clamp of the integer it stands for (R11). -/
theorem toNat_clamp255 (v : Word) : ((clamp255 v).toNat : Int) = clampInt v.toInt := by
  unfold clamp255 clampInt
  split
  · rfl
  · split
    · rfl
    · rename_i low high
      have small : v.toInt = v.toNat := by
        rw [BitVec.toInt_eq_toNat_cond] at low ⊢
        split at low <;> omega
      rw [BitVec.toNat_setWidth, small]
      omega

@[simp] theorem octGet_splat (v : Word) (r : Nat) : octGet (octSplat v) r = v := by
  unfold octGet
  split <;> rfl

@[simp] theorem octGet_map (f : Word → Word) (x : Oct) (r : Nat) : octGet (octMap f x) r = f (octGet x r) := by
  unfold octGet
  split <;> rfl

/-- The row of the table of R173 that a constant stands in. -/
def tableRow : KName → Nat
  | .p0541 => 0
  | .n1847 => 1
  | .p0765 => 2
  | .p1175 => 3
  | .p0298 => 4
  | .p2053 => 5
  | .p3072 => 6
  | .p1501 => 7
  | .n0899 => 8
  | .n2562 => 9
  | .n1961 => 10
  | .n0390 => 11

/-- The model's constants are those of the table of R173. -/
theorem roundedConst_eq_table (m : Config.ConstRound) (k : KName) :
    roundedConst m k = BitVec.ofInt 32 ((tableConstants m).getD (tableRow k) 0) := by
  cases m <;> cases k <;> rfl

/-- R171: the kernel on words is the butterfly in exact integers, reduced once at the end. Whatever the constants are,
reduction commutes with each operation. -/
theorem octGet_kernelR171 (m : Config.ConstRound) (x : Oct) (r : Nat) (h : r < 8) :
    octGet (kernelR171 m x) r =
      BitVec.ofInt 32 (exactButterfly (tableConstants m) (fun k => (octGet x k).toInt) r) := by
  simp only [kernelR171, exactButterfly, roundedConst_eq_table, tableRow]
  generalize tableConstants m = c
  interval_cases r <;> simp [octGet, ofInt_sub, BitVec.ofInt_add, BitVec.ofInt_mul, BitVec.ofInt_toInt]

/-- The kernel parameter at its default. -/
theorem idctKernel_r171 (p : Config.Params) (x : Oct) (h : p.kernel = .r171) :
    idctKernel p x = kernelR171 p.constRound x := by
  simp [idctKernel, h]

/-- The inputs that R172 leaves open. -/
theorem dcOnly_false (x : Oct) (h : (∃ r, 1 ≤ r ∧ r < 8 ∧ octGet x r ≠ 0) ∨ 524288 ≤ x.e0.toInt.natAbs) :
    dcOnly x = false := by
  rw [← Bool.not_eq_true]
  intro dc
  simp only [dcOnly, Bool.and_eq_true, decide_eq_true_eq, and_assoc] at dc
  obtain ⟨h1, h2, h3, h4, h5, h6, h7, small⟩ := dc
  rcases h with ⟨r, _, _, nonzero⟩ | large
  · interval_cases r <;> exact nonzero ‹_›
  · omega

/-- A supplied kernel is used as it stands on the inputs that R172 leaves open (log entry 7). -/
theorem idctKernel_supplied (p : Config.Params) (k : Config.SuppliedKernel) (x : Oct) (h : p.kernel = .supplied k)
    (dc : dcOnly x = false) : idctKernel p x = runKernel k x := by
  simp [idctKernel, h, dc]

/-- The condition of the fast path of R164. -/
theorem columnIsDc_iff (d : Nat → Word) (col : Nat) :
    columnIsDc d col = true ↔ ∀ r, 1 ≤ r → r < 8 → d (8 * r + col) = 0 := by
  simp only [columnIsDc, Bool.and_eq_true, decide_eq_true_eq, and_assoc]
  constructor
  · rintro ⟨h1, h2, h3, h4, h5, h6, h7⟩ r _ _
    interval_cases r <;> assumption
  · intro h
    simp [h 1, h 2, h 3, h 4, h 5, h 6, h 7]

/-- The first pass on a column with only DC (R164). -/
theorem octGet_firstPass_dc (p : Config.Params) (d : Nat → Word) (col row : Nat) (dc : columnIsDc d col = true) :
    (octGet (firstPass p d col) row).toInt = wrap32 ((d col).toInt * 4) := by
  rw [firstPass, if_pos dc, octGet_splat, toInt_mul_eq_wrap32]
  rfl

/-- The first pass on any other column (R164). -/
theorem octGet_firstPass_kernel (p : Config.Params) (d : Nat → Word) (col row : Nat) (dc : ¬ columnIsDc d col = true) :
    (octGet (firstPass p d col) row).toInt =
      wrap32 ((octGet (idctKernel p (octOf fun r => d (8 * r + col))) row).toInt + 512) / 1024 := by
  rw [firstPass, if_neg dc, octGet_map, toInt_sshiftRight_add]
  rfl

/-- A sample of the second pass (R165). -/
theorem toNat_idctSample (p : Config.Params) (d : Nat → Word) (row col : Nat) :
    ((idctSample p d row col).toNat : Int) = clampInt (wrap32
      ((octGet (idctKernel p (octOf fun k => octGet (firstPass p d k) row)) col).toInt + 16842752) / 131072) := by
  rw [idctSample, toNat_clamp255, secondPass, octGet_map, toInt_sshiftRight_add]
  rfl

theorem octOf_congr (f g : Nat → Word) (h : ∀ k, k < 8 → f k = g k) : octOf f = octOf g := by
  simp [octOf, h]

/-- Settles O60: the kernel, the parameter, the first pass and the second, one after another. -/
theorem idctPassesAndKernel : Obligations.IdctPassesAndKernel := by
  refine ⟨fun m x r h => ?_, idctKernel_r171, fun p k x h free => idctKernel_supplied p k x h (dcOnly_false x free),
    fun p d col row _ _ => ⟨fun zero => ?_, fun ⟨r, h1, h8, nonzero⟩ u hu => ?_⟩,
    fun p d row col v _ _ hv u hu => ?_⟩
  · rw [octGet_kernelR171 m x r h, toInt_ofInt_eq_wrap32]
  · exact octGet_firstPass_dc p d col row ((columnIsDc_iff d col).2 zero)
  · have column : octOf (fun r => d (8 * r + col)) =
        ⟨d col, d (8 + col), d (16 + col), d (24 + col), d (32 + col), d (40 + col), d (48 + col), d (56 + col)⟩ := by
      simp [octOf]
    rw [octGet_firstPass_kernel p d col row fun dc => nonzero ((columnIsDc_iff d col).1 dc r h1 h8), column, hu]
  · have scratch : octOf (fun k => octGet (firstPass p d k) row) = octOf v := octOf_congr _ _ fun k hk => (hv k hk).symm
    rw [toNat_idctSample, scratch, hu]
    rfl

end Sys2Proof.Machine
end

section
/-! PROOFS of the statements about the registers (spec/10_state.md). What a command may write is said once, from the
"Writes" line of its rule, and holds of its run and of its stopping half way; the frames, RES, the argument registers,
register reads and BUSY_WRITE follow from it. -/

namespace Sys2Proof.Machine

open Sys2Proof

/-! ### What a command may write -/

/-- `u` differs from `s` only where the rule of command `i` lists a write: the registers of `writtenRegisters`, the
table it loads, the bytes of its write set. (`draws`, which is no part of PJD, is free.) -/
structure WritesOnly (i : Instr) (s u : State) : Prop where
  frame : u = { s with
    res := u.res, ipos := u.ipos, iend := u.iend, acc := u.acc, cnt := u.cnt, hitend := u.hitend, ht := u.ht
    qt := u.qt, mem := u.mem, draws := u.draws }
  res : 0x10 ∉ writtenRegisters i → u.res = s.res
  ipos : 0x14 ∉ writtenRegisters i → u.ipos = s.ipos
  iend : 0x18 ∉ writtenRegisters i → u.iend = s.iend
  acc : 0x1C ∉ writtenRegisters i → u.acc = s.acc
  count : 0x20 ∉ writtenRegisters i → u.cnt = s.cnt ∧ u.hitend = s.hitend
  huff : ∀ c t, i ≠ .hbuild c t → u.huff c t = s.huff c t
  quant : ∀ t, i ≠ .qload t → u.quant t = s.quant t
  bytes : ∀ a, (∀ j, j < writeCount i s → writeAddr i s j ≠ a) → u.mem.read a = s.mem.read a
  mem : writeCount i s = 0 → u.mem = s.mem

theorem WritesOnly.refl (i : Instr) (s : State) : WritesOnly i s s :=
  ⟨rfl, fun _ => rfl, fun _ => rfl, fun _ => rfl, fun _ => rfl, fun _ => ⟨rfl, rfl⟩, fun _ _ _ => rfl, fun _ _ => rfl,
    fun _ _ => rfl, fun _ => rfl⟩

section
variable {i : Instr} {s u : State} (h : WritesOnly i s u)
include h

theorem WritesOnly.params : u.params = s.params := by rw [h.frame]
theorem WritesOnly.busy : u.busy = s.busy := by rw [h.frame]
theorem WritesOnly.fault : u.fault = s.fault := by rw [h.frame]
theorem WritesOnly.finfo : u.finfo = s.finfo := by rw [h.frame]
theorem WritesOnly.cmd : u.cmd = s.cmd := by rw [h.frame]
theorem WritesOnly.args : u.args = s.args := by rw [h.frame]
theorem WritesOnly.inbox : u.inbox = s.inbox := by rw [h.frame]
theorem WritesOnly.hostData : u.hostData = s.hostData := by rw [h.frame]

end

/-- The write set is given by the argument registers alone (R64). -/
theorem writeSet_of_args (i : Instr) (s u : State) (h : u.args = s.args) :
    writeCount i u = writeCount i s ∧ writeAddr i u = writeAddr i s := by
  cases i <;> simp only [writeCount, upsCount, rgbaCount, State.arg, h, true_and] <;> funext j <;>
    simp only [writeAddr, idctAddr, upsAddr, rgbaAddr, State.arg, h]

theorem WritesOnly.trans {i : Instr} {s u v : State} (h : WritesOnly i s u) (h' : WritesOnly i u v) :
    WritesOnly i s v := by
  obtain ⟨count, addr⟩ := writeSet_of_args i s u h.args
  have bytes := h'.bytes
  have mem := h'.mem
  rw [count] at bytes mem
  rw [addr] at bytes
  exact
    { frame := by rw [h'.frame, h.frame]
      res := fun out => (h'.res out).trans (h.res out)
      ipos := fun out => (h'.ipos out).trans (h.ipos out)
      iend := fun out => (h'.iend out).trans (h.iend out)
      acc := fun out => (h'.acc out).trans (h.acc out)
      count := fun out =>
        ⟨(h'.count out).1.trans (h.count out).1, (h'.count out).2.trans (h.count out).2⟩
      huff := fun c t other => (h'.huff c t other).trans (h.huff c t other)
      quant := fun t other => (h'.quant t other).trans (h.quant t other)
      bytes := fun a out => (bytes a out).trans (h.bytes a out)
      mem := fun none => (mem none).trans (h.mem none) }

/-- The positions of the Huffman tables are those of `huffIndex`. -/
theorem huffIndex_surjective : ∀ k : Fin 8, ∃ c t, huffIndex c t = k := by
  intro k
  by_cases dc : k.val < 4
  · exact ⟨.dc, ⟨k.val, dc⟩, rfl⟩
  · exact ⟨.ac, ⟨k.val - 4, by omega⟩, Fin.ext (show 4 + (k.val - 4) = k.val by omega)⟩

theorem ht_ext {s u : State} (h : ∀ c t, u.huff c t = s.huff c t) : u.ht = s.ht := by
  ext k hk : 1
  obtain ⟨c, t, e⟩ := huffIndex_surjective ⟨k, hk⟩
  have := h c t
  rwa [State.huff, State.huff, e] at this

theorem qt_ext {s u : State} (h : ∀ t, u.quant t = s.quant t) : u.qt = s.qt := by
  ext k hk : 1
  exact h ⟨k, hk⟩

/-- A command whose rule lists no valid bit of a table loads no table. -/
theorem WritesOnly.tables {i : Instr} {s u : State} (h : WritesOnly i s u) (out : 0x24 ∉ writtenRegisters i) :
    u.ht = s.ht ∧ u.qt = s.qt :=
  ⟨ht_ext fun c t => h.huff c t (by rintro rfl; simp [writtenRegisters] at out),
    qt_ext fun t => h.quant t (by rintro rfl; simp [writtenRegisters] at out)⟩

/-! ### What the run of a command writes -/

/-- What the pseudocode of command `i` writes from its start `s` to the state `u` where it ends or raises: nothing that
its rule does not list, and no draw. -/
structure CommandWrites (i : Instr) (s u : State) : Prop extends WritesOnly i s u where
  draws : u.draws = s.draws

theorem CommandWrites.refl (i : Instr) (s : State) : CommandWrites i s s := ⟨.refl i s, rfl⟩

theorem CommandWrites.trans {i : Instr} {s u v : State} (h : CommandWrites i s u) (h' : CommandWrites i u v) :
    CommandWrites i s v := ⟨h.toWritesOnly.trans h'.toWritesOnly, h'.draws.trans h.draws⟩

/-- A command that changes registers only, each of them one that its rule lists. -/
theorem writes_of_registers {i : Instr} {s u : State}
    (frame : u = { s with
      res := u.res, ipos := u.ipos, iend := u.iend, acc := u.acc, cnt := u.cnt, hitend := u.hitend })
    (res : 0x10 ∉ writtenRegisters i → u.res = s.res) (ipos : 0x14 ∉ writtenRegisters i → u.ipos = s.ipos)
    (iend : 0x18 ∉ writtenRegisters i → u.iend = s.iend) (acc : 0x1C ∉ writtenRegisters i → u.acc = s.acc)
    (count : 0x20 ∉ writtenRegisters i → u.cnt = s.cnt ∧ u.hitend = s.hitend) : CommandWrites i s u where
  frame := by rw [frame]
  res := res
  ipos := ipos
  iend := iend
  acc := acc
  count := count
  huff _ _ _ := by rw [frame]; rfl
  quant _ _ := by rw [frame]; rfl
  bytes _ _ := by rw [frame]
  mem _ := by rw [frame]
  draws := by rw [frame]

/-- The bit reader is moved by commands whose rules list IPOS, ACC and BR_CNT. -/
theorem SameButReader.writes {i : Instr} {s u : State} (h : SameButReader s u)
    (lists : ∀ off ∈ [0x14, 0x1C, 0x20], off ∈ writtenRegisters i) : CommandWrites i s u := by
  refine writes_of_registers (by rw [h]) (fun _ => by rw [h]) ?_ (fun _ => by rw [h]) ?_ ?_
  all_goals exact absurd (lists _ (by simp))

/-- So it is, together with RES, by commands whose rules list RES too. -/
theorem SameButReaderRes.writes {i : Instr} {s u : State} (h : SameButReaderRes s u)
    (lists : ∀ off ∈ [0x10, 0x14, 0x1C, 0x20], off ∈ writtenRegisters i) : CommandWrites i s u := by
  refine writes_of_registers (by rw [h]) ?_ ?_ (fun _ => by rw [h]) ?_ ?_
  all_goals exact absurd (lists _ (by simp))

/-- BRINIT sets IEND as well. -/
theorem brinit_writes {s u : State}
    (h : u = { s with ipos := u.ipos, iend := u.iend, acc := u.acc, cnt := u.cnt, hitend := u.hitend }) :
    CommandWrites .brinit s u := by
  refine writes_of_registers (by rw [h]) (fun _ => by rw [h]) ?_ ?_ ?_ ?_
  all_goals exact absurd (by simp [writtenRegisters])

/-- BRRESET leaves the stream alone. -/
theorem brreset_writes (s : State) (acc : Word) (cnt : Nat) (hitend : Bool) :
    CommandWrites .brreset s { s with acc := acc, cnt := cnt, hitend := hitend } := by
  refine writes_of_registers rfl (fun _ => rfl) (fun _ => rfl) (fun _ => rfl) ?_ ?_
  all_goals exact absurd (by simp [writtenRegisters])

theorem setHuff_writes (s : State) (c : HClass) (t : Fin 4) (h : HuffTable) :
    CommandWrites (.hbuild c t) s (s.setHuff c t h) :=
  { CommandWrites.refl (.hbuild c t) s with
    frame := rfl
    huff := fun c' t' other => by rw [huff_setHuff, if_neg]; rintro ⟨rfl, rfl⟩; exact other rfl }

theorem setQuant_writes (s : State) (t : Fin 4) (q : QuantTable) : CommandWrites (.qload t) s (s.setQuant t q) :=
  { CommandWrites.refl (.qload t) s with
    frame := rfl
    quant := fun t' other => by rw [quant_setQuant, if_neg]; rintro rfl; exact other rfl }

/-- The byte writes of a command, at the addresses of its write set. -/
theorem fill_writes (i : Instr) (s : State) (val : Nat → Byte) :
    CommandWrites i s { s with mem := s.mem.fill (writeAddr i s) val (writeCount i s) } :=
  { CommandWrites.refl i s with
    frame := rfl
    bytes := fun _ out => Memory.read_fill_ne _ _ _ _ _ out
    mem := fun none => by simp only [none, Memory.fill] }

/-- Where command `i`, started in `s`, answers a next state, it completed or its fault was latched, in a state that
differs from `s` only by what it may write; a fault comes before RES is written. -/
def EndsWriting (i : Instr) (s : State) (o : Host.Outcome State Fault Refusal) : Prop :=
  ∀ t, o = .next t → (∃ u, CommandWrites i s u ∧ t = complete u) ∨
    (∃ c u, CommandWrites i s u ∧ u.res = s.res ∧ t = takeFault c u)

section
variable {i : Instr} {s u : State}

theorem endsWriting_complete (h : CommandWrites i s u) : EndsWriting i s (.next (complete u)) := by
  rintro t ⟨⟩
  exact .inl ⟨u, h, rfl⟩

theorem endsWriting_takeFault (c : FaultCode) (h : CommandWrites i s u) (res : u.res = s.res) :
    EndsWriting i s (.next (takeFault c u)) := by
  rintro t ⟨⟩
  exact .inr ⟨c, u, h, res, rfl⟩

theorem endsWriting_checked (check : Option FaultCode) {body : State → State} (h : CommandWrites i s (body s)) :
    EndsWriting i s (checked check body s) := by
  cases check with
  | none => exact endsWriting_complete h
  | some c => exact endsWriting_takeFault c (.refl i s) rfl

/-- A procedure that moves only the bit reader, and then `k`, which also may write RES when it returns. -/
theorem endsWriting_reader {α : Type} {m : Eff α} {k : α → State → Eff Unit}
    (lists : ∀ off ∈ [0x14, 0x1C, 0x20], off ∈ writtenRegisters i) (moves : m.Leaves (SameButReader s))
    (ends : ∀ a s1, (∃ u, CommandWrites i s1 u ∧ k a s1 = .done () u) ∨ ∃ c, k a s1 = .raised c s1) :
    EndsWriting i s (m.andThen k).finish := by
  cases m with
  | done a s1 =>
    have first : CommandWrites i s s1 := SameButReader.writes moves lists
    obtain ⟨u, second, e⟩ | ⟨c, e⟩ := ends a s1 <;> rw [andThen_done, e]
    · exact endsWriting_complete (first.trans second)
    · exact endsWriting_takeFault c first (by rw [show SameButReader s s1 from moves])
  | raised c s1 =>
    exact endsWriting_takeFault c (SameButReader.writes moves lists) (by rw [show SameButReader s s1 from moves])
  | stopped f => rintro t ⟨⟩

theorem endsWriting_withWidth (n : Nat) {body : State → Eff Word}
    (lists : ∀ off ∈ [0x10, 0x14, 0x1C, 0x20], off ∈ writtenRegisters i)
    (moves : (body s).Leaves (SameButReader s)) : EndsWriting i s (withWidth n body s) := by
  rcases Nat.lt_or_ge 16 n with wide | narrow
  · rw [withWidth_wide n body s wide]
    exact endsWriting_takeFault _ (.refl i s) rfl
  rcases Nat.eq_zero_or_pos n with rfl | pos
  · rw [withWidth_zero]
    exact endsWriting_complete (SameButReaderRes.writes rfl lists)
  · rw [withWidth_body n body s pos narrow]
    exact endsWriting_reader (fun off mem => lists off (List.mem_cons_of_mem _ mem)) moves fun v s1 =>
      .inl ⟨s1.setRes v, SameButReaderRes.writes rfl lists, rfl⟩

end

theorem ensureBits_moves (n : Nat) (s : State) : (ensureBits n s).Leaves (SameButReader s) :=
  (ensureBits_kept n s).mono fun _ kept => kept.frame

theorem getBits_moves (n : Nat) (s : State) : (getBits n s).Leaves (SameButReader s) :=
  (getBits_kept n s).mono fun _ kept => kept.frame

theorem execPeek_endsWriting (n : Nat) (s : State) : EndsWriting (.peek n) s (execPeek n s) := by
  unfold execPeek
  exact endsWriting_withWidth n (by simp [writtenRegisters])
    (leaves_andThen _ _ _ (ensureBits_moves n s) fun _ _ _ moved => moved)

theorem execRecext_endsWriting (n : Nat) (s : State) : EndsWriting (.recext n) s (execRecext n s) := by
  unfold execRecext
  exact endsWriting_withWidth n (by simp [writtenRegisters])
    (leaves_andThen _ _ _ (getBits_moves n s) fun _ _ _ moved => moved)

theorem execRefill_endsWriting (s : State) : EndsWriting .refill s (execRefill s) := by
  have moves := (refill_kept s).mono fun _ kept => kept.frame
  unfold execRefill
  cases e : refill s with
  | done a u =>
    rw [e] at moves
    exact endsWriting_complete (SameButReader.writes moves (by simp [writtenRegisters]))
  | raised c u =>
    rw [e] at moves
    exact endsWriting_takeFault c (SameButReader.writes moves (by simp [writtenRegisters]))
      (by rw [show SameButReader s u from moves])
  | stopped f => rintro t ⟨⟩

theorem execRstsync_endsWriting (s : State) : EndsWriting .rstsync s (execRstsync s) := by
  have writes {u : State} (h : SameButReaderRes s u) : CommandWrites .rstsync s u :=
    h.writes (by simp [writtenRegisters])
  unfold execRstsync
  obtain ⟨c, e⟩ | ⟨_, _, e⟩ | ⟨_, v, e⟩ := rstsync_cases s <;> rw [e]
  · exact endsWriting_takeFault c (writes rfl) rfl
  · rintro t ⟨⟩
  · exact endsWriting_complete (writes rfl)

theorem execHdec_endsWriting (c : HClass) (t : Fin 4) (s : State) : EndsWriting (.hdec c t) s (execHdec c t s) := by
  unfold execHdec
  split
  · refine endsWriting_reader (by simp [writtenRegisters]) (ensureBits_moves 16 s) fun _ s1 => ?_
    obtain ⟨n, b, _, e, _⟩ | e := decodeSymbol_cases (s1.huff c t) s1
    · exact .inl ⟨_, SameButReaderRes.writes (u := consume n (s1.setRes (b.setWidth 32))) rfl
        (by simp [writtenRegisters]), e⟩
    · exact .inr ⟨_, e⟩
  · exact endsWriting_takeFault _ (.refl _ s) rfl

theorem execHbuild_endsWriting (c : HClass) (t : Fin 4) (s : State) :
    EndsWriting (.hbuild c t) s (execHbuild c t s) := by
  obtain ⟨f, _, e⟩ | ⟨_, _, e⟩ | ⟨b, _, _, e⟩ := execHbuild_cases c t s <;> rw [e]
  · exact endsWriting_takeFault f (.refl _ s) rfl
  · exact endsWriting_takeFault _ (.refl _ s) rfl
  · exact endsWriting_complete (setHuff_writes s c t _)

/-- Every command writes only what its rule lists, and RES only when it completes. -/
theorem exec_endsWriting (i : Instr) (s : State) : EndsWriting i s (exec i s) := by
  cases i with
  | brinit =>
    simp only [exec, execBrinit]
    exact endsWriting_checked _ (brinit_writes rfl)
  | brreset => exact endsWriting_complete (brreset_writes s 0 0 false)
  | refill => exact execRefill_endsWriting s
  | peek n => exact execPeek_endsWriting n s
  | getbits n => exact endsWriting_withWidth n (by simp [writtenRegisters]) (getBits_moves n s)
  | recext n => exact execRecext_endsWriting n s
  | rstsync => exact execRstsync_endsWriting s
  | hbuild c t => exact execHbuild_endsWriting c t s
  | hdec c t => exact execHdec_endsWriting c t s
  | qload t =>
    simp only [exec, execQload]
    exact endsWriting_checked _ (setQuant_writes s t _)
  | idct t =>
    simp only [exec, execIdct]
    exact endsWriting_checked _ (fill_writes (.idct t) s _)
  | upx =>
    simp only [exec, execUpx]
    exact endsWriting_checked _ (fill_writes .upx s _)
  | upy =>
    simp only [exec, execUpy]
    exact endsWriting_checked _ (fill_writes .upy s _)
  | ycc2rgba =>
    simp only [exec, execYcc2rgba]
    exact endsWriting_checked _ (fill_writes .ycc2rgba s _)
  | gray2rgba =>
    simp only [exec, execGray2rgba]
    exact endsWriting_checked _ (fill_writes .gray2rgba s _)

/-! ### The frames of the commands -/

/-- The state in which a command ends is the one its pseudocode leaves, completed or with a fault latched. -/
theorem exec_writes {i : Instr} {s t : State} (run : exec i s = .next t) :
    ∃ u, CommandWrites i s u ∧ (t = complete u ∨ ∃ c, t = takeFault c u) := by
  obtain ⟨u, writes, e⟩ | ⟨c, u, writes, _, e⟩ := exec_endsWriting i s t run
  · exact ⟨u, writes, .inl e⟩
  · exact ⟨u, writes, .inr ⟨c, e⟩⟩

/-- No command writes an argument register (R29). -/
theorem exec_args {i : Instr} {s t : State} (run : exec i s = .next t) : t.args = s.args := by
  obtain ⟨u, writes, rfl | ⟨c, rfl⟩⟩ := exec_writes run <;> exact writes.args

/-- The commands that may write RES (R28). -/
theorem res_mem_writtenRegisters (i : Instr) (h : 0x10 ∈ writtenRegisters i) :
    (∃ n, i = .peek n) ∨ (∃ n, i = .getbits n) ∨ (∃ n, i = .recext n) ∨ i = .rstsync ∨ ∃ c n, i = .hdec c n := by
  cases i <;> simp [writtenRegisters] at h ⊢

/-- Settles O13: a command that completes writes RES only if its rule lists it, and a fault comes before that write. -/
theorem otherCommandsKeepRes : Obligations.OtherCommandsKeepRes := by
  intro i s t ok run
  obtain ⟨u, writes, rfl⟩ | ⟨c, u, _, res, rfl⟩ := exec_endsWriting i s t run
  · have unfaulted : (complete u).fault = none := writes.fault.trans ok
    refine ⟨fun _ => ?_, absurd unfaulted⟩
    by_cases lists : 0x10 ∈ writtenRegisters i
    · have five := res_mem_writtenRegisters i lists
      simp only [← or_assoc] at five ⊢
      exact .inl five
    · exact .inr (.inr (.inr (.inr (.inr (writes.res lists)))))
  · exact ⟨fun none => by simp at none, fun _ => res⟩

/-- What holds of the reader commands: they load no table and write no byte, and only BRINIT writes IEND. -/
theorem reader_writes_no_table (i : Instr) (s : State)
    (reader : i ∈ [.brinit, .brreset, .refill, .rstsync] ∨ (∃ n, i = .peek n) ∨ (∃ n, i = .getbits n) ∨
      (∃ n, i = .recext n) ∨ (∃ c n, i = .hdec c n)) :
    0x24 ∉ writtenRegisters i ∧ writeCount i s = 0 ∧ (i ≠ .brinit → 0x18 ∉ writtenRegisters i) := by
  cases i <;> simp [writtenRegisters, writeCount] at reader ⊢

/-- Settles O31: a reader command loads no table and has an empty write set. -/
theorem readerCommandsFrame : Obligations.ReaderCommandsFrame := by
  intro i s t reader run
  obtain ⟨noTable, noByte, noEnd⟩ := reader_writes_no_table i s reader
  obtain ⟨u, writes, ended⟩ := exec_writes run
  obtain ⟨ht, qt⟩ := writes.tables noTable
  have mem := writes.mem noByte
  have frame := writes.frame
  rw [ht, qt, mem, writes.draws] at frame
  have iend (other : i ≠ .brinit) : u.iend = s.iend := writes.iend (noEnd other)
  have bytes (a : Nat) : u.mem.read a = s.mem.read a := by rw [mem]
  rcases ended with rfl | ⟨c, rfl⟩
  · exact ⟨by rw [frame]; rfl, iend, bytes⟩
  · exact ⟨by rw [frame]; rfl, iend, bytes⟩

/-- The commands on memory and tables list no register but TBL_STATUS. -/
theorem memoryAndTable_writes_no_register (i : Instr)
    (other : i ∈ [.upx, .upy, .ycc2rgba, .gray2rgba] ∨ (∃ n, i = .idct n) ∨ (∃ n, i = .qload n) ∨
      (∃ c n, i = .hbuild c n)) : ∀ off ∈ writtenRegisters i, off = 0x24 := by
  cases i <;> simp [writtenRegisters] at other ⊢

/-- Settles O56: a command on memory or tables lists no register of the reader and not RES. -/
theorem memoryAndTableCommandsFrame : Obligations.MemoryAndTableCommandsFrame := by
  intro i s t other run
  have out (off : Nat) (ne : off ≠ 0x24) : off ∉ writtenRegisters i :=
    fun lists => ne (memoryAndTable_writes_no_register i other off lists)
  obtain ⟨u, writes, ended⟩ := exec_writes run
  obtain ⟨cnt, hitend⟩ := writes.count (out _ (by decide))
  have frame := writes.frame
  rw [writes.res (out _ (by decide)), writes.ipos (out _ (by decide)), writes.iend (out _ (by decide)),
    writes.acc (out _ (by decide)), cnt, hitend, writes.draws] at frame
  rcases ended with rfl | ⟨c, rfl⟩
  · exact ⟨by rw [frame]; rfl, writes.huff, writes.quant, writes.bytes⟩
  · exact ⟨by rw [frame]; rfl, writes.huff, writes.quant, writes.bytes⟩

/-! ### The fields of the status words -/

section
open BitVec (getLsbD_append extractLsb'_append_eq_of_le extractLsb'_append_eq_left extractLsb'_append_eq_right)

/-- BUSY is bit 0 of STATUS (R26). -/
theorem statusWord_busy (s : State) : s.statusWord.getLsbD 0 = s.busy := by
  simp only [State.statusWord, getLsbD_append]
  simp

/-- FAULT is bit 1. -/
theorem statusWord_fault (s : State) : s.statusWord.getLsbD 1 = s.fault.isSome := by
  simp only [State.statusWord, getLsbD_append]
  simp

/-- The bits of STATUS above BUSY and FAULT. -/
theorem statusWord_high (s : State) (start len : Nat) (h : 2 ≤ start) :
    s.statusWord.extractLsb' start len =
      (0#16 ++ fcodeField s.fault ++ 0#6 : BitVec 30).extractLsb' (start - 2) len := by
  unfold State.statusWord
  rw [extractLsb'_append_eq_of_le (v := 31) (w := 1) (by omega),
    extractLsb'_append_eq_of_le (v := 30) (w := 1) (by omega), Nat.sub_sub]

/-- FCODE is bits 15:8. -/
theorem statusWord_fcode (s : State) : s.statusWord.extractLsb' 8 8 = fcodeField s.fault := by
  rw [statusWord_high s 8 8 (by decide), extractLsb'_append_eq_of_le (v := 24) (w := 6) (by decide)]
  exact extractLsb'_append_eq_right (w := 16) (w' := 8)

theorem statusWord_reserved (s : State) :
    s.statusWord.extractLsb' 2 6 = 0 ∧ s.statusWord.extractLsb' 16 16 = 0 := by
  rw [statusWord_high s 2 6 (by decide), statusWord_high s 16 16 (by decide)]
  refine ⟨extractLsb'_append_eq_right (w := 24) (w' := 6), ?_⟩
  rw [extractLsb'_append_eq_of_le (v := 24) (w := 6) (by decide)]
  exact extractLsb'_append_eq_left (w := 16) (w' := 8)

/-- STATUS of an idle machine with no fault is 0. -/
theorem statusWord_zero (s : State) (busy : s.busy = false) (fault : s.fault = none) : s.statusWord = 0 := by
  rw [State.statusWord, busy, fault]
  decide

/-- CNT is bits 5:0 of BR_CNT (R31). -/
theorem brCntWord_cnt (s : State) : s.brCntWord.extractLsb' 0 6 = BitVec.ofNat 6 s.cnt :=
  extractLsb'_append_eq_right (w := 26) (w' := 6)

/-- HITEND is bit 8. -/
theorem brCntWord_hitend (s : State) : s.brCntWord.getLsbD 8 = s.hitend := by
  simp only [State.brCntWord, getLsbD_append]
  simp

theorem brCntWord_reserved (s : State) :
    s.brCntWord.extractLsb' 6 2 = 0 ∧ s.brCntWord.extractLsb' 9 23 = 0 := by
  unfold State.brCntWord
  rw [extractLsb'_append_eq_of_le (v := 26) (w := 6) (by decide),
    extractLsb'_append_eq_of_le (v := 26) (w := 6) (by decide)]
  refine ⟨extractLsb'_append_eq_right (w := 24) (w' := 2), ?_⟩
  rw [extractLsb'_append_eq_of_le (v := 24) (w := 2) (by decide)]
  exact extractLsb'_append_eq_left (w := 23) (w' := 1)

/-- BR_CNT of an empty accumulator before a marker is 0. -/
theorem brCntWord_zero (s : State) (cnt : s.cnt = 0) (hitend : s.hitend = false) : s.brCntWord = 0 := by
  rw [State.brCntWord, cnt, hitend]
  decide

/-- TBL_STATUS (R32). -/
theorem tblStatusWord_bits (s : State) (t : Fin 4) :
    s.tblStatusWord.getLsbD t.val = (s.huff .dc t).hvalid ∧
      s.tblStatusWord.getLsbD (4 + t.val) = (s.huff .ac t).hvalid ∧
      s.tblStatusWord.getLsbD (8 + t.val) = (s.quant t).qvalid := by
  simp only [State.tblStatusWord, State.qvalidBits, State.hvalidBits, getLsbD_append]
  fin_cases t <;> simp

theorem tblStatusWord_reserved (s : State) : s.tblStatusWord.extractLsb' 12 20 = 0 := by
  unfold State.tblStatusWord
  rw [extractLsb'_append_eq_of_le (v := 28) (w := 4) (by decide),
    extractLsb'_append_eq_of_le (v := 24) (w := 4) (by decide)]
  exact extractLsb'_append_eq_left (w := 20) (w' := 4)

/-- A table status with no valid table is 0. -/
theorem tblStatusWord_zero (s : State) (huff : ∀ c t, (s.huff c t).hvalid = false)
    (quant : ∀ t, (s.quant t).qvalid = false) : s.tblStatusWord = 0 := by
  simp only [State.tblStatusWord, State.qvalidBits, State.hvalidBits, huff, quant]
  rfl

end

/-- Settles O9, from the fields of STATUS and BR_CNT. -/
theorem statusAndReaderRegisters : Obligations.StatusAndReaderRegisters := by
  refine ⟨fun s => ?_, fun s range => ⟨rfl, rfl, rfl, ?_, brCntWord_hitend s, brCntWord_reserved s⟩⟩
  · obtain ⟨low, high⟩ := statusWord_reserved s
    have fcode {f : Option FaultCode} (h : s.fault = f) : s.statusWord.extractLsb' 8 8 = fcodeField f := by
      rw [statusWord_fcode, h]
    exact ⟨statusWord_busy s, statusWord_fault s, low, high, fcode, fun c => fcode⟩
  · have cnt : ((readRegister 0x20 s).extractLsb' 0 6).toNat = s.cnt % 64 := congrArg BitVec.toNat (brCntWord_cnt s)
    omega

/-- The state after reset has no valid table (R40). -/
theorem reset_no_table : (∀ c t, (State.reset.huff c t).hvalid = false) ∧
    ∀ t, (State.reset.quant t).qvalid = false := by
  simp [State.reset, State.huff, State.quant, Vector.get_eq_getElem, HuffTable.atReset, QuantTable.atReset]

/-- Settles O57: after reset the latch, memory, the accumulator and the stream are empty, and no table is valid. -/
theorem runsBeginInTheInvariant : Obligations.RunsBeginInTheInvariant := by
  intro p inbox legal
  have protocol : protocolOk { State.reset with params := p, inbox := inbox } := ⟨fun _ => rfl, fun _ => rfl⟩
  have accumulator := accumulatorOk_of_zero { State.reset with params := p, inbox := inbox } rfl rfl
  have stream : streamOk { State.reset with params := p, inbox := inbox } := by simp [streamOk, State.reset]
  have tables : tablesOk { State.reset with params := p, inbox := inbox } := fun c t valid =>
    absurd (valid.symm.trans (reset_no_table.1 c t)) (by decide)
  exact ⟨protocol, ⟨legal, rfl, rfl⟩, Nat.zero_le _, fun _ => ⟨accumulator, stream, tables⟩⟩

/-! ### A command that is stopped -/

/-- The registers that take free values are those that the rule lists (R236). -/
theorem freeWrittenRegisters_writes (i : Instr) (s : State) : CommandWrites i s (freeWrittenRegisters i s) := by
  have readerRes {i : Instr} (lists : ∀ off ∈ [0x10, 0x14, 0x1C, 0x20], off ∈ writtenRegisters i) :
      CommandWrites i s s.freeReader.freeRes := SameButReaderRes.writes rfl lists
  cases i with
  | brinit => exact brinit_writes rfl
  | brreset => exact brreset_writes s _ _ _
  | refill => exact SameButReader.writes rfl (by simp [writtenRegisters])
  | peek n => exact readerRes (by simp [writtenRegisters])
  | getbits n => exact readerRes (by simp [writtenRegisters])
  | recext n => exact readerRes (by simp [writtenRegisters])
  | rstsync => exact readerRes (by simp [writtenRegisters])
  | hbuild c t => exact setHuff_writes s c t _
  | hdec c t => exact readerRes (by simp [writtenRegisters])
  | qload t => exact setQuant_writes s t _
  | idct t => exact .refl _ s
  | upx => exact .refl _ s
  | upy => exact .refl _ s
  | ycc2rgba => exact .refl _ s
  | gray2rgba => exact .refl _ s

theorem freeWrittenMemory_writes (i : Instr) (s : State) : CommandWrites i s (freeWrittenMemory i s) :=
  { CommandWrites.refl i s with
    frame := rfl
    bytes := freeWrittenMemory_read i s
    mem := fun none => by simp only [freeWrittenMemory, none, Memory.fillBelow] }

theorem WritesOnly.withDraws {i : Instr} {s u : State} (h : WritesOnly i s u) (n : Nat) :
    WritesOnly i s { u with draws := n } :=
  { h with frame := by rw [h.frame] }

theorem disturbRegisters_writesOnly {i : Instr} (s : State) (dec : decode s.cmd = .ok i) :
    WritesOnly i s (disturbRegisters s) := by
  unfold disturbRegisters
  split
  · rw [dec]
    exact (freeWrittenRegisters_writes i s).toWritesOnly.withDraws _
  · exact .refl i s

theorem disturbMemory_writesOnly {i : Instr} (s : State) (dec : decode s.cmd = .ok i) :
    WritesOnly i s (disturbMemory s) := by
  unfold disturbMemory
  split
  · rw [dec]
    exact (freeWrittenMemory_writes i s).toWritesOnly.withDraws _
  · exact .refl i s

theorem disturbMemory_cmd (s : State) : (disturbMemory s).cmd = s.cmd := by rw [disturbMemory_frame]

/-- A stopped command has written only what its rule lists. -/
theorem disturb_writesOnly {i : Instr} (s : State) (dec : decode s.cmd = .ok i) :
    WritesOnly i s (disturbRegisters (disturbMemory s)) := by
  have dec' : decode (disturbMemory s).cmd = .ok i := by rw [disturbMemory_cmd, dec]
  exact (disturbMemory_writesOnly s dec).trans (disturbRegisters_writesOnly _ dec')

/-- A word that is no command can write nothing. -/
theorem disturbRegisters_of_error (s : State) (e : DecodeError) (dec : decode s.cmd = .error e) :
    disturbRegisters s = s := by
  simp [disturbRegisters, dec]

/-- BUSY_WRITE leaves the argument registers alone, whatever word is in CMD. -/
theorem busyWriteFault_args (info : Word) (s : State) : (busyWriteFault info s).args = s.args := by
  rw [busyWriteFault, latchFault_args, disturbRegisters_frame, disturbMemory_frame]

/-! ### Reading a register -/

/-- STATUS is a view of BUSY and the fault latch. -/
theorem statusWord_congr {s u : State} (busy : u.busy = s.busy) (fault : u.fault = s.fault) :
    u.statusWord = s.statusWord := by
  simp only [State.statusWord, busy, fault]

/-- BR_CNT is a view of CNT and HITEND. -/
theorem brCntWord_congr {s u : State} (h : u.cnt = s.cnt ∧ u.hitend = s.hitend) : u.brCntWord = s.brCntWord := by
  simp only [State.brCntWord, h]

/-- TBL_STATUS is a view of the tables. -/
theorem tblStatusWord_congr {s u : State} (h : u.ht = s.ht ∧ u.qt = s.qt) : u.tblStatusWord = s.tblStatusWord := by
  simp only [State.tblStatusWord, State.qvalidBits, State.hvalidBits, State.quant, State.huff, h]

theorem disturbRegisters_statusWord (s : State) : (disturbRegisters s).statusWord = s.statusWord := by
  rw [disturbRegisters_frame]
  rfl

/-- A register that the rule of command `i` does not list reads as before. -/
theorem WritesOnly.readRegister {i : Instr} {s u : State} (h : WritesOnly i s u) (off : Nat)
    (out : off ∉ writtenRegisters i) : readRegister off u = readRegister off s := by
  unfold Machine.readRegister
  split
  · rfl
  · exact statusWord_congr h.busy h.fault
  · exact h.cmd
  · exact h.res out
  · exact h.ipos out
  · exact h.iend out
  · exact h.acc out
  · exact brCntWord_congr (h.count out)
  · exact tblStatusWord_congr (h.tables out)
  · exact h.finfo
  · rw [h.args]

theorem readRegister_arg (k : Fin 8) (s : State) : readRegister (0x40 + 4 * k.val) s = s.args.get k := by
  fin_cases k <;> rfl

/-- Reserved offsets read 0 (R34). -/
theorem readRegister_reserved (off : Nat) (s : State)
    (h : off ∈ [0x2C, 0x30, 0x34, 0x38, 0x3C, 0x60, 0x64, 0x68, 0x6C, 0x70, 0x74, 0x78, 0x7C]) :
    readRegister off s = 0 := by
  fin_cases h <;> rfl

/-! ### One access of the host -/

/-- On an action's turn the step is that action. -/
theorem step_of_actionTurn {s : State} {a : HostAction} {rest : List HostEvent} (turn : actionTurn s a rest) :
    step s = hostAct a { s with inbox := rest } := by
  obtain ⟨early, inbox, lands⟩ := turn
  obtain ⟨nothing, _, _⟩ | ⟨busy, late, _⟩ | ⟨e, rest', inbox', _, act⟩ := step_cases s
  · simp [inbox] at nothing
  · exact absurd (late _ _ inbox) (by simp [lands busy])
  · rw [inbox, List.cons.injEq] at inbox'
    obtain ⟨rfl, rfl⟩ := inbox'
    exact act

theorem registerAccessOk_iff (off width : Nat) :
    registerAccessOk off width = true ↔ width = 4 ∧ off % 4 = 0 ∧ off < 128 := by
  simp [registerAccessOk, and_assoc]

theorem step_regWrite {s : State} {off : Nat} {v : Word} {rest : List HostEvent}
    (turn : actionTurn s (.regWrite off 4 v) rest) (aligned : off % 4 = 0) (inside : off < 128) :
    step s = .next (writeRegister off v { s with inbox := rest }) := by
  rw [step_of_actionTurn turn, hostAct, if_pos ((registerAccessOk_iff off 4).2 ⟨rfl, aligned, inside⟩)]

theorem step_regRead {s : State} {off : Nat} {rest : List HostEvent} (turn : actionTurn s (.regRead off 4) rest)
    (aligned : off % 4 = 0) (inside : off < 128) :
    step s = .next (hostReadRegister off { s with inbox := rest }) := by
  rw [step_of_actionTurn turn, hostAct, if_pos ((registerAccessOk_iff off 4).2 ⟨rfl, aligned, inside⟩)]

theorem hostAct_bad_access (off width : Nat) (s : State) (bad : width ≠ 4 ∨ off % 4 ≠ 0) :
    (∀ v, hostAct (.regWrite off width v) s = .refused .badRegisterAccess) ∧
      hostAct (.regRead off width) s = .refused .badRegisterAccess := by
  have refused : ¬registerAccessOk off width = true := by
    rw [registerAccessOk_iff]
    omega
  exact ⟨fun v => if_neg refused, if_neg refused⟩

/-! ### Writing a register -/

theorem writeRegister_ctrl (v : Word) (s : State) : writeRegister 0x04 v s = writeCtrl v s := rfl

theorem writeRegister_cmd (v : Word) (s : State) : writeRegister 0x0C v s = writeCmd v s := rfl

theorem writeRegister_arg (k : Nat) (v : Word) (s : State) (h : k < 8) :
    writeRegister (0x40 + 4 * k) v s = writeArg k v s := by
  rw [writeRegister, if_neg (by omega), if_neg (by omega), if_pos (by omega)]
  congr 1
  omega

/-- Only CTRL, CMD and the argument registers are written (R22). -/
theorem writeRegister_ignored (off : Nat) (v : Word) (s : State) (ctrl : off ≠ 0x04) (cmd : off ≠ 0x0C)
    (arg : off < 0x40 ∨ 0x60 ≤ off) : writeRegister off v s = s := by
  rw [writeRegister, if_neg ctrl, if_neg cmd, if_neg (by omega)]

/-- The four kinds of register write. -/
theorem writeRegister_cases (off : Nat) (aligned : off % 4 = 0) :
    off = 0x04 ∨ off = 0x0C ∨ (∃ k, k < 8 ∧ off = 0x40 + 4 * k) ∨
      ∀ v s, writeRegister off v s = s := by
  by_cases ctrl : off = 0x04
  · exact .inl ctrl
  by_cases cmd : off = 0x0C
  · exact .inr (.inl cmd)
  by_cases arg : 0x40 ≤ off ∧ off < 0x60
  · exact .inr (.inr (.inl ⟨(off - 0x40) / 4, by omega, by omega⟩))
  · exact .inr (.inr (.inr fun v s => writeRegister_ignored off v s ctrl cmd (by omega)))

theorem writeCmd_faulted (v : Word) (s : State) (busy : s.busy = false) (fault : s.fault ≠ none) :
    writeCmd v s = s := by
  simp [writeCmd, busy, Option.isSome_iff_ne_none, fault]

theorem writeCmd_idle (v : Word) (s : State) (busy : s.busy = false) (fault : s.fault = none) :
    writeCmd v s = { s with cmd := v, busy := true } := by
  simp [writeCmd, busy, fault]

theorem writeCmd_busy (v : Word) (s : State) (busy : s.busy = true) : writeCmd v s = busyWriteFault v s := by
  simp [writeCmd, busy]

theorem writeArg_idle (k : Nat) (v : Word) (s : State) (busy : s.busy = false) :
    writeArg k v s = { s with args := s.args.setIfInBounds k v } := by
  simp [writeArg, busy]

theorem writeArg_busy (k : Nat) (v : Word) (s : State) (busy : s.busy = true) :
    writeArg k v s = busyWriteFault 0xFFFFFFFF s := by
  simp [writeArg, busy]

theorem writeCtrl_ignored (v : Word) (s : State) (bit : v.getLsbD 0 = false) : writeCtrl v s = s := by
  rw [writeCtrl, bit]
  rfl

theorem writeCtrl_reset (v : Word) (s : State) (bit : v.getLsbD 0 = true) : writeCtrl v s = softReset s := if_pos bit

theorem hostReadRegister_idle (off : Nat) (s : State) (busy : s.busy = false) :
    hostReadRegister off s = { s with hostData := readRegister off s } := by
  rw [hostReadRegister, disturbRegisters_idle s busy]

theorem get_setIfInBounds_same {n : Nat} (xs : Vector Word n) (k : Fin n) (v : Word) :
    (xs.setIfInBounds k.val v).get k = v := by
  simp [Vector.get_eq_getElem]

theorem get_setIfInBounds_other {n : Nat} (xs : Vector Word n) {j k : Fin n} (v : Word) (h : k ≠ j) :
    (xs.setIfInBounds k.val v).get j = xs.get j := by
  have : k.val ≠ j.val := fun e => h (Fin.ext e)
  simp [Vector.get_eq_getElem, this]

/-- Settles O7: the branches of a CMD write by BUSY and FAULT. -/
theorem cmdRegister : Obligations.CmdRegister := by
  intro s w rest turn
  have write : step s = .next (writeCmd w { s with inbox := rest }) := step_regWrite turn (by decide) (by decide)
  refine ⟨fun idle ok => ⟨?_, fun i dec ready => ?_⟩, fun idle faulted => ?_, fun busy => ?_, rfl⟩
  · exact write.trans (congrArg _ (writeCmd_idle w _ idle ok))
  · exact stepRunsTheCommandInCmd.1 _ i ready dec
  · exact write.trans (congrArg _ (writeCmd_faulted w _ idle faulted))
  · exact ⟨_, write.trans (congrArg _ (writeCmd_busy w _ busy)), rfl, rfl, rfl⟩

/-- Settles O8: an argument register changes only by a host write with BUSY = 0. -/
theorem argRegisters : Obligations.ArgRegisters := by
  refine ⟨fun s k v rest turn => ?_, fun i s t run => exec_args run⟩
  have write : step s = .next (writeArg k.val v { s with inbox := rest }) := by
    rw [step_regWrite turn (by omega) (by omega), writeRegister_arg _ _ _ k.isLt]
  refine ⟨fun idle => ?_, fun busy => ?_⟩
  · refine ⟨_, write.trans (congrArg _ (writeArg_idle k v _ idle)), rfl, ?_, ?_, fun j other => ?_⟩
    · exact get_setIfInBounds_same s.args k v
    · rw [readRegister_arg]
      exact get_setIfInBounds_same s.args k v
    · exact get_setIfInBounds_other s.args v (Ne.symm other)
  · exact ⟨_, write.trans (congrArg _ (writeArg_busy k v _ busy)), rfl, rfl, rfl, busyWriteFault_args _ _⟩

/-- Settles O11: with BUSY = 0 nothing is disturbed, and a running command disturbs only what its rule lists. -/
theorem registerReads : Obligations.RegisterReads := by
  intro s off rest aligned inside turn
  have read := step_regRead turn aligned inside
  have status : (disturbRegisters { s with inbox := rest }).statusWord = s.statusWord :=
    disturbRegisters_statusWord { s with inbox := rest }
  refine ⟨fun idle => ?_, fun busy => ⟨_, read, rfl, fun i dec out => ?_, fun e dec => ?_, ?_⟩, ?_, ?_, ?_, ?_⟩
  · exact read.trans (congrArg _ (hostReadRegister_idle off _ idle))
  · exact (disturbRegisters_writesOnly { s with inbox := rest } dec).readRegister off out
  · have kept := disturbRegisters_of_error { s with inbox := rest } e dec
    exact (congrArg (readRegister off) kept).trans rfl
  · rintro rfl
    exact ⟨status, (congrArg (BitVec.getLsbD · 0) status).trans ((statusWord_busy s).trans busy)⟩
  all_goals
    rintro rfl
    rfl

/-- Settles O12: only CTRL, CMD and the argument registers are written, and CTRL acts by bit 0 alone. -/
theorem writesWithoutEffectAndBadAccesses : Obligations.WritesWithoutEffectAndBadAccesses := by
  refine ⟨fun s off v rest listed turn => ?_, fun s v rest bit turn => ?_, fun s off v rest listed => ?_,
    fun s off width v rest bad => ⟨fun turn => ?_, fun turn => ?_⟩⟩
  · have kind : off % 4 = 0 ∧ off < 0x40 ∧ off ≠ 0x04 ∧ off ≠ 0x0C := by
      clear turn
      revert off
      decide
    obtain ⟨aligned, inside, ctrl, cmd⟩ := kind
    rw [step_regWrite turn aligned (by omega), writeRegister_ignored off v _ ctrl cmd (.inl inside)]
  · rw [step_regWrite turn (by decide) (by decide), writeRegister_ctrl, writeCtrl_ignored v _ bit]
  · refine ⟨readRegister_reserved off s listed, fun turn => ?_⟩
    have kind : off % 4 = 0 ∧ off < 128 ∧ off ≠ 0x04 ∧ off ≠ 0x0C ∧ (off < 0x40 ∨ 0x60 ≤ off) := by
      clear turn
      revert off
      decide
    obtain ⟨aligned, inside, ctrl, cmd, arg⟩ := kind
    rw [step_regWrite turn aligned inside, writeRegister_ignored off v _ ctrl cmd arg]
  · rw [step_of_actionTurn turn]
    exact (hostAct_bad_access off width _ bad).1 v
  · rw [step_of_actionTurn turn]
    exact (hostAct_bad_access off width _ bad).2

/-- Settles O17: the stopped command has written only what its rule lists. -/
theorem busyWriteStopsTheCommand : Obligations.BusyWriteStopsTheCommand := by
  intro s i off v rest busy dec which turn
  have write : step s = .next (busyWriteFault (if off = 0x0C then v else 0xFFFFFFFF) { s with inbox := rest }) := by
    obtain rfl | ⟨k, hk, rfl⟩ := which
    · exact (step_regWrite turn (by decide) (by decide)).trans (congrArg _ (writeCmd_busy v _ busy))
    · rw [step_regWrite turn (by omega) (by omega), writeRegister_arg _ _ _ hk, if_neg (by omega)]
      exact congrArg _ (writeArg_busy k v _ busy)
  have stopped := disturb_writesOnly { s with inbox := rest } dec
  exact ⟨_, write, rfl, rfl, rfl, stopped.cmd, stopped.args, stopped.params, stopped.inbox, stopped.hostData,
    stopped.res, stopped.ipos, stopped.iend, stopped.acc, stopped.count, stopped.bytes, stopped.huff, stopped.quant⟩

/-- Settles O10: each bit of TBL_STATUS is a valid bit, and a write to it is ignored. -/
theorem tblStatusBits : Obligations.TblStatusBits := by
  refine ⟨fun s t => ?_, tblStatusWord_zero _ reset_no_table.1 reset_no_table.2, fun s v rest turn => ?_⟩
  · obtain ⟨dc, ac, quant⟩ := tblStatusWord_bits s t
    exact ⟨dc, ac, quant, tblStatusWord_reserved s⟩
  · rw [step_regWrite turn (by decide) (by decide),
      writeRegister_ignored 0x24 v _ (by decide) (by decide) (.inl (by decide))]

/-! ### Resets and latched faults -/

/-- Both resets lead to the state of R40, from memory as a stopped command leaves it (R260, R261). -/
theorem step_of_reset {s : State} {a : HostAction} {rest : List HostEvent} (turn : actionTurn s a rest)
    (reset : a = .hardReset ∨ ∃ v : Word, v.getLsbD 0 = true ∧ a = .regWrite 0x04 4 v) :
    step s = .next (clearRegisters (disturbMemory { s with inbox := rest })) := by
  obtain rfl | ⟨v, bit, rfl⟩ := reset
  · exact step_of_actionTurn turn
  · exact (step_regWrite turn (by decide) (by decide)).trans (congrArg _ (writeCtrl_reset v _ bit))

/-- Settles O18: both resets clear the registers. -/
theorem stateAfterReset : Obligations.StateAfterReset := by
  intro s a rest turn reset
  refine ⟨_, step_of_reset turn reset, rfl, rfl, statusWord_zero _ rfl rfl, rfl, rfl, rfl, rfl,
    brCntWord_zero _ rfl rfl, ?_, rfl, fun k => ?_, rfl, rfl, rfl, rfl, rfl, clearRegisters_hvalid _,
    clearRegisters_qvalid _⟩
  · exact tblStatusWord_zero _ (clearRegisters_hvalid _) (clearRegisters_qvalid _)
  · simp [Vector.get_eq_getElem]

/-- What an action other than a reset does while a fault is latched: it may answer a read, write memory if it is a
memory write, and write an argument register if it is a write to one (R232). -/
structure LatchKept (a : HostAction) (s t : State) : Prop where
  frame : t = { s with mem := t.mem, args := t.args, hostData := t.hostData }
  mem : t.mem = s.mem ∨ ∃ addr b, a = .memWrite addr b
  args : t.args = s.args ∨ ∃ k v, k < 8 ∧ a = .regWrite (0x40 + 4 * k) 4 v

theorem LatchKept.of_answer (a : HostAction) (s : State) (v : Word) : LatchKept a s { s with hostData := v } :=
  ⟨rfl, .inl rfl, .inl rfl⟩

/-- A register write while a fault is latched resets by CTRL, or keeps the latch. -/
theorem writeRegister_latched (off : Nat) (v : Word) (s : State) (aligned : off % 4 = 0) (idle : s.busy = false)
    (fault : s.fault ≠ none) :
    (off = 0x04 ∧ v.getLsbD 0 = true) ∨ LatchKept (.regWrite off 4 v) s (writeRegister off v s) := by
  obtain rfl | rfl | ⟨k, hk, rfl⟩ | ignored := writeRegister_cases off aligned
  · cases bit : v.getLsbD 0 with
    | true => exact .inl ⟨rfl, rfl⟩
    | false =>
      rw [writeRegister_ctrl, writeCtrl_ignored v s bit]
      exact .inr (.of_answer _ s s.hostData)
  · rw [writeRegister_cmd, writeCmd_faulted v s idle fault]
    exact .inr (.of_answer _ s s.hostData)
  · rw [writeRegister_arg k v s hk, writeArg_idle k v s idle]
    exact .inr ⟨rfl, .inl rfl, .inr ⟨k, v, hk, rfl⟩⟩
  · rw [ignored v s]
    exact .inr (.of_answer _ s s.hostData)

/-- An action of the outside world while a fault is latched is a reset, or keeps the latch. -/
theorem hostAct_latched (a : HostAction) (s t : State) (idle : s.busy = false) (fault : s.fault ≠ none)
    (act : hostAct a s = .next t) :
    LatchKept a s t ∨ a = .hardReset ∨ ∃ v, a = .regWrite 0x04 4 v ∧ v.getLsbD 0 = true := by
  cases a with
  | regWrite off width v =>
    simp only [hostAct] at act
    split at act <;> cases act
    rename_i ok
    obtain ⟨rfl, aligned, _⟩ := (registerAccessOk_iff off width).1 ok
    obtain ⟨rfl, bit⟩ | kept := writeRegister_latched off v s aligned idle fault
    · exact .inr (.inr ⟨v, rfl, bit⟩)
    · exact .inl kept
  | regRead off width =>
    simp only [hostAct] at act
    split at act <;> cases act
    rw [hostReadRegister_idle off s idle]
    exact .inl (.of_answer _ s _)
  | memWrite addr b =>
    simp only [hostAct] at act
    obtain ⟨_, _, rfl⟩ := hostMemory_next _ _ s t act
    exact .inl ⟨rfl, .inr ⟨addr, b, rfl⟩, .inl rfl⟩
  | memRead addr =>
    simp only [hostAct] at act
    obtain ⟨_, _, rfl⟩ := hostMemory_next _ _ s t act
    exact .inl (.of_answer _ s _)
  | hardReset => exact .inr (.inl rfl)

/-- Settles O16: with BUSY = 0 a step idles or takes one action, and only a reset clears the latch. -/
theorem faultStaysUntilReset : Obligations.FaultStaysUntilReset := by
  intro s t c idle fault run
  obtain ⟨_, _, e⟩ | ⟨busy, _⟩ | ⟨⟨early, a⟩, rest, inbox, _, e⟩ := step_cases s
  · rw [e] at run
    cases run
    exact .inl ⟨fault, rfl, idle, rfl, rfl, rfl, rfl, rfl, rfl, rfl, rfl, rfl, .inl rfl, .inl rfl⟩
  · simp [idle] at busy
  · rw [e] at run
    obtain ⟨frame, mem, args⟩ | rfl | ⟨v, rfl, bit⟩ :=
      hostAct_latched a { s with inbox := rest } t idle (by simp [fault]) run
    · rw [frame]
      refine .inl ⟨fault, rfl, idle, rfl, rfl, rfl, rfl, rfl, rfl, rfl, rfl, rfl, mem.imp_right ?_, args.imp_right ?_⟩
      · rintro ⟨addr, b, rfl⟩
        exact ⟨early, addr, b, rest, inbox⟩
      · rintro ⟨k, v, hk, rfl⟩
        exact ⟨early, k, v, rest, hk, inbox⟩
    · exact .inr (.inl ⟨early, rest, inbox⟩)
    · exact .inr (.inr ⟨early, v, rest, inbox, bit⟩)

end Sys2Proof.Machine
end

section
/-! PROOFS of the statements about the data memory (spec/20_memory.md). The checks of a command are read in their
order, and its read set and write set are tied to what its checks ask; host accesses and resets follow from the cases
of a step. The table that HBUILD commits is written in closed form over the code lengths, from the recurrence of
R130. -/

namespace Sys2Proof.Machine

open Sys2Proof

/-! ### The order of the checks -/

theorem hullsMeet_true (lo1 hi1 lo2 hi2 : Nat) : hullsMeet lo1 hi1 lo2 hi2 = true ↔ lo1 ≤ hi2 ∧ lo2 ≤ hi1 := by
  simp [hullsMeet]

theorem outOfRange_true (s : State) (hi : Nat) : outOfRange s hi = true ↔ s.params.memSize ≤ hi := by
  simp [outOfRange]

/-- The check at the head fails. -/
theorem firstFailing_bad {bad : Bool} (h : bad = true) (c : FaultCode) (rest : List (Bool × FaultCode)) :
    firstFailing ((bad, c) :: rest) = some c := by
  rw [firstFailing_cons, if_pos h]

/-- The check at the head passes, so the later ones decide. -/
theorem firstFailing_good {bad : Bool} (h : bad = false) (c : FaultCode) (rest : List (Bool × FaultCode)) :
    firstFailing ((bad, c) :: rest) = firstFailing rest := by
  rw [firstFailing_cons, h, if_neg Bool.false_ne_true]

/-- The first failing check raises its fault, and nothing else changes (R12, R231). -/
theorem checked_some {check : Option FaultCode} {c : FaultCode} (h : check = some c) (body : State → State)
    (s : State) :
    checked check body s = .next { s with fault := some c, finfo := s.cmd, busy := false } := by
  rw [h]
  rfl

/-- Settles O47, check by check in the order of R163. -/
theorem idctFaultOrder : Obligations.IdctFaultOrder := by
  intro t s
  simp only [exec, execIdct]
  refine ⟨fun invalid => checked_some ?_ _ s, fun valid narrow => checked_some ?_ _ s,
    fun valid wide range => checked_some ?_ _ s, fun valid wide source target below above => checked_some ?_ _ s⟩ <;>
    rw [idctCheck]
  · exact firstFailing_bad (by simp [invalid]) _ _
  · rw [firstFailing_good (by simp [valid])]
    exact firstFailing_bad (by simp [narrow]) _ _
  · rw [firstFailing_good (by simp [valid]), firstFailing_good (by simp [wide])]
    refine firstFailing_bad ?_ _ _
    simp only [Bool.or_eq_true, outOfRange_true]
    omega
  · rw [firstFailing_good (by simp [valid]), firstFailing_good (by simp [wide]), firstFailing_good]
    · exact firstFailing_bad ((hullsMeet_true _ _ _ _).2 ⟨below, above⟩) _ _
    · simp only [Bool.or_eq_false_iff, outOfRange_false]
      omega

/-- A failing check of UPX or UPY raises its fault (R190). -/
theorem exec_upsample_fault {i : Instr} {s : State} {c : FaultCode} (ups : i = .upx ∨ i = .upy)
    (h : upsCheck s = some c) :
    exec i s = .next { s with fault := some c, finfo := s.cmd, busy := false } := by
  obtain rfl | rfl := ups
  · simp only [exec, execUpx]
    exact checked_some h _ s
  · simp only [exec, execUpy]
    exact checked_some h _ s

/-- The size check of UPX and UPY passes. -/
theorem upsSizes_good (s : State) (w1 : 1 ≤ s.arg 2) (w2 : s.arg 2 ≤ 65536) (h1 : 1 ≤ s.arg 3)
    (h2 : s.arg 3 ≤ 65536) :
    (decide (s.arg 2 < 1) || decide (65536 < s.arg 2) || decide (s.arg 3 < 1) || decide (65536 < s.arg 3)) =
      false := by
  simp only [Bool.or_eq_false_iff, decide_eq_false_iff_not]
  omega

/-- Settles O50, check by check in the order of R190. -/
theorem upsampleFaultOrder : Obligations.UpsampleFaultOrder := by
  rintro i s _ _ ups rfl rfl
  refine ⟨fun sizes => exec_upsample_fault ups ?_, fun w1 w2 h1 h2 range => exec_upsample_fault ups ?_,
    fun w1 w2 h1 h2 source target below above => exec_upsample_fault ups ?_⟩ <;>
    rw [upsCheck]
  · refine firstFailing_bad ?_ _ _
    simp only [Bool.or_eq_true, decide_eq_true_eq]
    omega
  · have pos := Nat.mul_le_mul w1 h1
    rw [firstFailing_good (upsSizes_good s w1 w2 h1 h2)]
    refine firstFailing_bad ?_ _ _
    simp only [Bool.or_eq_true, outOfRange_true, upsCount]
    omega
  · have pos := Nat.mul_le_mul w1 h1
    rw [firstFailing_good (upsSizes_good s w1 w2 h1 h2), firstFailing_good]
    · refine firstFailing_bad ((hullsMeet_true _ _ _ _).2 ?_) _ _
      simp only [upsCount]
      omega
    · simp only [Bool.or_eq_false_iff, outOfRange_false, upsCount]
      omega

/-- A failing check of YCC2RGBA or GRAY2RGBA raises its fault (R210, R213). -/
theorem exec_colour_fault {i : Instr} {s : State} {planes : List Nat} {c : FaultCode}
    (colour : (i = .ycc2rgba ∧ planes = [s.arg 0, s.arg 1, s.arg 2]) ∨ (i = .gray2rgba ∧ planes = [s.arg 0]))
    (h : colorCheck planes s = some c) :
    exec i s = .next { s with fault := some c, finfo := s.cmd, busy := false } := by
  obtain ⟨rfl, rfl⟩ | ⟨rfl, rfl⟩ := colour
  · simp only [exec, execYcc2rgba, yccPlanes]
    exact checked_some h _ s
  · simp only [exec, execGray2rgba, grayPlanes]
    exact checked_some h _ s

/-- The size and stride check of the colour commands passes. -/
theorem colourSizes_good (s : State) (w1 : 1 ≤ s.arg 5) (w2 : s.arg 5 ≤ 65535) (h1 : 1 ≤ s.arg 6)
    (h2 : s.arg 6 ≤ 65535) (stride : s.arg 5 ≤ s.arg 3) :
    (decide (s.arg 5 < 1) || decide (65535 < s.arg 5) || decide (s.arg 6 < 1) || decide (65535 < s.arg 6)
      || decide (s.arg 3 < s.arg 5)) = false := by
  simp only [Bool.or_eq_false_iff, decide_eq_false_iff_not]
  omega

/-- One past the last byte of a plane that has a column (R210). -/
theorem planeLast_succ (s : State) (p : Nat) (w1 : 1 ≤ s.arg 5) :
    planeLast s p + 1 = p + (s.arg 6 - 1) * s.arg 3 + s.arg 5 := by
  simp only [planeLast]
  omega

/-- Settles O55, check by check in the order of R210. -/
theorem colourFaultOrder : Obligations.ColourFaultOrder := by
  rintro i s planes _ _ colour rfl rfl
  refine ⟨fun sizes => exec_colour_fault colour ?_, fun w1 w2 h1 h2 stride range => exec_colour_fault colour ?_,
    fun w1 w2 h1 h2 stride sources target meet => exec_colour_fault colour ?_⟩ <;>
    rw [colorCheck]
  · refine firstFailing_bad ?_ _ _
    simp only [Bool.or_eq_true, decide_eq_true_eq]
    omega
  · have pos := Nat.mul_le_mul w1 h1
    rw [firstFailing_good (colourSizes_good s w1 w2 h1 h2 stride)]
    refine firstFailing_bad ?_ _ _
    simp only [Bool.or_eq_true, List.any_eq_true, outOfRange_true, rgbaCount]
    refine range.imp (fun ⟨p, mem, past⟩ => ⟨p, mem, ?_⟩) (fun past => by omega)
    have := planeLast_succ s p w1
    omega
  · have pos := Nat.mul_le_mul w1 h1
    obtain ⟨p, mem, below, above⟩ := meet
    rw [firstFailing_good (colourSizes_good s w1 w2 h1 h2 stride), firstFailing_good]
    · refine firstFailing_bad ?_ _ _
      have := planeLast_succ s p w1
      simp only [List.any_eq_true, hullsMeet_true, rgbaCount]
      exact ⟨p, mem, by omega, by omega⟩
    · simp only [Bool.or_eq_false_iff, List.any_eq_false, Bool.not_eq_true, outOfRange_false, rgbaCount]
      refine ⟨fun q mem' => ?_, by omega⟩
      have inside := sources q mem'
      have := planeLast_succ s q w1
      omega

/-! ### Host accesses to the data memory -/

/-- The hazard of R271 is the read set and the write set of the running command. -/
theorem memoryHazardAt_eq (s : State) (a : Nat) (i : Instr) (dec : decode s.cmd = .ok i) :
    memoryHazardAt a s = (s.busy && (readsByte i s a || writesByte i s a)) := by
  simp only [memoryHazardAt, dec]

/-- The inbox is no operand of a command. -/
theorem memoryHazardAt_inbox (s : State) (a : Nat) (rest : List HostEvent) :
    memoryHazardAt a { s with inbox := rest } = memoryHazardAt a s := rfl

/-- No hazard while idle. -/
theorem memoryHazardAt_idle (s : State) (a : Nat) (idle : s.busy = false) : memoryHazardAt a s = false := by
  simp [memoryHazardAt, idle]

/-- An access to a byte that exists and that the running command does not use is performed (R60, R271). -/
theorem hostMemory_performed (a : Nat) (access : State → State) (s : State) (inside : a < s.params.memSize)
    (free : memoryHazardAt a s = false) : hostMemory a access s = .next (access s) := by
  rw [hostMemory, if_neg (by omega), if_neg (by simp [free])]

theorem hostMemory_refused (a : Nat) (access : State → State) (s : State) (inside : a < s.params.memSize)
    (hazard : memoryHazardAt a s = true) : hostMemory a access s = .refused .memoryHazard := by
  rw [hostMemory, if_neg (by omega), if_pos hazard]

theorem hostMemory_outside (a : Nat) (access : State → State) (s : State) (outside : s.params.memSize ≤ a) :
    hostMemory a access s = .fault .outsideMemory := by
  rw [hostMemory, if_pos outside]

/-- Settles O14, by the cases of a host access: performed, in the hazard, past the end. -/
theorem hostMemoryAccess : Obligations.HostMemoryAccess := by
  intro s a b rest
  refine ⟨fun turn inside unused => ?_, fun turn inside idle => ?_, fun turn inside used => ?_,
    fun turn outside => ?_⟩ <;>
    rw [step_of_actionTurn turn, hostAct]
  · have free : memoryHazardAt a s = false := by
      obtain idle | ⟨i, dec, reads, writes⟩ := unused
      · exact memoryHazardAt_idle s a idle
      · simp [memoryHazardAt_eq s a i dec, reads, writes]
    exact ⟨_, hostMemory_performed a _ _ inside free, rfl, Memory.read_write_same s.mem a b,
      Memory.read_write_ne s.mem a b⟩
  · exact hostMemory_performed a _ _ inside (memoryHazardAt_idle s a idle)
  · obtain ⟨busy, i, dec, uses⟩ := used
    have hazard : memoryHazardAt a s = true := by
      simpa [memoryHazardAt_eq s a i dec, busy] using uses
    exact hostMemory_refused a _ _ inside hazard
  · exact hostMemory_outside a _ _ outside

/-! ### What a reset keeps -/

/-- A running command that is stopped leaves every byte of its write set that exists free (R261, 93 I5). -/
theorem disturbMemory_free {s : State} {i : Instr} (busy : s.busy = true) (dec : decode s.cmd = .ok i) (j : Nat)
    (hj : j < writeCount i s) (inside : writeAddr i s j < s.params.memSize) :
    (disturbMemory s).mem.read (writeAddr i s j) = freeByte s.draws (writeAddr i s j) := by
  rw [disturbMemory, if_pos busy, dec]
  exact freeWrittenMemory_free i s j hj inside

theorem disturbMemory_params (s : State) : (disturbMemory s).params = s.params := by rw [disturbMemory_frame]

/-- Settles O19: a reset changes memory only as the stopping of the running command does. -/
theorem resetKeepsMemory : Obligations.ResetKeepsMemory := by
  intro s t a rest turn reset run
  rw [step_of_reset turn reset, Host.Outcome.next.injEq] at run
  subst run
  obtain ⟨count, addr⟩ : (∀ i, writeCount i { s with inbox := rest } = writeCount i s) ∧
      ∀ i, writeAddr i { s with inbox := rest } = writeAddr i s :=
    ⟨fun i => (writeSet_of_args i s _ rfl).1, fun i => (writeSet_of_args i s _ rfl).2⟩
  refine ⟨disturbMemory_params _, fun idle => ?_, fun i dec x out => ?_, fun i busy dec j hj inside => ?_⟩
  · rw [clearRegisters_mem, disturbMemory_idle { s with inbox := rest } idle]
  · exact disturbMemory_read { s with inbox := rest } i dec x (by rwa [count, addr])
  · rw [← addr] at inside ⊢
    exact disturbMemory_free (s := { s with inbox := rest }) busy dec j (by rwa [count]) inside

/-! ### The read set and the write set of a command that completes -/

/-- The only action of the outside world that stops the machine is an access past the end of memory. -/
theorem hostAct_fault (a : HostAction) (s : State) (f : Fault) (act : hostAct a s = .fault f) :
    ∃ addr, s.params.memSize ≤ addr ∧ ((∃ b, a = .memWrite addr b) ∨ a = .memRead addr) := by
  have outside (addr : Nat) (access : State → State) (h : hostMemory addr access s = .fault f) :
      s.params.memSize ≤ addr := by
    by_contra inside
    rw [hostMemory, if_neg inside] at h
    split at h <;> cases h
  cases a with
  | regWrite off width v =>
    rw [hostAct] at act
    split at act <;> cases act
  | regRead off width =>
    rw [hostAct] at act
    split at act <;> cases act
  | memWrite addr b =>
    simp only [hostAct] at act
    exact ⟨addr, outside addr _ act, .inl ⟨b, rfl⟩⟩
  | memRead addr =>
    simp only [hostAct] at act
    exact ⟨addr, outside addr _ act, .inr rfl⟩
  | hardReset => cases act

/-- In the invariant the run of the word in CMD answers a next state (R100). -/
theorem runCommand_total (s : State) (h : Inv s) (busy : s.busy = true) : ∃ t, runCommand s = .next t := by
  obtain ⟨_, _, _, ⟨_, inside⟩, _⟩ := inv_no_fault s h (h.fault_of_busy busy)
  unfold runCommand
  split
  · exact exec_total _ s inside
  · exact ⟨_, rfl⟩

/-- In the invariant a step stops the machine only for a host access past the end of memory. -/
theorem step_fault_of_inv (s : State) (f : Fault) (h : Inv s) (run : step s = .fault f) :
    ∃ early rest a, s.params.memSize ≤ a ∧
      ((∃ b, s.inbox = ⟨early, .memWrite a b⟩ :: rest) ∨ s.inbox = ⟨early, .memRead a⟩ :: rest) := by
  obtain ⟨_, _, e⟩ | ⟨busy, _, e⟩ | ⟨⟨early, a⟩, rest, inbox, _, e⟩ := step_cases s <;> rw [e] at run
  · cases run
  · obtain ⟨t, total⟩ := runCommand_total s h busy
    rw [total] at run
    cases run
  · obtain ⟨addr, outside, ⟨b, rfl⟩ | rfl⟩ := hostAct_fault a _ f run
    · exact ⟨early, rest, addr, outside, .inl ⟨b, inbox⟩⟩
    · exact ⟨early, rest, addr, outside, .inr inbox⟩

/-- Every state of a run is in the invariant. -/
theorem Reachable.inv {s : State} (run : Reachable s) : Inv s := by
  induction run with
  | start p inbox legal => exact runsBeginInTheInvariant p inbox legal
  | step s t _ e ih => exact stepKeepsTheInvariant s t ih e

/-- A command with checks that completes has passed them. -/
theorem checked_completes {check : Option FaultCode} {body : State → State} {s t : State}
    (run : checked check body s = .next t) (ok : t.fault = none) : check = none := by
  obtain ⟨none, _⟩ | ⟨c, _, rfl⟩ := checked_next check body s t run
  · exact none
  · cases ok

/-- What the checks of HBUILD say when they pass (R131); the counts exist where the symbols do. -/
theorem hbuildCheck_none (s : State) :
    hbuildCheck s = none ↔ s.arg 0 + 16 + huffNsym s ≤ s.params.memSize ∧ huffNsym s ≤ 256 := by
  simp only [hbuildCheck, firstFailing_none, List.mem_cons, List.not_mem_nil, or_false, forall_eq_or_imp, forall_eq,
    decide_eq_false_iff_not]
  omega

/-- HBUILD completes only where its checks pass. -/
theorem execHbuild_completes {c : HClass} {t : Fin 4} {s u : State} (run : execHbuild c t s = .next u)
    (ok : u.fault = none) : hbuildCheck s = none := by
  obtain ⟨f, _, e⟩ | ⟨check, _, _⟩ | ⟨b, check, _, _⟩ := execHbuild_cases c t s
  · rw [e] at run
    cases run
    cases ok
  · exact check
  · exact check

/-- What the check of QLOAD says when it passes (R160). -/
theorem qloadCheck_none (s : State) : qloadCheck s = none ↔ s.arg 0 + 64 ≤ s.params.memSize := by
  simp only [qloadCheck, firstFailing_none, List.mem_singleton, forall_eq, outOfRange_false]
  omega

/-- The source plane of UPX and UPY exists where their checks pass (R190). -/
theorem upsCheck_source {s : State} (h : upsCheck s = none) : s.arg 0 + upsCount s ≤ s.params.memSize := by
  obtain ⟨_, source, _⟩ := (upsCheck_none s).1 h
  omega

/-- A byte of a block that ends inside the data memory exists. -/
theorem lt_of_within {lo hi size a : Nat} (inside : hi ≤ size) (h : (decide (lo ≤ a) && decide (a < hi)) = true) :
    a < size := by
  simp only [Bool.and_eq_true, decide_eq_true_eq] at h
  omega

/-- A byte of a plane whose last byte exists. -/
theorem lt_of_planes {planes : List Nat} {s : State} {a : Nat} (inside : ∀ p ∈ planes, planeLast s p < s.params.memSize)
    (h : (planes.any fun p => decide (p ≤ a) && decide (a < planeLast s p + 1)) = true) : a < s.params.memSize := by
  obtain ⟨p, mem, within⟩ := List.any_eq_true.1 h
  exact lt_of_within (inside p mem) within

/-- The read set and the write set of the command exist (R64). -/
structure SetsInMemory (i : Instr) (s : State) : Prop where
  reads : ∀ a, readsByte i s a = true → a < s.params.memSize
  writes : ∀ j, j < writeCount i s → writeAddr i s j < s.params.memSize

/-- A command that writes no byte has only its read set to check. -/
theorem SetsInMemory.of_reads {i : Instr} {s : State} (none : writeCount i s = 0)
    (reads : ∀ a, readsByte i s a = true → a < s.params.memSize) : SetsInMemory i s :=
  ⟨reads, fun j hj => by omega⟩

/-- A command that completes has checked its sets; the bit reader is bounded by IEND (R100). -/
theorem exec_completes_inside (i : Instr) (s t : State) (stream : s.iend.toNat ≤ s.params.memSize)
    (run : exec i s = .next t) (ok : t.fault = none) : SetsInMemory i s := by
  cases i with
  | brinit => exact .of_reads rfl fun _ => lt_of_within stream
  | brreset => exact .of_reads rfl fun _ => lt_of_within stream
  | refill => exact .of_reads rfl fun _ => lt_of_within stream
  | peek n => exact .of_reads rfl fun _ => lt_of_within stream
  | getbits n => exact .of_reads rfl fun _ => lt_of_within stream
  | recext n => exact .of_reads rfl fun _ => lt_of_within stream
  | rstsync => exact .of_reads rfl fun _ => lt_of_within stream
  | hdec c t => exact .of_reads rfl fun _ => lt_of_within stream
  | hbuild c t =>
    obtain ⟨input, _⟩ := (hbuildCheck_none s).1 (execHbuild_completes run ok)
    exact .of_reads rfl fun _ => lt_of_within input
  | qload t =>
    simp only [exec, execQload] at run
    have passed := (qloadCheck_none s).1 (checked_completes run ok)
    exact .of_reads rfl fun _ => lt_of_within passed
  | idct t =>
    simp only [exec, execIdct] at run
    have check := checked_completes run ok
    obtain ⟨_, _, source, _⟩ := (idctCheck_none t s).1 check
    exact ⟨fun _ => lt_of_within source, idctAddr_in_memory t s check⟩
  | upx =>
    simp only [exec, execUpx] at run
    have check := checked_completes run ok
    exact ⟨fun _ => lt_of_within (upsCheck_source check), upsAddr_in_memory s check⟩
  | upy =>
    simp only [exec, execUpy] at run
    have check := checked_completes run ok
    exact ⟨fun _ => lt_of_within (upsCheck_source check), upsAddr_in_memory s check⟩
  | ycc2rgba =>
    simp only [exec, execYcc2rgba] at run
    have check := checked_completes run ok
    obtain ⟨_, planes, _⟩ := (colorCheck_none _ s).1 check
    exact ⟨fun _ => lt_of_planes planes, rgbaAddr_in_memory _ s check⟩
  | gray2rgba =>
    simp only [exec, execGray2rgba] at run
    have check := checked_completes run ok
    obtain ⟨_, planes, _⟩ := (colorCheck_none _ s).1 check
    exact ⟨fun _ => lt_of_planes planes, rgbaAddr_in_memory _ s check⟩

/-- Settles O59: the steps from the invariant, the runs, and the sets of a command that completes. -/
theorem noCommandReadsOutsideMemory : Obligations.NoCommandReadsOutsideMemory :=
  ⟨step_fault_of_inv, fun s f run => step_fault_of_inv s f run.inv, fun i s t _ stream run ok =>
    have sets := exec_completes_inside i s t stream run ok
    ⟨sets.reads, sets.writes⟩⟩


/-! ### The code lengths of a list of counts -/

/-- Every code of length i fits its length (R131): the acceptance condition of HBUILD at that length. -/
def CodesFit (counts : List Nat) (i : Nat) : Prop :=
  0 < countOf counts i → firstCode counts i + countOf counts i ≤ 2 ^ i

/-- The code book of R130 over the given lengths, in closed form: the codes of length i are consecutive from
`firstCode counts i`. -/
def canonicalBook (counts lengths : List Nat) : CodeBook where
  codes := lengths.flatMap fun i => (List.range (countOf counts i)).map (firstCode counts i + ·)
  deltas := lengths.map fun i => (firstIndex counts i : Int) - (firstCode counts i : Int)
  maxcodes := lengths.map fun i => (firstCode counts i + countOf counts i) * 2 ^ (16 - i)

theorem firstCode_succ (counts : List Nat) (i : Nat) :
    firstCode counts (i + 2) = 2 * (firstCode counts (i + 1) + countOf counts (i + 1)) := rfl

theorem firstIndex_succ (counts : List Nat) (i : Nat) :
    firstIndex counts (i + 2) = firstIndex counts (i + 1) + countOf counts (i + 1) := by
  simp only [firstIndex, countOf, Nat.add_sub_cancel, Nat.reduceSubDiff, List.take_add_one, List.sum_append,
    List.getD_eq_getElem?_getD]
  cases counts[i]? <;> rfl

/-- The counts from length n + 1 on begin with that of length n + 1. -/
theorem drop_eq_countOf_cons (counts : List Nat) (n : Nat) (h : n < counts.length) :
    counts.drop n = countOf counts (n + 1) :: counts.drop (n + 1) := by
  rw [List.drop_eq_getElem_cons h, countOf, Nat.add_sub_cancel, List.getD_eq_getElem _ _ h]

/-- R130, R131: the code loop from length n + 1 on accepts the counts exactly when every code fits its length, and
then builds the canonical book. -/
theorem buildCodes_from (counts : List Nat) (d n : Nat) (h : n + d = counts.length) (b : CodeBook) :
    buildCodes (n + 1) (firstCode counts (n + 1)) (firstIndex counts (n + 1)) (counts.drop n) = some b ↔
      (∀ i ∈ List.range' (n + 1) d, CodesFit counts i) ∧ b = canonicalBook counts (List.range' (n + 1) d) := by
  induction d generalizing n b with
  | zero =>
    rw [List.drop_eq_nil_of_le (by omega), buildCodes]
    simp [canonicalBook, eq_comm]
  | succ d ih =>
    have fit : ¬(0 < countOf counts (n + 1) ∧ 2 ^ (n + 1) ≤ firstCode counts (n + 1) + countOf counts (n + 1) - 1) ↔
        CodesFit counts (n + 1) := by
      simp only [CodesFit]
      omega
    rw [drop_eq_countOf_cons counts n (by omega), buildCodes_cons, fit, ← firstCode_succ, ← firstIndex_succ]
    simp only [ih (n + 1) (by omega), List.range'_succ, List.forall_mem_cons, and_assoc, exists_and_left,
      exists_eq_left]
    rfl

/-- R130, R131: what HBUILD's code loop accepts, and the book it builds. -/
theorem buildCodes_eq_some (counts : List Nat) (b : CodeBook) :
    buildCodes 1 0 0 counts = some b ↔
      (∀ i, 1 ≤ i → i ≤ counts.length → CodesFit counts i) ∧
        b = canonicalBook counts (List.range' 1 counts.length) := by
  have := buildCodes_from counts counts.length 0 (by omega) b
  simpa [firstCode, firstIndex, Nat.lt_one_add_iff] using this

/-- The size loop of R131 in closed form. -/
theorem buildSizes_from (counts : List Nat) (d n : Nat) (h : n + d = counts.length) :
    buildSizes (n + 1) (counts.drop n) =
      (List.range' (n + 1) d).flatMap fun i => List.replicate (countOf counts i) i := by
  induction d generalizing n with
  | zero =>
    rw [List.drop_eq_nil_of_le (by omega)]
    rfl
  | succ d ih =>
    rw [drop_eq_countOf_cons counts n (by omega), buildSizes, ih (n + 1) (by omega), List.range'_succ,
      List.flatMap_cons]

/-! ### Symbol indices -/

/-- The entries of the lengths below i fill the positions below `firstIndex counts i`. -/
theorem length_flatMap_lengths {α : Type} (counts : List Nat) (f : Nat → List α)
    (len : ∀ i, (f i).length = countOf counts i) (n : Nat) :
    ((List.range' 1 n).flatMap f).length = firstIndex counts (n + 1) := by
  induction n with
  | zero => rfl
  | succ n ih =>
    rw [List.range'_1_concat, List.flatMap_append, List.length_append, ih, firstIndex_succ, Nat.add_comm 1 n]
    simp [len]

/-- A list that has `countOf counts i` entries for each length i has those of length i from `firstIndex counts i`
on. -/
theorem getElem?_flatMap_lengths {α : Type} (counts : List Nat) (f : Nat → List α)
    (len : ∀ i, (f i).length = countOf counts i) (d i m : Nat) (h1 : 1 ≤ i) (h2 : i ≤ d) (hm : m < countOf counts i) :
    ((List.range' 1 d).flatMap f)[firstIndex counts i + m]? = (f i)[m]? := by
  obtain ⟨n, rfl⟩ := Nat.exists_eq_add_of_le' h1
  obtain ⟨e, rfl⟩ := Nat.exists_eq_add_of_le h2
  have before := length_flatMap_lengths counts f len n
  rw [Nat.add_assoc, ← List.range'_append_1, List.flatMap_append, ← before,
    List.getElem?_append_right (Nat.le_add_right _ _), Nat.add_sub_cancel_left, Nat.add_comm 1 e, List.range'_succ,
    List.flatMap_cons, Nat.add_comm 1 n, List.getElem?_append_left (by rwa [len])]

/-- Every symbol index is the m-th of some length. -/
theorem exists_length_of_lt (counts : List Nat) (n k : Nat) (h : k < firstIndex counts (n + 1)) :
    ∃ i m, 1 ≤ i ∧ i ≤ n ∧ m < countOf counts i ∧ k = firstIndex counts i + m := by
  induction n with
  | zero => simp [firstIndex] at h
  | succ n ih =>
    by_cases lt : k < firstIndex counts (n + 1)
    · obtain ⟨i, m, h1, h2, hm, e⟩ := ih lt
      exact ⟨i, m, h1, by omega, hm, e⟩
    · rw [firstIndex_succ] at h
      exact ⟨n + 1, k - firstIndex counts (n + 1), by omega, le_rfl, by omega, by omega⟩

/-- The first code of a longer length lies past every code of a shorter one, both read at the longer length (R130). -/
theorem firstCode_after (counts : List Nat) (i d : Nat) (h : 1 ≤ i) :
    (firstCode counts i + countOf counts i) * 2 ^ (d + 1) ≤ firstCode counts (i + d + 1) := by
  obtain ⟨n, rfl⟩ := Nat.exists_eq_add_of_le' h
  induction d with
  | zero =>
    rw [firstCode_succ]
    omega
  | succ d ih =>
    have next := firstCode_succ counts (n + 1 + d)
    rw [show n + 1 + (d + 1) + 1 = n + 1 + d + 2 by omega, next, Nat.pow_succ, ← Nat.mul_assoc]
    omega

/-- Codes that fit their lengths leave the next code at most 2^i (R130). -/
theorem firstCode_le {counts : List Nat} (fit : ∀ i, 1 ≤ i → i ≤ counts.length → CodesFit counts i) (i : Nat)
    (h1 : 1 ≤ i) (h2 : i ≤ counts.length) : firstCode counts i + countOf counts i ≤ 2 ^ i := by
  have first : firstCode counts i ≤ 2 ^ i := by
    induction i, h1 using Nat.le_induction with
    | base => exact Nat.zero_le _
    | succ i h1 ih =>
      obtain ⟨n, rfl⟩ := Nat.exists_eq_add_of_le' h1
      have first := ih (by omega)
      have fits := fit (n + 1) h1 (by omega)
      rw [CodesFit] at fits
      rw [firstCode_succ, Nat.pow_succ]
      omega
  have fits := fit i h1 h2
  rw [CodesFit] at fits
  omega

/-! ### The book and the sizes, entry by entry -/

section
variable {counts : List Nat} {b : CodeBook} (book : buildCodes 1 0 0 counts = some b)
include book

/-- CODE of the m-th symbol of length i (R131). -/
theorem codes_at {i m : Nat} (h1 : 1 ≤ i) (h2 : i ≤ counts.length) (hm : m < countOf counts i) :
    b.codes[firstIndex counts i + m]? = some (firstCode counts i + m) := by
  obtain ⟨_, rfl⟩ := (buildCodes_eq_some counts b).1 book
  rw [canonicalBook, getElem?_flatMap_lengths counts _ (by simp) _ i m h1 h2 hm]
  simp [hm]

/-- DELTA of length i (R131). -/
theorem deltas_at {i : Nat} (h1 : 1 ≤ i) (h2 : i ≤ counts.length) :
    b.deltas[i - 1]? = some ((firstIndex counts i : Int) - (firstCode counts i : Int)) := by
  obtain ⟨_, rfl⟩ := (buildCodes_eq_some counts b).1 book
  rw [canonicalBook, List.getElem?_map, List.getElem?_range' (by omega), Option.map_some,
    show 1 + 1 * (i - 1) = i by omega]

/-- MAXCODE of length i (R131). -/
theorem maxcodes_at {i : Nat} (h1 : 1 ≤ i) (h2 : i ≤ counts.length) :
    b.maxcodes[i - 1]? = some ((firstCode counts i + countOf counts i) * 2 ^ (16 - i)) := by
  obtain ⟨_, rfl⟩ := (buildCodes_eq_some counts b).1 book
  rw [canonicalBook, List.getElem?_map, List.getElem?_range' (by omega), Option.map_some,
    show 1 + 1 * (i - 1) = i by omega]

end

/-- SIZE of the m-th symbol of length i (R131). -/
theorem sizes_at {counts : List Nat} {i m : Nat} (h1 : 1 ≤ i) (h2 : i ≤ counts.length) (hm : m < countOf counts i) :
    (buildSizes 1 counts)[firstIndex counts i + m]? = some i := by
  have closed := buildSizes_from counts counts.length 0 (by omega)
  rw [List.drop_zero, Nat.zero_add] at closed
  rw [closed, getElem?_flatMap_lengths counts _ (by simp) _ i m h1 h2 hm]
  simp [hm]

/-- Every symbol index has a length, and is the m-th of it. -/
theorem exists_length_of_lt_sum {counts : List Nat} {k : Nat} (h : k < counts.sum) :
    ∃ i m, 1 ≤ i ∧ i ≤ counts.length ∧ m < countOf counts i ∧ k = firstIndex counts i + m := by
  refine exists_length_of_lt counts counts.length k ?_
  rwa [firstIndex, Nat.add_sub_cancel, List.take_length]

/-! ### The fast loop -/

/-- The block of FAST entries that symbol k writes in the fast loop of R131 holds e: its code is short and e
begins with it. -/
def FastBlock (sizes codes : List Nat) (e k : Nat) : Prop :=
  sizes.getD k 0 ≤ 9 ∧ e / 2 ^ (9 - sizes.getD k 0) = codes.getD k 0

/-- The last turn of the fast loop. -/
theorem fastEntry_succ (sizes codes : List Nat) (n e : Nat) :
    (FastBlock sizes codes e n → fastEntry sizes codes (n + 1) e = n) ∧
      (¬FastBlock sizes codes e n → fastEntry sizes codes (n + 1) e = fastEntry sizes codes n e) := by
  have block : FastBlock sizes codes e n ↔ sizes.getD n 0 ≤ 9 ∧ codes.getD n 0 * 2 ^ (9 - sizes.getD n 0) ≤ e ∧
      e < (codes.getD n 0 + 1) * 2 ^ (9 - sizes.getD n 0) := by
    rw [FastBlock, Nat.div_eq_iff (by positivity), Nat.add_one_mul, Nat.lt_iff_le_pred (by positivity)]
  simp only [fastEntry, List.range_succ, List.foldl_append, List.foldl_cons, List.foldl_nil, block]
  exact ⟨fun holds => if_pos holds, fun fails => if_neg fails⟩

/-- An entry in no block keeps the sentinel. -/
theorem fastEntry_sentinel (sizes codes : List Nat) (n e : Nat) (h : ∀ k, k < n → ¬FastBlock sizes codes e k) :
    fastEntry sizes codes n e = 255 := by
  induction n with
  | zero => rfl
  | succ n ih => rw [(fastEntry_succ sizes codes n e).2 (h n (by omega)), ih fun k hk => h k (by omega)]

/-- An entry in exactly one block holds the index of its symbol. -/
theorem fastEntry_symbol (sizes codes : List Nat) (n e k : Nat) (hk : k < n) (block : FastBlock sizes codes e k)
    (only : ∀ j, j < n → FastBlock sizes codes e j → j = k) : fastEntry sizes codes n e = k := by
  induction n with
  | zero => omega
  | succ n ih =>
    by_cases last : FastBlock sizes codes e n
    · rw [(fastEntry_succ sizes codes n e).1 last, only n (by omega) last]
    · have earlier : k ≠ n := fun same => last (same ▸ block)
      rw [(fastEntry_succ sizes codes n e).2 last, ih (by omega) fun j hj => only j (by omega)]

/-- The m-th symbol of length i has its block of FAST entries (R132). -/
theorem fastBlock_at {counts : List Nat} {b : CodeBook} (book : buildCodes 1 0 0 counts = some b) {i m e : Nat}
    (h1 : 1 ≤ i) (h2 : i ≤ counts.length) (hm : m < countOf counts i) :
    FastBlock (buildSizes 1 counts) b.codes e (firstIndex counts i + m) ↔
      i ≤ 9 ∧ e / 2 ^ (9 - i) = firstCode counts i + m := by
  simp only [FastBlock, List.getD_eq_getElem?_getD, sizes_at h1 h2 hm, codes_at book h1 h2 hm, Option.getD_some]

/-- No code of a longer length begins with one of a shorter length (R130). -/
theorem longer_code_ne_of_shorter (counts : List Nat) {i j m n e : Nat} (h1 : 1 ≤ i) (lt : i < j) (h9 : j ≤ 9)
    (hm : m < countOf counts i) (short : e / 2 ^ (9 - i) = firstCode counts i + m) :
    e / 2 ^ (9 - j) ≠ firstCode counts j + n := by
  intro long
  obtain ⟨d, rfl⟩ := Nat.exists_eq_add_of_lt lt
  have after := firstCode_after counts i d h1
  have cut : e / 2 ^ (9 - i) = (e / 2 ^ (9 - (i + d + 1))) / 2 ^ (d + 1) := by
    rw [Nat.div_div_eq_div_mul, ← Nat.pow_add, show 9 - (i + d + 1) + (d + 1) = 9 - i by omega]
  have beyond : firstCode counts i + countOf counts i ≤ e / 2 ^ (9 - i) := by
    rw [cut, long, Nat.le_div_iff_mul_le (by positivity)]
    exact Nat.le_add_right_of_le after
  omega

/-- The blocks of two symbols do not overlap (R132). -/
theorem fastBlock_unique {counts : List Nat} {b : CodeBook} (book : buildCodes 1 0 0 counts = some b) {e j k : Nat}
    (hj : j < counts.sum) (hk : k < counts.sum) (bj : FastBlock (buildSizes 1 counts) b.codes e j)
    (bk : FastBlock (buildSizes 1 counts) b.codes e k) : j = k := by
  obtain ⟨i, m, i1, i2, hm, rfl⟩ := exists_length_of_lt_sum hj
  obtain ⟨i', m', i1', i2', hm', rfl⟩ := exists_length_of_lt_sum hk
  obtain ⟨i9, code⟩ := (fastBlock_at book i1 i2 hm).1 bj
  obtain ⟨i9', code'⟩ := (fastBlock_at book i1' i2' hm').1 bk
  rcases Nat.lt_trichotomy i i' with lt | rfl | lt
  · exact absurd code' (longer_code_ne_of_shorter counts i1 lt i9' hm code)
  · omega
  · exact absurd code (longer_code_ne_of_shorter counts i1' lt i9 hm' code')

/-! ### The fields of a built table -/

theorem builtTable_symbolAt (counts : List Nat) (symbols : List Byte) (b : CodeBook) (k : Nat) :
    (builtTable counts symbols b).symbolAt k = symbols.getD k 0 := rfl

theorem builtTable_sizeAt (counts : List Nat) (symbols : List Byte) (b : CodeBook) (k : Nat) :
    (builtTable counts symbols b).sizeAt k = (buildSizes 1 counts).getD k 0 := rfl

theorem builtTable_codeAt (counts : List Nat) (symbols : List Byte) (b : CodeBook) (k : Nat) :
    (builtTable counts symbols b).codeAt k = BitVec.ofNat 16 (b.codes.getD k 0) := by
  rw [HuffTable.codeAt, builtTable_code]
  exact List.getD_map _ _ (BitVec.ofNat 16)

theorem builtTable_deltaAt (counts : List Nat) (symbols : List Byte) (b : CodeBook) (i : Nat) (h1 : 1 ≤ i)
    (h2 : i ≤ 16) : (builtTable counts symbols b).deltaAt i = BitVec.ofInt 32 (b.deltas.getD (i - 1) 0) := by
  simp [HuffTable.deltaAt, builtTable, show i - 1 < 16 by omega]

theorem builtTable_maxcodeAt (counts : List Nat) (symbols : List Byte) (b : CodeBook) (i : Nat) (h1 : 1 ≤ i)
    (h2 : i ≤ 17) : (builtTable counts symbols b).maxcodeAt i =
      BitVec.ofNat 32 ((b.maxcodes ++ [0x7FFFFFFF]).getD (i - 1) 0) := by
  simp [HuffTable.maxcodeAt, builtTable, show i - 1 < 17 by omega]

section
variable {counts : List Nat} {symbols : List Byte} {b : CodeBook} (len : counts.length = 16)
  (book : buildCodes 1 0 0 counts = some b)
include len book

/-- SIZE and CODE of the m-th symbol of length i in the committed table: no code is cut to 16 bits. -/
theorem builtTable_symbol_at {i m : Nat} (h1 : 1 ≤ i) (h2 : i ≤ 16) (hm : m < countOf counts i) :
    (builtTable counts symbols b).sizeAt (firstIndex counts i + m) = i ∧
      ((builtTable counts symbols b).codeAt (firstIndex counts i + m)).toNat = firstCode counts i + m := by
  obtain ⟨fit, _⟩ := (buildCodes_eq_some counts b).1 book
  rw [builtTable_sizeAt, builtTable_codeAt, List.getD_eq_getElem?_getD, List.getD_eq_getElem?_getD,
    sizes_at h1 (by omega) hm, codes_at book h1 (by omega) hm, Option.getD_some, Option.getD_some]
  have below := firstCode_le fit i h1 (by omega)
  have short : 2 ^ i ≤ 2 ^ 16 := Nat.pow_le_pow_right (by omega) h2
  exact ⟨rfl, Nat.mod_eq_of_lt (by omega)⟩

/-- CODE[k] of the committed table is the code of the book. -/
theorem builtTable_codeAt_toNat {k : Nat} (hk : k < counts.sum) :
    ((builtTable counts symbols b).codeAt k).toNat = b.codes.getD k 0 := by
  obtain ⟨i, m, h1, h2, hm, rfl⟩ := exists_length_of_lt_sum hk
  rw [(builtTable_symbol_at len book h1 (by omega) hm).2, List.getD_eq_getElem?_getD, codes_at book h1 h2 hm]
  rfl

/-- DELTA and MAXCODE of length i in the committed table: neither is cut to 32 bits. -/
theorem builtTable_length_at {i : Nat} (h1 : 1 ≤ i) (h2 : i ≤ 16) (few : counts.sum ≤ 256) :
    ((builtTable counts symbols b).deltaAt i).toInt = (firstIndex counts i : Int) - (firstCode counts i : Int) ∧
      ((builtTable counts symbols b).maxcodeAt i).toNat =
        (firstCode counts i + countOf counts i) * 2 ^ (16 - i) := by
  obtain ⟨fit, _⟩ := (buildCodes_eq_some counts b).1 book
  have below := firstCode_le fit i h1 (by omega)
  have short : 2 ^ i ≤ 2 ^ 16 := Nat.pow_le_pow_right (by omega) h2
  have index : firstIndex counts i ≤ counts.sum := (List.take_sublist _ _).sum_le_sum (by simp)
  have last := maxcodes_at book h1 (by omega)
  have scaled : (firstCode counts i + countOf counts i) * 2 ^ (16 - i) ≤ 2 ^ i * 2 ^ (16 - i) :=
    Nat.mul_le_mul_right _ below
  rw [← Nat.pow_add, Nat.add_sub_cancel' h2] at scaled
  constructor
  · rw [builtTable_deltaAt _ _ _ i h1 h2, List.getD_eq_getElem?_getD, deltas_at book h1 (by omega),
      Option.getD_some, BitVec.toInt_ofInt, Int.bmod_eq_of_le (by omega) (by omega)]
  · rw [builtTable_maxcodeAt _ _ _ i h1 (by omega), List.getD_eq_getElem?_getD,
      List.getElem?_append_left (List.getElem?_eq_some_iff.1 last).1, last, Option.getD_some, BitVec.toNat_ofNat,
      Nat.mod_eq_of_lt (by omega)]

/-- MAXCODE[17] ends the slow scan (R131). -/
theorem builtTable_maxcodeAt_last : (builtTable counts symbols b).maxcodeAt 17 = 0x7FFFFFFF := by
  have count := (buildCodes_lengths counts 1 0 0 b book).2.2
  rw [builtTable_maxcodeAt _ _ _ 17 (by omega) (by omega), List.getD_eq_getElem?_getD,
    List.getElem?_append_right (by omega), count, len]
  rfl

/-- The entry of FAST that begins with the code of symbol k holds k (R131, R132). -/
theorem builtTable_fast_symbol (few : counts.sum ≤ 256) (e : Fin 512) (k : Nat) (hk : k < counts.sum)
    (short : (builtTable counts symbols b).sizeAt k ≤ 9)
    (code : e.val / 2 ^ (9 - (builtTable counts symbols b).sizeAt k) =
      ((builtTable counts symbols b).codeAt k).toNat) :
    ((builtTable counts symbols b).fast.get e).toNat = k := by
  rw [builtTable_codeAt_toNat len book hk] at code
  have block : FastBlock (buildSizes 1 counts) b.codes e k := ⟨short, code⟩
  rw [builtTable_fast, fastEntry_symbol _ _ _ _ k hk block fun j hj bj => fastBlock_unique book hj hk bj block]
  exact Nat.mod_eq_of_lt (by omega)

/-- An entry of FAST that begins with no short code holds the sentinel (R131, R132). -/
theorem builtTable_fast_sentinel (e : Fin 512)
    (none : ∀ k, k < counts.sum → (builtTable counts symbols b).sizeAt k ≤ 9 →
      e.val / 2 ^ (9 - (builtTable counts symbols b).sizeAt k) ≠ ((builtTable counts symbols b).codeAt k).toNat) :
    ((builtTable counts symbols b).fast.get e).toNat = 255 := by
  rw [builtTable_fast, fastEntry_sentinel]
  · rfl
  · rintro k hk ⟨short, code⟩
    exact none k hk short (code.trans (builtTable_codeAt_toNat len book hk).symm)

end

/-! ### HBUILD -/

/-- L[i] of the input (R68). -/
theorem countOf_huffCounts (s : State) (i : Nat) (h1 : 1 ≤ i) (h2 : i ≤ 16) :
    countOf (huffCounts s) i = huffCount s i := by
  simp [countOf, huffCounts, show i - 1 < 16 by omega, Nat.sub_add_cancel h1]

/-- NSYM is the sum of the first sixteen bytes of the input (R68). -/
theorem huffCounts_sum (s : State) :
    (huffCounts s).sum = ((List.range 16).map fun j => (s.mem.read (s.arg 0 + j)).toNat).sum := rfl

/-- SYMBOL[k] is byte 16 + k of the input (R68). -/
theorem huffSymbols_getD (s : State) (k : Nat) (h : k < huffNsym s) :
    (huffSymbols s).getD k 0 = s.mem.read (s.arg 0 + 16 + k) := by
  simp [huffSymbols, h]

/-- HBUILD commits the table where its checks and the code loop pass (R131). -/
theorem exec_hbuild_commits (c : HClass) (t : Fin 4) (s : State) (b : CodeBook) (check : hbuildCheck s = none)
    (book : buildCodes 1 0 0 (huffCounts s) = some b) : exec (.hbuild c t) s =
      .next { s.setHuff c t (builtTable (huffCounts s) (huffSymbols s) b) with busy := false } := by
  simp only [exec, execHbuild, check, book]
  rfl

/-- Settles O33: the checks pass, the code loop accepts, and the fields are those of the built table. -/
theorem hbuildCommitsTheTable : Obligations.HbuildCommitsTheTable := by
  intro c t s input few fit
  have len := huffCounts_length s
  have check := (hbuildCheck_none s).2 ⟨input, few⟩
  have fits : ∀ i, 1 ≤ i → i ≤ (huffCounts s).length → CodesFit (huffCounts s) i := by
    intro i h1 h2
    rw [CodesFit, countOf_huffCounts s i h1 (by omega)]
    exact fit i h1 (by omega)
  obtain ⟨b, book⟩ : ∃ b, buildCodes 1 0 0 (huffCounts s) = some b :=
    ⟨_, (buildCodes_eq_some _ _).2 ⟨fits, rfl⟩⟩
  refine ⟨b, _, book, rfl, exec_hbuild_commits c t s b check book, built_of_hbuild s b check book,
    builtTable_hvalid _ _ b, ?_, fun k hk => ?_, fun i h1 h2 => ?_, builtTable_maxcodeAt_last len book,
    fun e k hk => ?_, fun e none => ?_, fun c' t' other => ?_⟩
  · rw [builtTable_nsym, huffCounts_sum]
  · rw [builtTable_symbolAt, huffSymbols_getD s k hk]
  · rw [← countOf_huffCounts s i h1 h2]
    exact ⟨fun m hm => builtTable_symbol_at len book h1 h2 hm, builtTable_length_at len book h1 h2 few⟩
  · exact builtTable_fast_symbol len book few e k hk
  · exact builtTable_fast_sentinel len book e none
  · rw [huff_setHuff, if_neg]
    rintro ⟨rfl, rfl⟩
    exact other rfl

end Sys2Proof.Machine
end

section
/-! PROOFS of the encoding statements (spec/30_encoding.md). The fields of a word are read bit by bit, once for all
words. A word is one of a row of the opcode map exactly when it is the word of its own fields under that row's opcode;
decoding and encoding are read row by row from the map. -/

namespace Sys2Proof

/-! ### The bits of the fields -/

/-- Bit i ≥ 8 of the word that holds the fields (R82, R87). -/
def Fields.bit (f : Fields) (i : Nat) : Bool :=
  if i = 8 then decide (f.c = .ac) else if i < 11 then f.t.val.testBit (i - 9) else f.n.testBit (i - 11)

/-- The word of an opcode and fields (R87). -/
def Fields.word (f : Fields) (op : Byte) : Word := commandWord op f.c f.t f.n

theorem fieldsOf_n_lt (w : Word) : (fieldsOf w).n < 32 := (w.extractLsb' 11 5).isLt

/-- A number below 2^k has no bit at k or above. -/
theorem testBit_eq_false_of_lt_of_le {a k j : Nat} (ha : a < 2 ^ k) (hj : k ≤ j) : a.testBit j = false :=
  Nat.testBit_lt_two_pow (ha.trans_le (Nat.pow_le_pow_right (by decide) hj))

/-- Numbers below 2^k are equal when their k low bits are. -/
theorem eq_of_low_bits_eq {a b k : Nat} (ha : a < 2 ^ k) (hb : b < 2 ^ k)
    (low : ∀ j, j < k → a.testBit j = b.testBit j) : a = b := by
  refine Nat.eq_of_testBit_eq fun j => ?_
  rcases Nat.lt_or_ge j k with hj | hj
  · exact low j hj
  · rw [testBit_eq_false_of_lt_of_le ha hj, testBit_eq_false_of_lt_of_le hb hj]

/-- Fields are determined by bits 15:8. -/
theorem Fields.eq_of_bit_eq {f g : Fields} (hf : f.n < 32) (hg : g.n < 32)
    (bits : ∀ i, 8 ≤ i → i < 16 → f.bit i = g.bit i) : f = g := by
  have c : f.c = g.c := by
    have h := bits 8 (by decide) (by decide)
    cases fc : f.c <;> cases gc : g.c <;> simp [Fields.bit, fc, gc] at h ⊢
  have t : f.t = g.t := by
    refine Fin.ext (eq_of_low_bits_eq (k := 2) f.t.isLt g.t.isLt fun j hj => ?_)
    simpa [Fields.bit, show j + 9 < 11 by omega] using bits (j + 9) (by omega) (by omega)
  have n : f.n = g.n := by
    refine eq_of_low_bits_eq (k := 5) hf hg fun j hj => ?_
    simpa [Fields.bit] using bits (j + 11) (by omega) (by omega)
  cases f; cases g; simp_all

/-- The fields of a word are its bits 15:8. -/
theorem fieldsOf_bit (w : Word) (i : Nat) (h8 : 8 ≤ i) (h16 : i < 16) : (fieldsOf w).bit i = w.getLsbD i := by
  unfold Fields.bit
  split_ifs with c t
  · subst c
    cases h : w.getLsbD 8 <;> simp only [fieldsOf, h] <;> decide
  · refine (BitVec.getLsbD_extractLsb' 9 2 w (i - 9)).trans ?_
    simp [show i - 9 < 2 by omega, show 9 + (i - 9) = i by omega]
  · refine (BitVec.getLsbD_extractLsb' 11 5 w (i - 11)).trans ?_
    simp [show i - 11 < 5 by omega, show 11 + (i - 11) = i by omega]

/-- Bits 7:0 of a word are its opcode, the others its fields. -/
theorem getLsbD_word (f : Fields) (op : Byte) (i : Nat) (hi : i < 32) :
    (f.word op).getLsbD i = if i < 8 then op.getLsbD i else f.bit i := by
  have opBit : 8 ≤ i → op.getLsbD i = false := BitVec.getLsbD_of_ge op i
  have tBit : 2 ≤ i - 9 → f.t.val.testBit (i - 9) = false := testBit_eq_false_of_lt_of_le f.t.isLt
  simp only [Fields.word, commandWord, Fields.bit, BitVec.getLsbD_or, BitVec.getLsbD_shiftLeft, BitVec.getLsbD_setWidth,
    BitVec.getLsbD_ofNat, BitVec.getLsbD_ofBool]
  split_ifs <;> grind

/-- The fields of the word of fields are those fields. -/
theorem fieldsOf_word (f : Fields) (op : Byte) (hn : f.n < 32) : fieldsOf (f.word op) = f := by
  refine Fields.eq_of_bit_eq (fieldsOf_n_lt _) hn fun i h8 h16 => ?_
  rw [fieldsOf_bit _ i h8 h16, getLsbD_word f op i (by omega), if_neg (by omega)]

/-! ### Formats -/

/-- The bits of a word that a format leaves to its fields (R81). -/
def Format.usesBit : Format → Nat → Bool
  | .fNone, _ => false
  | .fN, i => decide (11 ≤ i ∧ i < 16)
  | .fHt, i => decide (8 ≤ i ∧ i < 11)
  | .fQ, i => decide (9 ≤ i ∧ i < 11)

theorem Format.usesBit_range {format : Format} {i : Nat} (h : format.usesBit i = true) : 8 ≤ i ∧ i < 16 := by
  cases format <;> simp [Format.usesBit] at h <;> omega

/-- The mask of a format has a 1 at every bit that its fields do not use. -/
theorem getLsbD_formatMask (format : Format) (i : Nat) (hi : i < 32) :
    (formatMask format).getLsbD i = !format.usesBit i := by
  suffices h : ∀ j : Fin 32, (formatMask format).getLsbD j = !format.usesBit j from h ⟨i, hi⟩
  cases format <;> decide

/-- The fields that a format has, the others 0 (R81, R87). -/
def Format.keep : Format → Fields → Fields
  | .fNone, _ => ⟨.dc, 0, 0⟩
  | .fN, f => ⟨.dc, 0, f.n⟩
  | .fHt, f => ⟨f.c, f.t, 0⟩
  | .fQ, f => ⟨.dc, f.t, 0⟩

theorem Format.keep_keep (format : Format) (f : Fields) : format.keep (format.keep f) = format.keep f := by
  cases format <;> rfl

theorem Format.keep_n_lt (format : Format) (f : Fields) (hn : f.n < 32) : (format.keep f).n < 32 := by
  cases format <;> simp [Format.keep, hn]

/-- The kept fields hold the bits that the format uses. -/
theorem Format.keep_bit (format : Format) (f : Fields) (hn : f.n < 32) (i : Nat) (h8 : 8 ≤ i) :
    (format.keep f).bit i = (format.usesBit i && f.bit i) := by
  have nBit : 5 ≤ i - 11 → f.n.testBit (i - 11) = false := testBit_eq_false_of_lt_of_le hn
  have tBit : 2 ≤ i - 9 → f.t.val.testBit (i - 9) = false := testBit_eq_false_of_lt_of_le f.t.isLt
  cases format <;> simp only [Format.keep, Format.usesBit, Fields.bit, Fin.val_zero, Nat.zero_testBit] <;> grind

/-- R85: a word matches an opcode under a format's mask exactly when it is the word of its own fields. -/
theorem matches_iff_word_eq (format : Format) (op : Byte) (w : Word) :
    w &&& formatMask format = op.setWidth 32 ↔ (format.keep (fieldsOf w)).word op = w := by
  simp only [BitVec.eq_of_getLsbD_eq_iff]
  refine forall₂_congr fun i hi => ?_
  rw [getLsbD_word _ _ _ hi, BitVec.getLsbD_and, getLsbD_formatMask format i hi, BitVec.getLsbD_setWidth]
  rcases Nat.lt_or_ge i 8 with h8 | h8
  · have unused : format.usesBit i = false := Bool.eq_false_iff.2 fun used => by
      have := (Format.usesBit_range used).1
      omega
    simp only [unused, h8, hi, if_true, decide_true, Bool.not_false, Bool.and_true, Bool.true_and, eq_comm]
  · rw [Format.keep_bit format _ (fieldsOf_n_lt w) i h8, BitVec.getLsbD_of_ge op i h8, if_neg (by omega)]
    cases used : format.usesBit i
    · simp only [Bool.not_false, Bool.and_true, Bool.and_false, Bool.false_and, eq_comm]
    · simp [fieldsOf_bit w i h8 (Format.usesBit_range used).2]

/-- A word that matches an opcode under a format's mask has that opcode in bits 7:0 (R84). -/
theorem opcode_of_match {format : Format} {op : Byte} {w : Word} (mask : w &&& formatMask format = op.setWidth 32) :
    w.extractLsb' 0 8 = op := by
  rw [← (matches_iff_word_eq format op w).1 mask]
  refine BitVec.eq_of_getLsbD_eq fun i hi => ?_
  simp [getLsbD_word _ op i (by omega), hi]

/-! ### The opcode map -/

theorem opcodeMap_encode : ∀ row ∈ opcodeMap, ∀ f, encode (row.2.2 f) = (row.2.1.keep f).word row.1 := by
  simp [opcodeMap, encode, Format.keep, Fields.word]

theorem opcodeMap_keep : ∀ row ∈ opcodeMap, ∀ f, row.2.2 (row.2.1.keep f) = row.2.2 f := by
  simp [opcodeMap, Format.keep]

theorem opcodeMap_wellFormed : ∀ row ∈ opcodeMap, ∀ f, f.n < 32 → (row.2.2 f).wellFormed = true := by
  simp [opcodeMap, Instr.wellFormed, widthEncodable]

theorem find_opcode : ∀ row ∈ opcodeMap, opcodeMap.find? (fun r => r.1 = row.1) = some row := by
  simp [opcodeMap]

/-- The fields of a command, those it lacks 0. -/
def Instr.operands : Instr → Fields
  | .peek n | .getbits n | .recext n => ⟨.dc, 0, n⟩
  | .hbuild c t | .hdec c t => ⟨c, t, 0⟩
  | .qload t | .idct t => ⟨.dc, t, 0⟩
  | _ => ⟨.dc, 0, 0⟩

theorem exists_row_of_operands (i : Instr) : ∃ row ∈ opcodeMap, row.2.2 i.operands = i := by
  cases i <;> simp [opcodeMap, Instr.operands]

theorem Instr.operands_n_lt (i : Instr) (h : i.wellFormed = true) : i.operands.n < 32 := by
  cases i <;> simp_all [Instr.operands, Instr.wellFormed, widthEncodable]

/-- A word decodes to a command exactly when a row of the map matches it and its fields give the command (R85). -/
theorem decode_eq_ok_iff (w : Word) (i : Instr) :
    decode w = .ok i ↔
      ∃ row ∈ opcodeMap, w &&& formatMask row.2.1 = row.1.setWidth 32 ∧ row.2.2 (fieldsOf w) = i := by
  constructor
  · intro dec
    unfold decode at dec
    split at dec
    case h_1 => cases dec
    case h_2 op format command found =>
      split at dec
      case isTrue mask => exact ⟨_, List.mem_of_find?_eq_some found, mask, Except.ok.inj dec⟩
      case isFalse => cases dec
  · rintro ⟨row, mem, mask, rfl⟩
    have found := find_opcode row mem
    rw [← opcode_of_match mask] at found
    simp [decode, found, mask]

/-- The legal words of R81 and R84 are those that a row of the map matches. -/
theorem legalWord_iff (w : Word) :
    Machine.legalWord w ↔ ∃ row ∈ opcodeMap, w &&& formatMask row.2.1 = row.1.setWidth 32 := by
  have all : w &&& 4294967295#32 = w := BitVec.and_allOnes
  simp only [Machine.legalWord, opcodeMap, formatMask, List.mem_cons, List.not_mem_nil, or_false, exists_eq_or_imp,
    ↓existsAndEq, true_and, all, BitVec.ofNat_eq_ofNat, BitVec.setWidth_ofNat_of_le_of_lt, Nat.reduceLeDiff,
    Nat.reducePow, Nat.reduceLT, Nat.one_lt_ofNat]
  -- The two sides now list the same 15 equations, by format and by opcode.
  grind

/-! ### The statements -/

/-- Settles O1: the word of a command matches its row and holds its fields. -/
theorem decodeOfEncode : Obligations.DecodeOfEncode := by
  intro i wf
  obtain ⟨row, mem, cmd⟩ := exists_row_of_operands i
  have word : encode i = (row.2.1.keep i.operands).word row.1 := by
    rw [← opcodeMap_encode row mem, cmd]
  have fields : fieldsOf (encode i) = row.2.1.keep i.operands := by
    rw [word, fieldsOf_word _ _ (Format.keep_n_lt _ _ (Instr.operands_n_lt i wf))]
  refine (decode_eq_ok_iff _ i).2 ⟨row, mem, (matches_iff_word_eq _ _ _).2 ?_, ?_⟩
  · rw [fields, Format.keep_keep, word]
  · rw [fields, opcodeMap_keep row mem, cmd]

/-- Settles O2: a word that a row matches decodes to the command of its fields, and is the word of those fields. -/
theorem legalWordsDecodeToTheirCommand : Obligations.LegalWordsDecodeToTheirCommand := by
  refine ⟨fun w => ?_, fun w i dec => ?_⟩
  · rw [legalWord_iff]
    constructor
    · rintro ⟨i, dec⟩
      obtain ⟨row, mem, mask, -⟩ := (decode_eq_ok_iff w i).1 dec
      exact ⟨row, mem, mask⟩
    · rintro ⟨row, mem, mask⟩
      exact ⟨_, (decode_eq_ok_iff w _).2 ⟨row, mem, mask, rfl⟩⟩
  · obtain ⟨row, mem, mask, rfl⟩ := (decode_eq_ok_iff w i).1 dec
    exact ⟨(opcodeMap_encode row mem _).trans ((matches_iff_word_eq _ _ w).1 mask),
      opcodeMap_wellFormed row mem _ (fieldsOf_n_lt w)⟩

/-- Settles O3, by decoding the five words. -/
theorem exampleWordsDecode : Obligations.ExampleWordsDecode := by
  unfold Obligations.ExampleWordsDecode
  decide

namespace Machine

/-- A word that decodes to no command raises ILLEGAL_CMD (R85). -/
theorem runCommand_of_decode_error (s : State) (e : DecodeError) (dec : decode s.cmd = .error e) :
    runCommand s = .next (takeFault .illegalCmd s) := by
  simp [runCommand, dec]

/-- Settles O4: a word that is not legal does not decode, and the run of such a word only latches the fault. -/
theorem illegalWordsRaiseIllegalCmd : Obligations.IllegalWordsRaiseIllegalCmd := by
  intro s turn illegal
  refine ⟨?_, rfl⟩
  rw [step_of_commandTurn s turn]
  cases dec : decode s.cmd with
  | ok i => exact absurd ((legalWordsDecodeToTheirCommand.1 s.cmd).1 ⟨i, dec⟩) illegal
  | error e => exact runCommand_of_decode_error s e dec

end Machine

end Sys2Proof
end

section
/-! PROOFS of the bit-reader statements (spec/40_bitreader.md). What one turn of the refill takes from the stream is
read off a run of fill bytes; the refill is its loop because four turns always suffice; the commands with field N are
what they do with the bits that a refill leaves buffered. -/

namespace Sys2Proof.Machine

open Sys2Proof

/-! ### Reading the stream -/

/-- `s` with IPOS moved past the next `m` bytes. -/
def advance (m : Nat) (s : State) : State := { s with ipos := s.ipos + BitVec.ofNat 32 m }

@[simp] theorem advance_iend (m : Nat) (s : State) : (advance m s).iend = s.iend := rfl
@[simp] theorem advance_acc (m : Nat) (s : State) : (advance m s).acc = s.acc := rfl
@[simp] theorem advance_cnt (m : Nat) (s : State) : (advance m s).cnt = s.cnt := rfl
@[simp] theorem advance_mem (m : Nat) (s : State) : (advance m s).mem = s.mem := rfl

@[simp] theorem advance_zero (s : State) : advance 0 s = s := by simp [advance]

theorem advance_advance (m n : Nat) (s : State) : advance n (advance m s) = advance (m + n) s := by
  simp [advance, BitVec.ofNat_add, BitVec.add_assoc]

/-- IPOS does not wrap on the way to IEND. -/
theorem advance_ipos_toNat {m : Nat} {s : State} (left : s.ipos.toNat + m ≤ s.iend.toNat) :
    (advance m s).ipos.toNat = s.ipos.toNat + m := by
  have := s.iend.isLt
  simp only [advance, BitVec.toNat_add, BitVec.toNat_ofNat]
  omega

theorem read_advance {m : Nat} {s : State} (left : s.ipos.toNat + m ≤ s.iend.toNat) (j : Nat) :
    s.mem.read ((advance m s).ipos.toNat + j) = s.mem.read (s.ipos.toNat + (m + j)) := by
  rw [advance_ipos_toNat left, Nat.add_assoc]

theorem readIn_end {s : State} (h : s.iend.toNat ≤ s.ipos.toNat) : readIn s = .raised .truncated s := if_pos h

/-- What one turn makes of the byte `c` that ends a run of 0xFF: the data byte 0xFF, or a marker (R104). -/
def afterFill (c : Byte) (s : State) : Eff (Option Byte) :=
  if c = 0 then .done (some 0xFF) s else .done none { s with ipos := s.ipos - 2, hitend := true }

theorem afterFill_stuffed (s : State) : afterFill 0 s = .done (some 0xFF) s := if_pos rfl

/-- At a marker IPOS goes back to the last 0xFF (R104, R114). -/
theorem afterFill_marker {c : Byte} (h : c ≠ 0) {m : Nat} (pos : 1 ≤ m) (s : State) :
    afterFill c (advance (m + 1) s) = .done none { advance (m - 1) s with hitend := true } := by
  obtain ⟨k, rfl⟩ := Nat.exists_eq_add_of_le' pos
  have back : s.ipos + BitVec.ofNat 32 (k + 1 + 1) - 2 = s.ipos + BitVec.ofNat 32 k := by
    simp only [BitVec.ofNat_add]
    bv_omega
  rw [afterFill, if_neg h, advance, back]
  rfl

theorem nextByte_hitend {s : State} (h : s.hitend = true) : nextByte s = .done (some 0) s := if_pos h

theorem skipFill_end (n : Nat) {s : State} (h : s.iend.toNat ≤ s.ipos.toNat) :
    skipFill n s = .raised .truncated s := by
  cases n with
  | zero => rfl
  | succ n => rw [skipFill, readIn_end h, andThen_raised]

section
variable {s : State} (inside : s.iend.toNat ≤ s.params.memSize)
include inside

theorem readIn_byte (h : s.ipos.toNat < s.iend.toNat) : readIn s = .done (s.mem.read s.ipos.toNat) (advance 1 s) := by
  obtain ⟨_, _⟩ | ⟨_, _, _⟩ | ⟨_, _, e⟩ := readIn_cases s
  · omega
  · omega
  · exact e

theorem skipFill_byte (n : Nat) (h : s.ipos.toNat < s.iend.toNat) (plain : s.mem.read s.ipos.toNat ≠ 0xFF) :
    skipFill (n + 1) s = .done (s.mem.read s.ipos.toNat) (advance 1 s) := by
  rw [skipFill, readIn_byte inside h, andThen_done, if_neg plain]

/-- The loop passes over a run of fill bytes. -/
theorem skipFill_run (m n : Nat) (left : s.ipos.toNat + m ≤ s.iend.toNat)
    (fill : ∀ j, j < m → s.mem.read (s.ipos.toNat + j) = 0xFF) :
    skipFill (m + n) s = skipFill n (advance m s) := by
  induction m generalizing s with
  | zero => simp
  | succ m ih =>
    have next : (advance 1 s).ipos.toNat = s.ipos.toNat + 1 := advance_ipos_toNat (by omega)
    have shorter : ∀ j, j < m → s.mem.read ((advance 1 s).ipos.toNat + j) = 0xFF := fun j hj =>
      (read_advance (by omega) j).trans (fill (1 + j) (by omega))
    rw [Nat.add_right_comm, skipFill, readIn_byte inside (by omega), andThen_done, if_pos (by exact fill 0 (by omega)),
      ih (s := advance 1 s) inside (by rw [next, advance_iend]; omega) shorter, advance_advance, Nat.add_comm 1]

section
variable (before : s.hitend = false)
include before

theorem nextByte_plain (h : s.ipos.toNat < s.iend.toNat) (plain : s.mem.read s.ipos.toNat ≠ 0xFF) :
    nextByte s = .done (some (s.mem.read s.ipos.toNat)) (advance 1 s) := by
  rw [nextByte, before, if_neg Bool.false_ne_true, readIn_byte inside h, andThen_done, if_neg plain]

/-- A run of fill bytes is passed over, and what follows it decides. -/
theorem nextByte_run {m : Nat} (pos : 1 ≤ m) (left : s.ipos.toNat + m ≤ s.iend.toNat)
    (fill : ∀ j, j < m → s.mem.read (s.ipos.toNat + j) = 0xFF) :
    nextByte s = (skipFill (s.iend.toNat - (s.ipos.toNat + m)) (advance m s)).andThen afterFill := by
  obtain ⟨k, rfl⟩ := Nat.exists_eq_add_of_le pos
  have next : (advance 1 s).ipos.toNat = s.ipos.toNat + 1 := advance_ipos_toNat (by omega)
  have rest : streamLeft (advance 1 s) = k + (s.iend.toNat - (s.ipos.toNat + (1 + k))) := by
    simp only [streamLeft, next, advance_iend]
    omega
  have shorter : ∀ j, j < k → s.mem.read ((advance 1 s).ipos.toNat + j) = 0xFF := fun j hj =>
    (read_advance (by omega) j).trans (fill (1 + j) (by omega))
  rw [nextByte, before, if_neg Bool.false_ne_true, readIn_byte inside (by omega), andThen_done,
    if_pos (by exact fill 0 (by omega)), rest,
    skipFill_run (s := advance 1 s) inside k _ (by rw [next, advance_iend]; omega) shorter, advance_advance]
  rfl

theorem nextByte_after_run {m : Nat} (pos : 1 ≤ m) (left : s.ipos.toNat + m < s.iend.toNat)
    (fill : ∀ j, j < m → s.mem.read (s.ipos.toNat + j) = 0xFF) (stop : s.mem.read (s.ipos.toNat + m) ≠ 0xFF) :
    nextByte s = afterFill (s.mem.read (s.ipos.toNat + m)) (advance (m + 1) s) := by
  have reached : (advance m s).ipos.toNat = s.ipos.toNat + m := advance_ipos_toNat left.le
  obtain ⟨r, rest⟩ := Nat.exists_eq_add_of_lt left
  rw [nextByte_run inside before pos left.le fill, show s.iend.toNat - (s.ipos.toNat + m) = r + 1 by omega,
    skipFill_byte (s := advance m s) inside r (by rwa [reached]) (by rwa [reached]), andThen_done, reached,
    advance_advance, advance_mem]

/-- R100: the end of the stream, also inside a run of fill bytes. -/
theorem nextByte_end {m : Nat} (last : s.ipos.toNat + m = s.iend.toNat)
    (fill : ∀ j, j < m → s.mem.read (s.ipos.toNat + j) = 0xFF) :
    nextByte s = .raised .truncated (advance m s) := by
  rcases Nat.eq_zero_or_pos m with rfl | pos
  · simp [nextByte, before, readIn_end (s := s) (by omega)]
  · rw [nextByte_run inside before pos last.le fill, skipFill_end _ (s := advance m s), andThen_raised]
    rw [advance_ipos_toNat last.le, last, advance_iend]

theorem nextByte_marker {m : Nat} (pos : 1 ≤ m) (left : s.ipos.toNat + m < s.iend.toNat)
    (fill : ∀ j, j < m → s.mem.read (s.ipos.toNat + j) = 0xFF) (stop : s.mem.read (s.ipos.toNat + m) ≠ 0xFF)
    (marker : s.mem.read (s.ipos.toNat + m) ≠ 0) :
    nextByte s = .done none { advance (m - 1) s with hitend := true } := by
  rw [nextByte_after_run inside before pos left fill stop, afterFill_marker marker pos]

end

end

/-- Settles O24, from what follows the run of fill bytes at IPOS. -/
theorem stuffingAndFillBytes : Obligations.StuffingAndFillBytes := by
  refine fun s m => ⟨nextByte_hitend, fun before left inside plain => nextByte_plain inside before left plain,
    fun before pos left inside fill => ⟨fun stuffed => ?_, nextByte_marker inside before pos left fill⟩,
    fun before last inside fill => nextByte_end inside before last fill⟩
  rw [nextByte_after_run inside before pos left fill (by rw [stuffed]; decide), stuffed, afterFill_stuffed]
  rfl

/-! ### The loop of the refill -/

/-- One turn of the refill does not touch CNT. -/
theorem nextByte_cnt {s t : State} {ob : Option Byte} (h : nextByte s = .done ob t) : t.cnt = s.cnt := by
  unfold nextByte at h
  split at h
  · cases h
    rfl
  rw [andThen_eq_done] at h
  obtain ⟨b, s1, read, turn⟩ := h
  obtain ⟨_, _, rfl⟩ := readIn_done s s1 b read
  split at turn
  · rw [andThen_eq_done] at turn
    obtain ⟨c, s2, skipped, turn⟩ := turn
    obtain ⟨_, moved, _⟩ := skipFill_done _ _ _ _ skipped
    have kept : s2.cnt = s.cnt := by rw [moved]
    split at turn <;> (cases turn; exact kept)
  · cases turn
    rfl

theorem refillTurns_full (n : Nat) {s : State} (full : 24 < s.cnt) : refillTurns n s = .done () s := by
  cases n with
  | zero => rfl
  | succ n => rw [refillTurns, if_pos full]

/-- With room for a byte, one turn is taken and its outcome decides. -/
theorem refillTurns_turn (n : Nat) {s : State} (room : s.cnt ≤ 24) :
    refillTurns (n + 1) s =
      (nextByte s).andThen fun ob s1 => ob.elim (.done () s1) fun b => refillTurns n (appendByte b s1) := by
  rw [refillTurns, if_neg (by omega)]
  congr
  funext ob s1
  cases ob <;> rfl

/-- A turn more than CNT needs changes nothing. -/
theorem refillTurns_succ (n : Nat) (s : State) (enough : 24 < s.cnt + 8 * n) :
    refillTurns (n + 1) s = refillTurns n s := by
  induction n generalizing s with
  | zero => rw [refillTurns_full _ (by omega), refillTurns_full _ (by omega)]
  | succ n ih =>
    rcases Nat.lt_or_ge 24 s.cnt with full | room
    · rw [refillTurns_full _ full, refillTurns_full _ full]
    rw [refillTurns_turn _ room, refillTurns_turn _ room]
    cases turn : nextByte s with
    | done ob s1 =>
      cases ob with
      | none => rfl
      | some b => exact ih (appendByte b s1) (by rw [appendByte_cnt, nextByte_cnt turn]; omega)
    | raised c s1 => rfl
    | stopped f => rfl

section
variable {s s1 : State} (room : s.cnt ≤ 24)
include room

theorem refill_marker (turn : nextByte s = .done none s1) : refill s = .done () s1 := by
  rw [refill, refillTurns_turn _ room, turn]
  rfl

theorem refill_raised {c : FaultCode} (turn : nextByte s = .raised c s1) : refill s = .raised c s1 := by
  rw [refill, refillTurns_turn _ room, turn]
  rfl

/-- After a byte the refill starts over: the turns left are as many as it can still need. -/
theorem refill_byte {b : Byte} (turn : nextByte s = .done (some b) s1) : refill s = refill (appendByte b s1) := by
  rw [refill, refillTurns_turn _ room, turn]
  exact (refillTurns_succ 3 (appendByte b s1) (by rw [appendByte_cnt]; omega)).symm

end

/-- Settles O22, turn by turn. -/
theorem refillIsItsLoop : Obligations.RefillIsItsLoop :=
  fun s => ⟨refill_full s, fun _ => refill_marker, fun _ _ room => refill_byte room, fun _ _ room => refill_raised room⟩

/-! ### REFILL -/

theorem exec_refill_done {s t : State} (h : refill s = .done () t) : exec .refill s = .next (complete t) :=
  congrArg Eff.finish h

theorem exec_refill_raised {s t : State} {c : FaultCode} (h : refill s = .raised c t) :
    exec .refill s = .next (takeFault c t) :=
  congrArg Eff.finish h

/-- After a marker each turn adds eight zero bits. -/
theorem refill_hitend (k : Nat) (s : State) (ended : s.hitend = true) (turns : k = (32 - s.cnt) / 8) :
    refill s = .done () { s with cnt := s.cnt + 8 * k } := by
  induction k generalizing s with
  | zero => exact refill_full s (by omega)
  | succ k ih =>
    have zeros : appendByte 0 s = { s with cnt := s.cnt + 8 } := by simp [appendByte]
    rw [refill_byte (by omega) (nextByte_hitend ended), zeros,
      ih { s with cnt := s.cnt + 8 } ended (by simp only; omega)]
    simp only [Nat.mul_succ, Nat.add_assoc, Nat.add_comm 8]

/-- `s` with the next `k` bytes of memory below the valid bits, most significant first. -/
def appendPlain (k : Nat) (s : State) : State :=
  { s with
    acc := (List.range k).foldl
      (fun a j => a ||| ((s.mem.read (s.ipos.toNat + j)).setWidth 32 <<< (24 - s.cnt - 8 * j))) s.acc
    cnt := s.cnt + 8 * k
    ipos := s.ipos + BitVec.ofNat 32 k }

theorem appendPlain_zero (s : State) : appendPlain 0 s = s := by simp [appendPlain]

theorem appendPlain_succ (k : Nat) (s : State) (left : s.ipos.toNat < s.iend.toNat) :
    appendPlain (k + 1) s = appendPlain k (appendByte (s.mem.read s.ipos.toNat) (advance 1 s)) := by
  have shift (j : Nat) : 24 - s.cnt - 8 * (j + 1) = 24 - (s.cnt + 8) - 8 * j := by omega
  have count : s.cnt + 8 * (k + 1) = s.cnt + 8 + 8 * k := by omega
  have moved : s.ipos + BitVec.ofNat 32 (k + 1) = (advance 1 s).ipos + BitVec.ofNat 32 k := by
    simp only [advance, BitVec.ofNat_add, BitVec.add_assoc, BitVec.add_comm (BitVec.ofNat 32 1)]
  simp only [appendPlain, moved, count, List.range_succ_eq_map, List.foldl_cons, List.foldl_map, Nat.succ_eq_add_one,
    shift, appendByte_acc, appendByte_cnt, appendByte_ipos, appendByte_mem, advance_acc, advance_cnt, advance_mem,
    read_advance (m := 1) left, Nat.add_comm 1]
  rfl

/-- Enough plain bytes are appended until CNT is above 24. -/
theorem refill_plain (k : Nat) (s : State) (before : s.hitend = false) (turns : k = (32 - s.cnt) / 8)
    (left : s.ipos.toNat + k ≤ s.iend.toNat) (inside : s.iend.toNat ≤ s.params.memSize)
    (plain : ∀ j, j < k → s.mem.read (s.ipos.toNat + j) ≠ 0xFF) : refill s = .done () (appendPlain k s) := by
  induction k generalizing s with
  | zero => rw [appendPlain_zero, refill_full s (by omega)]
  | succ k ih =>
    have next : (advance 1 s).ipos.toNat = s.ipos.toNat + 1 := advance_ipos_toNat (by omega)
    rw [refill_byte (by omega) (nextByte_plain inside before (by omega) (plain 0 (by omega))),
      appendPlain_succ k s (by omega)]
    refine ih _ before (by rw [appendByte_cnt, advance_cnt]; omega) ?_ inside fun j hj => ?_
    · rw [appendByte_ipos, appendByte_iend, advance_iend, next]
      omega
    · rw [appendByte_ipos, appendByte_mem, advance_mem, read_advance (by omega)]
      exact plain (1 + j) (by omega)

/-- Settles O23, by induction on the number of turns left. -/
theorem refillAddsBytes : Obligations.RefillAddsBytes :=
  ⟨fun s => ⟨fun full => exec_refill_done (refill_full s full),
      fun _ ended => exec_refill_done (refill_hitend _ s ended rfl)⟩,
    fun s k _ before turns left inside plain => exec_refill_done (refill_plain k s before turns left inside plain)⟩

/-- Settles O25: the first turn ends the refill. -/
theorem refillAtAMarkerOrTheEnd : Obligations.RefillAtAMarkerOrTheEnd :=
  fun _ _ room before inside fill =>
    ⟨fun pos left stop marker =>
        exec_refill_done (refill_marker room (nextByte_marker inside before pos left fill stop marker)),
      fun last => exec_refill_raised (refill_raised room (nextByte_end inside before last fill))⟩

/-! ### Commands with field N -/

theorem commandWord_width (op : Byte) (n : Nat) :
    commandWord op .dc 0 n = op.setWidth 32 ||| (BitVec.ofNat 32 n <<< 11) := by
  simp [commandWord]

/-- ACC >> (32 − n) as a number. -/
theorem topBits_toNat (n : Nat) (s : State) : (topBits n s).toNat = s.acc.toNat / 2 ^ (32 - n) := by
  rw [topBits, BitVec.toNat_ushiftRight, Nat.shiftRight_eq_div_pow]

theorem topBits_eq (n : Nat) (s : State) : topBits n s = BitVec.ofNat 32 (s.acc.toNat / 2 ^ (32 - n)) := by
  rw [← topBits_toNat, BitVec.ofNat_toNat, BitVec.setWidth_eq]

theorem withWidth_of_zero {n : Nat} (zero : n = 0) (body : State → Eff Word) (s : State) :
    withWidth n body s = .next { s with res := 0, busy := false } := by
  rw [zero, withWidth_zero]
  rfl

section
variable {n : Nat} {body : State → Eff Word} {s t : State} (pos : 1 ≤ n) (narrow : n ≤ 16)
include pos narrow

theorem withWidth_done {v : Word} (run : body s = .done v t) :
    withWidth n body s = .next { t with res := v, busy := false } := by
  rw [withWidth_body n body s pos narrow, run]
  rfl

theorem withWidth_raised {c : FaultCode} (run : body s = .raised c t) :
    withWidth n body s = .next { t with fault := some c, finfo := t.cmd, busy := false } := by
  rw [withWidth_body n body s pos narrow, run]
  rfl

end

section
variable {n : Nat} {s s1 : State}

theorem ensureBits_buffered (h : buffered n s s1) : ensureBits n s = .done () s1 := by
  obtain ⟨enough, rfl⟩ | ⟨few, run⟩ := h
  · exact if_neg (by omega)
  · exact (if_pos few).trans run

theorem ensureBits_raised {c : FaultCode} (few : s.cnt < n) (run : refill s = .raised c s1) :
    ensureBits n s = .raised c s1 :=
  (if_pos few).trans run

theorem getBits_buffered (h : buffered n s s1) (enough : n ≤ s1.cnt) :
    getBits n s = .done (topBits n s1) (consume n s1) := by
  rw [getBits, ensureBits_buffered h, andThen_done, if_neg (by omega)]

theorem getBits_underrun (h : buffered n s s1) (few : s1.cnt < n) : getBits n s = .raised .bitsUnderrun s1 := by
  rw [getBits, ensureBits_buffered h, andThen_done, if_pos few]

theorem getBits_raised {c : FaultCode} (few : s.cnt < n) (run : refill s = .raised c s1) :
    getBits n s = .raised c s1 := by
  rw [getBits, ensureBits_raised few run, andThen_raised]

end

/-- What PEEK puts in RES (R107). -/
def peekBits (n : Nat) (s : State) : Eff Word := (ensureBits n s).andThen fun _ s1 => .done (topBits n s1) s1

theorem exec_peek (n : Nat) (s : State) : exec (.peek n) s = withWidth n (peekBits n) s := rfl

theorem exec_peek_buffered {n : Nat} {s s1 : State} (pos : 1 ≤ n) (narrow : n ≤ 16) (h : buffered n s s1) :
    exec (.peek n) s = .next { s1 with res := BitVec.ofNat 32 (s1.acc.toNat / 2 ^ (32 - n)), busy := false } := by
  rw [← topBits_eq, exec_peek]
  exact withWidth_done pos narrow (by rw [peekBits, ensureBits_buffered h, andThen_done])

/-- Settles O26, by the width and by whether a refill is needed. -/
theorem peekResult : Obligations.PeekResult := by
  refine fun n s => ⟨commandWord_width 0x04 n, withWidth_wide n (peekBits n) s,
    fun zero => withWidth_of_zero zero (peekBits n) s,
    fun pos narrow enough => exec_peek_buffered pos narrow (.inl ⟨enough, rfl⟩),
    fun pos narrow few _ run => exec_peek_buffered pos narrow (.inr ⟨few, run⟩),
    fun pos narrow few c s1 run => withWidth_raised (body := peekBits n) pos narrow ?_⟩
  rw [peekBits, ensureBits_raised few run, andThen_raised]

/-- Settles O27, from the three ways `GetBits` ends. -/
theorem getbitsResult : Obligations.GetbitsResult := by
  refine fun n s => ⟨commandWord_width 0x05 n, withWidth_wide n (getBits n) s,
    fun zero => withWidth_of_zero zero (getBits n) s, fun pos narrow s1 h =>
      ⟨fun enough => ⟨?_, ?_⟩, fun few => withWidth_raised pos narrow (getBits_underrun h few)⟩,
    fun pos narrow few c s1 run => withWidth_raised pos narrow (getBits_raised few run)⟩
  · rw [← topBits_toNat]
    exact topBits_lt n s1 (by omega)
  · rw [← topBits_eq]
    exact withWidth_done pos narrow (getBits_buffered h enough)

/-- R110: the signed integer of the low `n` bits, told by their top bit. -/
theorem extendSigned_eq {n : Nat} (pos : 1 ≤ n) (v : Word) (small : v.toNat < 2 ^ n) :
    extendSigned n v =
      BitVec.ofInt 32 (if (2 : Int) ^ (n - 1) ≤ (v.toNat : Int) then (v.toNat : Int) else v.toNat - (2 ^ n - 1)) := by
  have top : v.getLsbD (n - 1) = true ↔ (2 : Int) ^ (n - 1) ≤ (v.toNat : Int) := by
    rw [BitVec.getLsbD]
    norm_cast
    constructor
    · exact Nat.ge_two_pow_of_testBit
    · intro ge
      exact Nat.testBit_of_two_pow_le_and_two_pow_add_one_gt ge (by rwa [Nat.sub_add_cancel pos])
  simp only [extendSigned, top]
  split
  · rw [BitVec.ofInt_natCast, BitVec.ofNat_toNat, BitVec.setWidth_eq]
  · rfl

/-- What RECEXT puts in RES (R110). -/
def signedBits (n : Nat) (s : State) : Eff Word := (getBits n s).andThen fun v s1 => .done (extendSigned n v) s1

theorem exec_recext (n : Nat) (s : State) : exec (.recext n) s = withWidth n (signedBits n) s := rfl

theorem exec_recext_buffered {n : Nat} {s s1 : State} (pos : 1 ≤ n) (narrow : n ≤ 16) (h : buffered n s s1)
    (enough : n ≤ s1.cnt) (v : Int) (pattern : v = ((s1.acc.toNat / 2 ^ (32 - n) : Nat) : Int)) :
    exec (.recext n) s =
      .next { s1 with
        res := BitVec.ofInt 32 (if 2 ^ (n - 1) ≤ v then v else v - (2 ^ n - 1))
        acc := s1.acc <<< n
        cnt := s1.cnt - n
        busy := false } := by
  rw [pattern, ← topBits_toNat, ← extendSigned_eq pos (topBits n s1) (topBits_lt n s1 (by omega)), exec_recext]
  exact withWidth_done pos narrow (t := consume n s1) (by rw [signedBits, getBits_buffered h enough, andThen_done])

/-- Settles O28, from the three ways `GetBits` ends. -/
theorem recextResult : Obligations.RecextResult := by
  refine fun n s => ⟨commandWord_width 0x06 n, withWidth_wide n (signedBits n) s,
    fun zero => withWidth_of_zero zero (signedBits n) s, fun pos narrow s1 h =>
      ⟨exec_recext_buffered pos narrow h, fun few => withWidth_raised (body := signedBits n) pos narrow ?_⟩,
    fun pos narrow few c s1 run => withWidth_raised (body := signedBits n) pos narrow ?_⟩
  · rw [signedBits, getBits_underrun h few, andThen_raised]
  · rw [signedBits, getBits_raised few run, andThen_raised]

/-- The signed integer of a pattern `p` of `n` bits (R110). -/
def signedOf (n p : Nat) : Int := if 2 ^ (n - 1) ≤ p then p else p - (2 ^ n - 1)

/-- R111: its range, and that it is not 0. -/
theorem signedOf_range {n p : Nat} (pos : 1 ≤ n) (small : p < 2 ^ n) :
    -(2 ^ n - 1) ≤ signedOf n p ∧ signedOf n p ≤ 2 ^ n - 1 ∧ signedOf n p ≠ 0 := by
  have double : 2 ^ n = 2 * 2 ^ (n - 1) := by rw [← Nat.pow_succ', Nat.succ_eq_add_one, Nat.sub_add_cancel pos]
  have half : 0 < 2 ^ (n - 1) := by positivity
  have cast : (2 : Int) ^ n = ((2 ^ n : Nat) : Int) := by norm_cast
  unfold signedOf
  rw [cast]
  split <;> omega

theorem toInt_ofInt_of_small {n : Nat} (narrow : n ≤ 16) {v : Int} (low : -(2 ^ n - 1) ≤ v) (high : v ≤ 2 ^ n - 1) :
    (BitVec.ofInt 32 v).toInt = v := by
  have bound : (2 : Int) ^ n ≤ 2 ^ 16 := by gcongr; norm_num
  exact BitVec.toInt_ofInt_eq_self (by norm_num) (by omega) (by omega)

/-- Settles O29, from the range of the signed integer. -/
theorem signedResultRange : Obligations.SignedResultRange := by
  refine ⟨fun n p s pos narrow enough pattern => ?_, fun s => ⟨_, withWidth_zero (signedBits 0) s, rfl⟩⟩
  have small : p < 2 ^ n := by
    rw [pattern, ← topBits_toNat]
    exact topBits_lt n s (by omega)
  obtain ⟨low, high, nonzero⟩ := signedOf_range pos small
  obtain ⟨t, run, value⟩ : ∃ t, exec (.recext n) s = .next t ∧ t.res.toInt = signedOf n p := by
    have top : (2 : Int) ^ (n - 1) ≤ p ↔ 2 ^ (n - 1) ≤ p := by norm_cast
    refine ⟨_, exec_recext_buffered pos narrow (.inl ⟨enough, rfl⟩) enough p (by rw [pattern]), ?_⟩
    simp only [top]
    exact toInt_ofInt_of_small narrow low high
  refine ⟨t, run, value, ?_⟩
  rw [value]
  exact ⟨low, high, nonzero⟩

/-! ### RSTSYNC, BRINIT and BRRESET -/

section
variable {s : State}

theorem rstsync_short (short : s.iend.toNat < s.ipos.toNat + 2) :
    rstsync s = .raised .truncated { s with acc := 0, cnt := 0 } :=
  if_pos short

variable (left : s.ipos.toNat + 2 ≤ s.iend.toNat) (inside : s.iend.toNat ≤ s.params.memSize)
include left inside

theorem rstsync_missing
    (other : s.mem.read s.ipos.toNat ≠ 0xFF ∨ s.mem.read (s.ipos.toNat + 1) < 0xD0 ∨
      0xD7 < s.mem.read (s.ipos.toNat + 1)) :
    rstsync s = .raised .rstMissing { s with acc := 0, cnt := 0 } := by
  rw [rstsync, if_neg (by exact left.not_gt), if_neg (by exact (left.trans inside).not_gt), if_pos (by exact other)]

theorem rstsync_found
    (marker : ¬(s.mem.read s.ipos.toNat ≠ 0xFF ∨ s.mem.read (s.ipos.toNat + 1) < 0xD0 ∨
      0xD7 < s.mem.read (s.ipos.toNat + 1))) :
    rstsync s = .done () { s with
      acc := 0, cnt := 0, ipos := s.ipos + 2, hitend := false
      res := (s.mem.read (s.ipos.toNat + 1) - 0xD0).setWidth 32 } := by
  rw [rstsync, if_neg (by exact left.not_gt), if_neg (by exact (left.trans inside).not_gt), if_neg (by exact marker)]

end

/-- The bytes 0xD0..0xD7 carry the restart number n (R112). -/
theorem restart_number : ∀ n, n ≤ 7 → (BitVec.ofNat 8 (0xD0 + n) - 0xD0#8).setWidth 32 = BitVec.ofNat 32 n ∧
    ¬BitVec.ofNat 8 (0xD0 + n) < 0xD0#8 ∧ ¬0xD7#8 < BitVec.ofNat 8 (0xD0 + n) := by decide

/-- Settles O30, check by check in the order of R112. -/
theorem rstsyncPassesARestartMarker : Obligations.RstsyncPassesARestartMarker := by
  refine ⟨by decide, fun s inside => ⟨fun short => ?_, fun left other => ?_, fun left n small first second => ?_⟩⟩
  · exact congrArg Eff.finish (rstsync_short short)
  · exact congrArg Eff.finish (rstsync_missing left inside other)
  · obtain ⟨number, low, high⟩ := restart_number n small
    rw [← number, ← second]
    rw [← second] at low high
    exact congrArg Eff.finish (rstsync_found left inside (not_or.2 ⟨not_not.2 first, not_or.2 ⟨low, high⟩⟩))

/-- What BRINIT writes (R101). -/
def setStream (s : State) : State :=
  { s with ipos := s.args.get 0, iend := s.args.get 1, acc := 0, cnt := 0, hitend := false }

theorem exec_brinit (s : State) : exec .brinit s = checked (brinitCheck s) setStream s := rfl

/-- Settles O20, check by check in the order of R101. -/
theorem brinitSetsTheStream : Obligations.BrinitSetsTheStream := by
  refine ⟨by decide, fun s => ⟨fun past => ?_, fun inside crossed => ?_, fun inside ordered => ?_⟩⟩
  · rw [exec_brinit, checked_some]
    rw [brinitCheck, firstFailing_bad (decide_eq_true past)]
  · rw [exec_brinit, checked_some]
    rw [brinitCheck, firstFailing_good (decide_eq_false (by omega)), firstFailing_bad (decide_eq_true crossed)]
  · have good : brinitCheck s = none := (brinitCheck_none s).2 ⟨inside, ordered⟩
    rw [exec_brinit, good]
    rfl

/-- Settles O21: BRRESET writes these three and ends. -/
theorem brresetDropsTheAccumulator : Obligations.BrresetDropsTheAccumulator := ⟨by decide, fun _ => rfl⟩

end Sys2Proof.Machine
end

section
/-! PROOFS of the Huffman statements (spec/41_huffman.md). A built table is read through the numbers of its lengths:
MAXCODE cuts the 16-bit patterns into one interval per length, each filled by the codes of that length in order. From
this the scan of the lengths finds the code that a pattern begins with, and the ways HDEC ends follow. -/

namespace Sys2Proof.Machine

open Sys2Proof

/-! ### Counts and codes -/

/-- Settles O32, from the closed form of the code book. -/
theorem canonicalCodeAssignment : Obligations.CanonicalCodeAssignment := by
  intro counts len
  refine ⟨?_, fun b book i h1 h2 => ⟨fun m hm => ⟨codes_at book h1 (by omega) hm, sizes_at h1 (by omega) hm⟩,
    deltas_at book h1 (by omega), maxcodes_at book h1 (by omega)⟩⟩
  simp only [buildCodes_eq_some, exists_and_left, exists_eq, and_true, len]
  exact Iff.rfl

theorem firstIndex_one (counts : List Nat) : firstIndex counts 1 = 0 := rfl

theorem firstIndex_le_sum (counts : List Nat) (i : Nat) : firstIndex counts i ≤ counts.sum :=
  (List.take_sublist _ _).sum_le_sum (by simp)

theorem firstIndex_mono (counts : List Nat) {i j : Nat} (le : i ≤ j) : firstIndex counts i ≤ firstIndex counts j :=
  (List.take_sublist_take_left (by omega)).sum_le_sum (by simp)

/-- The symbols of length i end where those of length i + 1 begin. -/
theorem firstIndex_add_countOf (counts : List Nat) {i : Nat} (h1 : 1 ≤ i) :
    firstIndex counts i + countOf counts i = firstIndex counts (i + 1) := by
  obtain ⟨n, rfl⟩ := Nat.exists_eq_add_of_le' h1
  exact (firstIndex_succ counts n).symm

theorem firstCode_next (counts : List Nat) {i : Nat} (h1 : 1 ≤ i) :
    firstCode counts (i + 1) = 2 * (firstCode counts i + countOf counts i) := by
  obtain ⟨n, rfl⟩ := Nat.exists_eq_add_of_le' h1
  exact firstCode_succ counts n

/-- Over lengths without symbols the running code is only shifted (R130). -/
theorem firstCode_shift (counts : List Nat) {i j : Nat} (h1 : 1 ≤ i) (le : i ≤ j)
    (same : firstIndex counts j = firstIndex counts i) :
    firstCode counts j = firstCode counts i * 2 ^ (j - i) := by
  induction j, le using Nat.le_induction with
  | base => simp
  | succ j le ih =>
    have last := firstIndex_add_countOf counts (h1.trans le)
    have before := firstIndex_mono counts le
    rw [firstCode_next counts (h1.trans le), ih (by omega), show countOf counts j = 0 by omega, Nat.add_zero,
      Nat.sub_add_comm le, Nat.pow_succ, Nat.mul_comm 2, Nat.mul_assoc]

/-- The first code of length j follows the last one of length i when no length between them has symbols (R130). -/
theorem firstCode_after_last (counts : List Nat) {i j : Nat} (h1 : 1 ≤ i) (lt : i < j)
    (same : firstIndex counts j = firstIndex counts (i + 1)) :
    firstCode counts j = (firstCode counts i + countOf counts i) * 2 ^ (j - i) := by
  rw [firstCode_shift counts (i := i + 1) (by omega) lt same, firstCode_next counts h1,
    show j - i = j - (i + 1) + 1 by omega, Nat.pow_succ, Nat.mul_comm 2, Nat.mul_assoc, Nat.mul_comm 2]

/-- The codes of a shorter length end, as 16-bit patterns, before those of a longer length begin. -/
theorem lastCode_scaled_le (counts : List Nat) {i j : Nat} (h1 : 1 ≤ i) (lt : i < j) (h2 : j ≤ 16) :
    (firstCode counts i + countOf counts i) * 2 ^ (16 - i) ≤ firstCode counts j * 2 ^ (16 - j) := by
  obtain ⟨d, rfl⟩ := Nat.exists_eq_add_of_lt lt
  rw [show 16 - i = d + 1 + (16 - (i + d + 1)) by omega, Nat.pow_add, ← Nat.mul_assoc]
  exact Nat.mul_le_mul_right _ (firstCode_after counts i d h1)

/-- The codes of the lengths up to i leave no gap: a 16-bit pattern before the end of length i begins with a code. -/
theorem exists_code_of_lt (counts : List Nat) {i x : Nat} (h1 : 1 ≤ i) (h2 : i ≤ 16)
    (below : x < (firstCode counts i + countOf counts i) * 2 ^ (16 - i)) :
    ∃ j m, 1 ≤ j ∧ j ≤ 16 ∧ m < countOf counts j ∧ x / 2 ^ (16 - j) = firstCode counts j + m := by
  induction i, h1 using Nat.le_induction with
  | base =>
    rw [← Nat.div_lt_iff_lt_mul (by positivity)] at below
    exact ⟨1, x / 2 ^ (16 - 1), le_rfl, h2, by simpa [firstCode] using below, by simp [firstCode]⟩
  | succ i h1 ih =>
    rcases Nat.lt_or_ge x ((firstCode counts i + countOf counts i) * 2 ^ (16 - i)) with shorter | past
    · exact ih (by omega) shorter
    rw [show 16 - i = 16 - (i + 1) + 1 by omega, Nat.pow_succ, Nat.mul_comm _ 2, ← Nat.mul_assoc, Nat.mul_comm _ 2,
      ← firstCode_next counts h1, ge_iff_le, ← Nat.le_div_iff_mul_le (by positivity)] at past
    rw [← Nat.div_lt_iff_lt_mul (by positivity)] at below
    exact ⟨i + 1, x / 2 ^ (16 - (i + 1)) - firstCode counts (i + 1), by omega, h2, by omega, by omega⟩

/-- The size loop gives as many symbols of size x as the count for x says. -/
theorem buildSizes_filter_length (counts : List Nat) {i x : Nat} (h : i ≤ x) :
    ((buildSizes i counts).filter fun y => y == x).length = counts.getD (x - i) 0 := by
  induction counts generalizing i with
  | nil => rfl
  | cons l rest ih =>
    rw [buildSizes, List.filter_append, List.length_append]
    rcases Nat.eq_or_lt_of_le h with rfl | lt
    · have longer : (buildSizes (i + 1) rest).filter (fun y => y == i) = [] := by
        refine List.filter_eq_nil_iff.2 fun y hy => ?_
        have := buildSizes_range rest (i + 1) y hy
        simp only [beq_iff_eq]
        omega
      simp [longer]
    · have step : x - i = x - (i + 1) + 1 := by omega
      rw [ih lt, step, List.getD_cons_succ, List.filter_replicate_of_neg (by simp; omega)]
      simp

/-! ### HBUILD -/

/-- A check of HBUILD that fails raises its fault, and nothing else changes (R131). -/
theorem exec_hbuild_check {c : HClass} {t : Fin 4} {s : State} {f : FaultCode} (check : hbuildCheck s = some f) :
    exec (.hbuild c t) s = .next { s with fault := some f, finfo := s.cmd, busy := false } := by
  simp only [exec, execHbuild, check]
  rfl

/-- Counts whose codes do not fit are refused by the code loop, and nothing else changes (R131). -/
theorem exec_hbuild_unfit {c : HClass} {t : Fin 4} {s : State} (check : hbuildCheck s = none)
    (unfit : buildCodes 1 0 0 (huffCounts s) = none) :
    exec (.hbuild c t) s = .next { s with fault := some .huffBadTable, finfo := s.cmd, busy := false } := by
  simp only [exec, execHbuild, check, unfit]
  rfl

/-- Settles O34, check by check in the order of R131; the code loop comes last. -/
theorem hbuildFaultsKeepTheTable : Obligations.HbuildFaultsKeepTheTable := by
  intro c t s
  refine ⟨fun past => exec_hbuild_check ?_, fun counts many => exec_hbuild_check ?_,
    fun counts few past => exec_hbuild_check ?_, fun input few unfit =>
      exec_hbuild_unfit ((hbuildCheck_none s).2 ⟨input, few⟩) ?_⟩
  · exact firstFailing_bad (decide_eq_true past) _ _
  · rw [hbuildCheck, firstFailing_good (decide_eq_false (by omega))]
    exact firstFailing_bad (decide_eq_true many) _ _
  · rw [hbuildCheck, firstFailing_good (decide_eq_false (by omega)), firstFailing_good (decide_eq_false (by omega))]
    exact firstFailing_bad (decide_eq_true past) _ _
  · obtain ⟨i, h1, h2, used, exceeds⟩ := unfit
    refine Option.eq_none_iff_forall_ne_some.2 fun b book => ?_
    have fits := (canonicalCodeAssignment _ (huffCounts_length s)).1.1 ⟨b, book⟩ i h1 h2
    rw [countOf_huffCounts s i h1 h2] at fits
    exact absurd (fits used) (by omega)

/-! ### The lengths of a built table -/

section
variable {counts : List Nat} {symbols : List Byte} {b : CodeBook} (len : counts.length = 16)
  (book : buildCodes 1 0 0 counts = some b)
include len book

theorem countOf_le_of_book {i : Nat} (h1 : 1 ≤ i) (h2 : i ≤ 16) : firstCode counts i + countOf counts i ≤ 2 ^ i :=
  firstCode_le ((buildCodes_eq_some counts b).1 book).1 i h1 (by omega)

/-- Every symbol index of the committed table is the m-th of some length i, with its size and code. -/
theorem builtTable_position {k : Nat} (hk : k < counts.sum) :
    ∃ i m, 1 ≤ i ∧ i ≤ 16 ∧ m < countOf counts i ∧ k = firstIndex counts i + m ∧
      (builtTable counts symbols b).sizeAt k = i ∧
      ((builtTable counts symbols b).codeAt k).toNat = firstCode counts i + m := by
  obtain ⟨i, m, h1, h2, hm, rfl⟩ := exists_length_of_lt_sum hk
  obtain ⟨size, code⟩ := builtTable_symbol_at (symbols := symbols) len book h1 (by omega) hm
  exact ⟨i, m, h1, by omega, hm, rfl, size, code⟩

/-- Symbol index 0 has the code 0 (R130). -/
theorem builtTable_codeAt_zero (pos : 0 < counts.sum) : ((builtTable counts symbols b).codeAt 0).toNat = 0 := by
  obtain ⟨i, m, h1, _, _, index, _, code⟩ := builtTable_position (symbols := symbols) len book pos
  have shift := firstCode_shift counts le_rfl h1 (by rw [firstIndex_one]; omega)
  rw [code, shift, firstCode, Nat.zero_mul]
  omega

/-- The code after that of symbol index k is one more, shifted to its own length (R130). -/
theorem builtTable_codeAt_succ {k : Nat} (hk : k + 1 < counts.sum) :
    (builtTable counts symbols b).sizeAt k ≤ (builtTable counts symbols b).sizeAt (k + 1) ∧
      ((builtTable counts symbols b).codeAt (k + 1)).toNat =
        (((builtTable counts symbols b).codeAt k).toNat + 1) *
          2 ^ ((builtTable counts symbols b).sizeAt (k + 1) - (builtTable counts symbols b).sizeAt k) := by
  obtain ⟨i, m, h1, _, hm, index, size, code⟩ := builtTable_position (symbols := symbols) len book
    (Nat.lt_of_succ_lt hk)
  obtain ⟨j, n, j1, _, hn, index', size', code'⟩ := builtTable_position (symbols := symbols) len book hk
  rw [size, size', code, code']
  have end_i := firstIndex_add_countOf counts h1
  have end_j := firstIndex_add_countOf counts j1
  rcases Nat.lt_trichotomy j i with lt | rfl | lt
  · have := firstIndex_mono counts (i := j + 1) lt
    omega
  · simp only [le_refl, Nat.sub_self, Nat.pow_zero, true_and]
    omega
  · have mono := firstIndex_mono counts (i := i + 1) lt
    have last : m + 1 = countOf counts i := by omega
    have first : n = 0 := by omega
    exact ⟨lt.le, by rw [first, Nat.add_zero, firstCode_after_last counts h1 lt (by omega), Nat.add_assoc, last]⟩

/-- MAXCODE does not decrease (R133). -/
theorem builtTable_maxcodeAt_mono (few : counts.sum ≤ 256) {i j : Nat} (h1 : 1 ≤ i) (le : i ≤ j) (h2 : j ≤ 17) :
    (builtTable counts symbols b).maxcodeAt i ≤ (builtTable counts symbols b).maxcodeAt j := by
  rcases Nat.eq_or_lt_of_le le with rfl | lt
  · exact BitVec.le_refl _
  rw [BitVec.le_def, (builtTable_length_at (symbols := symbols) len book h1 (by omega) few).2]
  rcases Nat.eq_or_lt_of_le h2 with rfl | short
  · have fits := Nat.mul_le_mul_right (2 ^ (16 - i)) (countOf_le_of_book len book h1 (by omega))
    rw [← Nat.pow_add, Nat.add_sub_cancel' (by omega)] at fits
    rw [builtTable_maxcodeAt_last len book]
    exact fits.trans (by decide)
  · rw [(builtTable_length_at len book (h1.trans le) (by omega) few).2]
    exact (lastCode_scaled_le counts h1 lt (by omega)).trans (Nat.mul_le_mul_right _ (Nat.le_add_right _ _))

end

/-- Settles O35: the facts of the lengths, put together. -/
theorem builtTableInvariants : Obligations.BuiltTableInvariants := by
  rintro h ⟨counts, symbols, b, len, _, few, _, book, rfl⟩
  refine ⟨few, fun pos => builtTable_codeAt_zero len book pos, fun i h1 h2 => ?_, fun k hk => ?_,
    fun k hk => builtTable_codeAt_succ len book hk, fun i j h1 le h2 => builtTable_maxcodeAt_mono len book few h1 le h2⟩
  · rw [builtTable_size, buildSizes_filter_length counts h1]
    exact (Nat.le_add_left _ _).trans (countOf_le_of_book len book h1 h2)
  · obtain ⟨i, m, h1, h2, hm, _, size, code⟩ := builtTable_position (symbols := symbols) len book hk
    have fits := countOf_le_of_book len book h1 h2
    rw [size, code]
    exact ⟨h1, h2, by omega⟩

/-- Settles O36: the entry of a short code holds its index, so no two short codes begin the same entry. -/
theorem fastTableIsThePrefixLookup : Obligations.FastTableIsThePrefixLookup := by
  rintro h e ⟨counts, symbols, b, len, _, few, _, book, rfl⟩
  have holds := builtTable_fast_symbol (symbols := symbols) len book few e
  exact ⟨fun k hk short code => ⟨holds k hk short code, fun j hj short' code' =>
      (holds j hj short' code').symm.trans (holds k hk short code)⟩,
    builtTable_fast_sentinel len book e⟩

/-- Settles O37: MAXCODE of the length of a code lies past the patterns that begin with it, and MAXCODE of a shorter
length does not. -/
theorem maxcodeFindsTheLength : Obligations.MaxcodeFindsTheLength := by
  rintro h ⟨counts, symbols, b, len, _, few, _, book, rfl⟩
  refine ⟨fun i j h1 le h2 => builtTable_maxcodeAt_mono len book few h1 le (by omega), fun x k _ hk begins => ?_⟩
  obtain ⟨i, m, h1, h2, hm, index, size, code⟩ := builtTable_position (symbols := symbols) len book hk
  obtain ⟨delta, maxcode⟩ := builtTable_length_at (symbols := symbols) len book h1 h2 few
  rw [size, code] at begins
  rw [size, code, delta, maxcode]
  refine ⟨?_, fun j j1 lt => ?_, by omega⟩
  · rw [← Nat.div_lt_iff_lt_mul (by positivity)]
    omega
  · rw [(builtTable_length_at len book j1 (by omega) few).2]
    refine (lastCode_scaled_le counts j1 lt h2).trans ?_
    rw [← Nat.le_div_iff_mul_le (by positivity)]
    omega

/-! ### The code that a bit pattern begins with -/

/-- The code of symbol index k begins the number `x` of `width` bits: the two agree in the first SIZE[k] bits. -/
def HuffTable.CodeBegins (h : HuffTable) (width x k : Nat) : Prop :=
  x / 2 ^ (width - h.sizeAt k) = (h.codeAt k).toNat

/-- Whether a code begins a pattern is seen in the first `w` bits when they hold it. -/
theorem codeBegins_cut {h : HuffTable} {w width k : Nat} (x : Nat) (holds : h.sizeAt k ≤ w) (le : w ≤ width) :
    h.CodeBegins w (x / 2 ^ (width - w)) k ↔ h.CodeBegins width x k := by
  rw [HuffTable.CodeBegins, HuffTable.CodeBegins, Nat.div_div_eq_div_mul, ← Nat.pow_add,
    show width - w + (w - h.sizeAt k) = width - h.sizeAt k by omega]

section
variable {h : HuffTable} (built : Built h)
include built

theorem Built.valid : h.hvalid = true := by
  obtain ⟨_, _, _, _, _, _, _, _, rfl⟩ := built
  exact builtTable_hvalid _ _ _

theorem Built.nsym_le : h.nsym ≤ 256 := (builtTableInvariants h built).1

theorem Built.sizeAt_range {k : Nat} (hk : k < h.nsym) : 1 ≤ h.sizeAt k ∧ h.sizeAt k ≤ 16 := by
  obtain ⟨_, _, _, ranges, _, _⟩ := builtTableInvariants h built
  obtain ⟨low, high, _⟩ := ranges k hk
  exact ⟨low, high⟩

/-- R133 at the accumulator: MAXCODE of the length of the code that comes next is above the next 16 bits, MAXCODE of a
shorter length is not, and DELTA tells the index. -/
theorem Built.maxcode_of_codeBegins {s : State} {k : Nat} (hk : k < h.nsym)
    (begins : h.CodeBegins 32 s.acc.toNat k) :
    s.acc.toNat / 65536 < (h.maxcodeAt (h.sizeAt k)).toNat ∧
      (∀ i, 1 ≤ i → i < h.sizeAt k → (h.maxcodeAt i).toNat ≤ s.acc.toNat / 65536) ∧
      (h.deltaAt (h.sizeAt k)).toInt + ((h.codeAt k).toNat : Int) = k := by
  have top16 : s.acc.toNat / 65536 < 65536 := by
    have := s.acc.isLt
    omega
  exact (maxcodeFindsTheLength h built).2 _ k top16 hk
    ((codeBegins_cut _ (built.sizeAt_range hk).2 (by omega)).2 begins)

/-- Two codes that come next are the same: their length is the first whose MAXCODE is above the next 16 bits. -/
theorem Built.codeBegins_unique {s : State} {j k : Nat} (hj : j < h.nsym) (hk : k < h.nsym)
    (beginsJ : h.CodeBegins 32 s.acc.toNat j) (beginsK : h.CodeBegins 32 s.acc.toNat k) : j = k := by
  obtain ⟨belowJ, shorterJ, indexJ⟩ := built.maxcode_of_codeBegins hj beginsJ
  obtain ⟨belowK, shorterK, indexK⟩ := built.maxcode_of_codeBegins hk beginsK
  have same : h.sizeAt j = h.sizeAt k := by
    rcases Nat.lt_trichotomy (h.sizeAt j) (h.sizeAt k) with lt | eq | lt
    · have := shorterK _ (built.sizeAt_range hj).1 lt
      omega
    · exact eq
    · have := shorterJ _ (built.sizeAt_range hk).1 lt
      omega
  rw [← beginsJ, same, beginsK] at indexJ
  omega

/-- The codes leave no gap: a pattern below some MAXCODE begins with a code. -/
theorem Built.exists_codeBegins {x i : Nat} (h1 : 1 ≤ i) (h2 : i ≤ 16) (below : x < (h.maxcodeAt i).toNat) :
    ∃ k, k < h.nsym ∧ h.CodeBegins 16 x k := by
  obtain ⟨counts, symbols, b, len, _, few, _, book, rfl⟩ := built
  rw [(builtTable_length_at len book h1 h2 few).2] at below
  obtain ⟨j, m, j1, j2, hm, code⟩ := exists_code_of_lt counts h1 h2 below
  obtain ⟨size, value⟩ := builtTable_symbol_at (symbols := symbols) len book j1 j2 hm
  refine ⟨firstIndex counts j + m, ?_, ?_⟩
  · have := firstIndex_add_countOf counts j1
    have := firstIndex_le_sum counts (j + 1)
    rw [builtTable_nsym]
    omega
  · rw [HuffTable.CodeBegins, size, value, code]

end

/-! ### The fast path -/

/-- FAST is read at the next 9 bits (R140). -/
theorem fastHit_eq (h : HuffTable) (s : State) :
    ∃ e : Fin 512, e.val = s.acc.toNat / 2 ^ 23 ∧ fastHit h s = h.fast.get e := by
  refine ⟨_, ?_, rfl⟩
  have := s.acc.isLt
  simp only [BitVec.val_toFin, BitVec.extractLsb'_toNat, Nat.shiftRight_eq_div_pow]
  omega

/-- What a fast entry of a built table says of the stream: it is the index of the short code that comes next, or it is
255 and no short code comes next but perhaps that of index 255 (R132, R142). -/
theorem Built.fastHit_cases {h : HuffTable} (built : Built h) (s : State) :
    (fastHit h s = 255 ∧ ∀ k, k < h.nsym → h.sizeAt k ≤ 9 → h.CodeBegins 32 s.acc.toNat k → k = 255) ∨
    (fastHit h s ≠ 255 ∧ (fastHit h s).toNat < h.nsym ∧ h.sizeAt (fastHit h s).toNat ≤ 9 ∧
      h.CodeBegins 32 s.acc.toNat (fastHit h s).toNat) := by
  obtain ⟨e, entry, hit⟩ := fastHit_eq h s
  obtain ⟨symbol, sentinel⟩ := fastTableIsThePrefixLookup h e built
  have cut {k : Nat} (short : h.sizeAt k ≤ 9) : h.CodeBegins 9 e.val k ↔ h.CodeBegins 32 s.acc.toNat k := by
    rw [entry]
    exact codeBegins_cut (w := 9) (width := 32) _ short (by omega)
  rw [hit]
  by_cases found : ∃ k, k < h.nsym ∧ h.sizeAt k ≤ 9 ∧ h.CodeBegins 9 e.val k
  · obtain ⟨k, hk, short, begins⟩ := found
    obtain ⟨value, unique⟩ := symbol k hk short begins
    by_cases last : h.fast.get e = 255
    · refine .inl ⟨last, fun j hj short' begins' => ?_⟩
      rw [unique j hj short' ((cut short').2 begins'), ← value, last]
      rfl
    · rw [value]
      exact .inr ⟨last, hk, short, (cut short).1 begins⟩
  · refine .inl ⟨BitVec.eq_of_toNat_eq (sentinel fun k hk short begins => found ⟨k, hk, short, begins⟩),
      fun k hk short begins => absurd ⟨k, hk, short, (cut short).2 begins⟩ found⟩

theorem decodeSymbol_fast {h : HuffTable} {s : State} (hit : fastHit h s ≠ 255)
    (enough : h.sizeAt (fastHit h s).toNat ≤ s.cnt) :
    decodeSymbol h s = .done () (consume (h.sizeAt (fastHit h s).toNat)
      (s.setRes ((h.symbolAt (fastHit h s).toNat).setWidth 32))) :=
  if_pos ⟨hit, enough⟩

theorem decodeSymbol_slow {h : HuffTable} {s : State}
    (miss : fastHit h s = 255 ∨ s.cnt < h.sizeAt (fastHit h s).toNat) : decodeSymbol h s = slowDecode h s := by
  refine if_neg ?_
  rintro ⟨hit, enough⟩
  exact miss.elim hit (by omega)

/-! ### The slow path -/

/-- The length at which the slow scan of R140 stops; 17 is after the last one. -/
def scannedLength (h : HuffTable) (s : State) : Nat := findLength h (s.acc >>> 16) 7 10

/-- The comparison of the slow scan, in numbers. -/
theorem top16_lt_maxcodeAt (h : HuffTable) (s : State) (i : Nat) :
    s.acc >>> 16 < h.maxcodeAt i ↔ s.acc.toNat / 65536 < (h.maxcodeAt i).toNat := by
  rw [BitVec.lt_def, BitVec.toNat_ushiftRight, Nat.shiftRight_eq_div_pow]

theorem scannedLength_ge (h : HuffTable) (s : State) : 10 ≤ scannedLength h s := (findLength_spec _ _ _ _).1

/-- The scan passes over the lengths whose MAXCODE is not above the next 16 bits. -/
theorem le_scannedLength {h : HuffTable} {s : State} {i : Nat} (h2 : i ≤ 17)
    (passed : ∀ j, 10 ≤ j → j < i → (h.maxcodeAt j).toNat ≤ s.acc.toNat / 65536) : i ≤ scannedLength h s := by
  obtain ⟨ge, _, _, stops⟩ := findLength_spec h (s.acc >>> 16) 7 10
  refine Nat.le_of_not_lt fun lt => ?_
  have above := (top16_lt_maxcodeAt h s _).1 (stops (by rw [scannedLength] at lt; omega))
  exact absurd above (Nat.not_lt.2 (passed _ ge lt))

/-- The scan stops at the first length, from 10 on, whose MAXCODE is above the next 16 bits, or at 17. -/
theorem scannedLength_eq {h : HuffTable} {s : State} {i : Nat} (h1 : 10 ≤ i) (h2 : i ≤ 17)
    (passed : ∀ j, 10 ≤ j → j < i → (h.maxcodeAt j).toNat ≤ s.acc.toNat / 65536)
    (stops : i ≤ 16 → s.acc.toNat / 65536 < (h.maxcodeAt i).toNat) : scannedLength h s = i := by
  obtain ⟨_, le, before, _⟩ := findLength_spec h (s.acc >>> 16) 7 10
  refine Nat.le_antisymm (Nat.le_of_not_lt fun lt => ?_) (le_scannedLength h2 passed)
  refine before i h1 lt ((top16_lt_maxcodeAt h s i).2 (stops ?_))
  rw [scannedLength] at lt
  omega

/-- The symbol index that the slow path computes at length i (R140). -/
def slowIndex (h : HuffTable) (s : State) (i : Nat) : Int :=
  ((s.acc.toNat / 2 ^ (32 - i) : Nat) : Int) + (h.deltaAt i).toInt

theorem slowDecode_bad {h : HuffTable} {s : State} {i : Nat} (scan : scannedLength h s = i)
    (bad : i = 17 ∨ s.cnt < i ∨ slowIndex h s i < 0 ∨ (h.nsym : Int) ≤ slowIndex h s i) :
    slowDecode h s = .raised .huffBadCode s := by
  simp only [slowIndex, ← topBits_toNat] at bad
  simp only [slowDecode, ← scannedLength.eq_def, scan]
  by_cases last : i = 17
  · exact if_pos last
  · rw [if_neg last]
    by_cases few : s.cnt < i
    · exact if_pos few
    · rw [if_neg few]
      exact if_pos ((bad.resolve_left last).resolve_left few)

theorem slowDecode_symbol {h : HuffTable} {s : State} {i k : Nat} (scan : scannedLength h s = i) (h2 : i ≤ 16)
    (enough : i ≤ s.cnt) (index : slowIndex h s i = k) (hk : k < h.nsym) :
    slowDecode h s = .done () (consume i (s.setRes ((h.symbolAt k).setWidth 32))) := by
  rw [slowIndex, ← topBits_toNat] at index
  simp only [slowDecode, ← scannedLength.eq_def, scan, index]
  rw [if_neg (by omega), if_neg (by omega), if_neg (by omega), Int.toNat_natCast]

/-- What the slow path meets at the code that comes next: no shorter length stops the scan, its own does, and there
its index is computed (R133). -/
theorem Built.slow_of_codeBegins {h : HuffTable} (built : Built h) {s : State} {k : Nat} (hk : k < h.nsym)
    (begins : h.CodeBegins 32 s.acc.toNat k) :
    h.sizeAt k ≤ scannedLength h s ∧ (10 ≤ h.sizeAt k → scannedLength h s = h.sizeAt k) ∧
      slowIndex h s (h.sizeAt k) = k := by
  obtain ⟨_, size⟩ := built.sizeAt_range hk
  obtain ⟨below, shorter, index⟩ := built.maxcode_of_codeBegins hk begins
  have passed : ∀ j, 10 ≤ j → j < h.sizeAt k → (h.maxcodeAt j).toNat ≤ s.acc.toNat / 65536 := fun j h1 =>
    shorter j (by omega)
  refine ⟨le_scannedLength (by omega) passed, fun long => scannedLength_eq long (by omega) passed fun _ => below, ?_⟩
  rw [slowIndex, begins, Int.add_comm]
  exact index

/-! ### HDEC -/

/-- The refill leaves the tables as they are. -/
theorem buffered_huff {n : Nat} {s s1 : State} (ready : buffered n s s1) (c : HClass) (t : Fin 4) :
    s1.huff c t = s.huff c t := by
  obtain ⟨_, rfl⟩ | ⟨_, run⟩ := ready
  · rfl
  · have kept := refill_kept s
    rw [run] at kept
    have frame := kept.frame
    rw [frame]
    rfl

section
variable {c : HClass} {t : Fin 4} {s s1 : State} {h : HuffTable} (table : h = s.huff c t) (valid : h.hvalid = true)
include table valid

/-- With a valid table and the bits buffered, HDEC is the decoding of a symbol. -/
theorem exec_hdec_buffered (ready : buffered 16 s s1) : exec (.hdec c t) s = (decodeSymbol h s1).finish := by
  subst table
  rw [exec, execHdec, if_pos valid, ensureBits_buffered ready, andThen_done, buffered_huff ready]

theorem exec_hdec_symbol (ready : buffered 16 s s1) {n : Nat} {v : Word}
    (run : decodeSymbol h s1 = .done () (consume n (s1.setRes v))) :
    exec (.hdec c t) s = .next { s1 with res := v, acc := s1.acc <<< n, cnt := s1.cnt - n, busy := false } := by
  rw [exec_hdec_buffered table valid ready, run]
  rfl

/-- The ways the slow path fails: no length, too few bits, an index out of range. -/
theorem exec_hdec_bad (ready : buffered 16 s s1)
    (miss : fastHit h s1 = 255 ∨ s1.cnt < h.sizeAt (fastHit h s1).toNat) {i : Nat} (scan : scannedLength h s1 = i)
    (bad : i = 17 ∨ s1.cnt < i ∨ slowIndex h s1 i < 0 ∨ (h.nsym : Int) ≤ slowIndex h s1 i) :
    exec (.hdec c t) s = .next { s1 with fault := some .huffBadCode, finfo := s1.cmd, busy := false } := by
  rw [exec_hdec_buffered table valid ready, decodeSymbol_slow miss, slowDecode_bad scan bad]
  rfl

/-- The fault of the refill is the fault of HDEC (R140). -/
theorem exec_hdec_raised {f : FaultCode} (few : s.cnt < 16) (run : refill s = .raised f s1) :
    exec (.hdec c t) s = .next { s1 with fault := some f, finfo := s1.cmd, busy := false } := by
  subst table
  rw [exec, execHdec, if_pos valid, ensureBits_raised few run]
  rfl

end

/-- Settles O38: a short code is a fast hit, and a long one is met by the scan. -/
theorem hdecRoundTrip : Obligations.HdecRoundTrip := by
  intro c t s s1 h k table built hk plain ready enough begins
  have nsym := built.nsym_le
  obtain ⟨_, size⟩ := built.sizeAt_range hk
  refine exec_hdec_symbol table built.valid ready ?_
  obtain ⟨miss, only⟩ | ⟨hit, inside, short, begins'⟩ := built.fastHit_cases s1
  · obtain ⟨_, scan, index⟩ := built.slow_of_codeBegins hk begins
    have long : 10 ≤ h.sizeAt k := by
      refine Nat.lt_of_not_le fun short => ?_
      obtain rfl := only k hk short begins
      exact plain ⟨by omega, rfl, short⟩
    rw [decodeSymbol_slow (.inl miss), slowDecode_symbol (scan long) size enough index hk]
  · have same := built.codeBegins_unique inside hk begins' begins
    rw [decodeSymbol_fast hit (by rwa [same]), same]

/-- Settles O40, from the ways the slow path fails. -/
theorem hdecFaults : Obligations.HdecFaults := by
  intro c t s h table
  refine ⟨fun invalid => ?_, fun f s1 valid few run => exec_hdec_raised table valid few run,
    fun s1 valid ready miss scan => ?_, fun s1 built ready hit few => ?_, fun s1 built ready noCode => ?_,
    fun s1 k built ready hk begins few => ?_⟩
  · subst table
    rw [exec, execHdec, if_neg (by simp [invalid])]
    rfl
  · obtain passed | ⟨i, h1, h2, passed, stops, bad⟩ := scan
    · exact exec_hdec_bad table valid ready miss
        (scannedLength_eq (by omega) le_rfl (fun j h1 lt => passed j h1 (by omega)) (by omega)) (.inl rfl)
    · exact exec_hdec_bad table valid ready miss (scannedLength_eq h1 (by omega) passed fun _ => stops) (.inr bad)
  · obtain ⟨miss, _⟩ | ⟨_, _, short, _⟩ := built.fastHit_cases s1
    · exact absurd miss hit
    · have := scannedLength_ge h s1
      exact exec_hdec_bad table built.valid ready (.inr few) rfl (.inr (.inl (by omega)))
  · have passed : ∀ i, 10 ≤ i → i < 17 → (h.maxcodeAt i).toNat ≤ s1.acc.toNat / 65536 := by
      refine fun i h1 h2 => Nat.le_of_not_lt fun below => ?_
      obtain ⟨k, hk, begins⟩ := built.exists_codeBegins (by omega) (by omega) below
      exact noCode k hk ((codeBegins_cut _ (built.sizeAt_range hk).2 (by omega)).1 begins)
    obtain ⟨miss, _⟩ | ⟨_, inside, _, begins⟩ := built.fastHit_cases s1
    · exact exec_hdec_bad table built.valid ready (.inl miss)
        (scannedLength_eq (by omega) le_rfl passed (by omega)) (.inl rfl)
    · exact absurd begins (noCode _ inside)
  · have reach := (built.slow_of_codeBegins hk begins).1
    refine exec_hdec_bad table built.valid ready ?_ rfl (.inr (.inl (by omega)))
    obtain ⟨miss, _⟩ | ⟨_, inside, _, begins'⟩ := built.fastHit_cases s1
    · exact .inl miss
    · rw [built.codeBegins_unique inside hk begins' begins]
      exact .inr few

/-! ### The sentinel collision -/

/-- R142: in a built table of 256 symbols whose last code is short, no code has length 10 or more, and the
last code tells DELTA and MAXCODE of length 10. -/
theorem Built.sentinel_length {h : HuffTable} (built : Built h) (full : h.nsym = 256) (short : h.sizeAt 255 ≤ 9) :
    2 ≤ h.sizeAt 255 ∧
      (h.maxcodeAt 10).toNat = ((h.codeAt 255).toNat + 1) * 2 ^ (10 - h.sizeAt 255) * 64 ∧
      (h.deltaAt 10).toInt = 256 - (((h.codeAt 255).toNat + 1) * 2 ^ (10 - h.sizeAt 255) : Nat) := by
  obtain ⟨counts, symbols, b, len, _, few, _, book, rfl⟩ := built
  rw [builtTable_nsym] at full
  obtain ⟨i, m, h1, _, hm, index, size, code⟩ := builtTable_position (symbols := symbols) len book (k := 255) (by omega)
  rw [size] at short
  obtain ⟨delta, maxcode⟩ := builtTable_length_at (symbols := symbols) len book (i := 10) (by omega) (by omega) few
  rw [size, code, delta, maxcode]
  have after := firstIndex_add_countOf counts h1
  have last := firstIndex_le_sum counts (i + 1)
  have to10 := firstIndex_mono counts (i := i + 1) (j := 10) (by omega)
  have end10 := firstIndex_add_countOf counts (i := 10) (by omega)
  have last10 := firstIndex_le_sum counts (10 + 1)
  have first10 : firstCode counts 10 = (firstCode counts i + m + 1) * 2 ^ (10 - i) := by
    rw [firstCode_after_last counts h1 (by omega) (by omega), Nat.add_assoc, show m + 1 = countOf counts i by omega]
  rw [show countOf counts 10 = 0 by omega, first10, show firstIndex counts 10 = 256 by omega]
  refine ⟨Nat.lt_of_le_of_ne h1 ?_, rfl, rfl⟩
  rintro rfl
  have fits := countOf_le_of_book len book (i := 1) le_rfl (by omega)
  rw [firstIndex_one] at index
  omega

/-- When a code of at most 10 bits comes next, the next 10 bits lie among the patterns of 10 bits that begin with it. -/
theorem next10_of_codeBegins {h : HuffTable} {s : State} {k : Nat} (short : h.sizeAt k ≤ 10)
    (begins : h.CodeBegins 32 s.acc.toNat k) :
    (h.codeAt k).toNat * 2 ^ (10 - h.sizeAt k) ≤ s.acc.toNat / 2 ^ 22 ∧
      s.acc.toNat / 2 ^ 22 < ((h.codeAt k).toNat + 1) * 2 ^ (10 - h.sizeAt k) := by
  have cut := (codeBegins_cut (w := 10) _ short (by omega)).2 begins
  rw [HuffTable.CodeBegins, Nat.div_eq_iff (by positivity)] at cut
  rw [Nat.add_one_mul]
  have : 0 < 2 ^ (10 - h.sizeAt k) := by positivity
  exact ⟨cut.1, by omega⟩

/-- Settles O39: the fast entry is the sentinel, and the scan stops at length 10 at once. -/
theorem sentinelCollision : Obligations.SentinelCollision := by
  intro c t s s1 h f10 idx table built full short ready begins f10_eq idx_eq
  obtain ⟨wide, maxcode, delta⟩ := built.sentinel_length full short
  obtain ⟨low, high⟩ := next10_of_codeBegins (h := h) (by omega) begins
  have block : 2 ^ (10 - h.sizeAt 255) ≤ 2 ^ 8 := Nat.pow_le_pow_right (by omega) (by omega)
  have first : (h.codeAt 255).toNat * 2 ^ (10 - h.sizeAt 255) + 2 ^ (10 - h.sizeAt 255) = f10 := by
    rw [f10_eq, Nat.add_one_mul]
  rw [← f10_eq] at high maxcode delta
  have miss : fastHit h s1 = 255 := by
    obtain ⟨miss, _⟩ | ⟨_, inside, _, begins'⟩ := built.fastHit_cases s1
    · exact miss
    · exact BitVec.eq_of_toNat_eq (built.codeBegins_unique inside (by omega) begins' begins)
  have scan : scannedLength h s1 = 10 := scannedLength_eq le_rfl (by omega) (by omega) fun _ => by omega
  have index : slowIndex h s1 10 = idx := by
    rw [slowIndex, delta]
    omega
  refine ⟨by omega, by omega, fun enough => exec_hdec_symbol table built.valid ready ?_, fun few =>
    exec_hdec_bad table built.valid ready (.inl miss) scan (.inr (.inl few))⟩
  rw [decodeSymbol_slow (.inl miss), slowDecode_symbol scan (by omega) enough index (by omega)]

end Sys2Proof.Machine
end

section
/-! PROOFS of the statements about dequantisation and the inverse transform (spec/42_idct.md). Where no result leaves
the range of s32, wrap-around does nothing: the dequantised product is exact, and on inputs with only DC every kernel
multiplies by 4096, from which a block with only DC follows pass by pass. -/

namespace Sys2Proof.Machine

open Sys2Proof
open Sys2Proof.Config (Oct)

/-- Reduction to s32 leaves an integer of its range alone (R10). -/
theorem wrap32_of_range {v : Int} (low : -2147483648 ≤ v) (high : v < 2147483648) : wrap32 v = v := by
  rw [wrap32]
  omega

/-- A command whose checks pass completes with what its body did. -/
theorem checked_none {check : Option FaultCode} (h : check = none) (body : State → State) (s : State) :
    checked check body s = .next { body s with busy := false } := by
  rw [h]
  rfl

/-! ### Dequantisation -/

/-- The little-endian pair of bytes as one number (R67). -/
theorem read16_eq_ofNat (m : Memory) (a : Nat) :
    m.read16 a = BitVec.ofNat 16 ((m.read a).toNat + 256 * (m.read (a + 1)).toNat) := by
  have low := (m.read a).isLt
  have high := (m.read (a + 1)).isLt
  refine BitVec.eq_of_toNat_eq ?_
  rw [Memory.read16, BitVec.toNat_append, ← Nat.shiftLeft_add_eq_or_of_lt low, Nat.shiftLeft_eq, BitVec.toNat_ofNat]
  omega

/-- The product of a coefficient and a table entry fits in s32 (R161). -/
theorem toInt_dequantiseProduct (coef : BitVec 16) (q : Byte) :
    (coef.signExtend 32 * q.setWidth 32).toInt = coef.toInt * (q.toNat : Int) := by
  have coefLow : -32768 ≤ coef.toInt := coef.le_toInt
  have coefHigh : coef.toInt < 32768 := coef.toInt_lt
  have entry : (q.toNat : Int) ≤ 255 := by have := q.isLt; omega
  have signed : (coef.signExtend 32).toInt = coef.toInt := BitVec.toInt_signExtend_of_le (by decide)
  have unsigned : (q.setWidth 32).toInt = q.toNat := by
    rw [BitVec.toInt_setWidth, Int.bmod_eq_of_le (by omega) (by omega)]
  rw [toInt_mul_eq_wrap32, signed, unsigned]
  exact wrap32_of_range (by nlinarith) (by nlinarith)

/-- The cut to 16 bits and the sign extension reduce the integer that the word stands for (R161). -/
theorem toInt_cut16 (d : Word) : ((d.setWidth 16).signExtend 32).toInt = (BitVec.ofInt 16 d.toInt).toInt := by
  rw [BitVec.toInt_signExtend_of_le (by decide), BitVec.toInt_setWidth, BitVec.toInt_ofInt, BitVec.toInt_eq_toNat_bmod,
    Int.bmod_bmod_of_dvd (by decide)]

/-- Entry i of the table exists for every i below 64. -/
theorem dequantised_eq (t : Fin 4) (s : State) (i : Fin 64) :
    dequantised t s i.val =
      dequantise s.params (s.mem.read16 (s.arg 0 + 2 * i.val)) ((s.quant t).entry.get i) := by
  simp [dequantised, Vector.get_eq_getElem]

/-- Settles O42: the product is exact, and only DEQUANT_WRAP16 cuts it. -/
theorem dequantisedProductIsExact : Obligations.DequantisedProductIsExact := by
  rintro t s i _ rfl
  rw [dequantised_eq, ← read16_eq_ofNat, ← toInt_dequantiseProduct]
  constructor
  · intro plain
    simp [dequantise, plain]
  · intro wrap16
    simp only [dequantise, wrap16, if_true]
    exact toInt_cut16 _

/-! ### Inputs with only DC -/

/-- Kernel inputs that are all 0 but the first. -/
def dcInputs (v : Word) : Oct := ⟨v, 0, 0, 0, 0, 0, 0, 0⟩

/-- The default kernel on inputs with only DC: every product but 4096·s is 0 (R171, R172). -/
theorem kernelR171_dcInputs (m : Config.ConstRound) (v : Word) :
    kernelR171 m (dcInputs v) = octSplat (4096#32 * v) := by
  simp [kernelR171, dcInputs, octSplat, BitVec.mul_comm]

theorem dcOnly_dcInputs {v : Word} (small : v.toInt.natAbs < 524288) : dcOnly (dcInputs v) = true := by
  simp [dcOnly, dcInputs, small]

/-- The DC property of every kernel (R170, R172; for a supplied one log entry 7). -/
theorem idctKernel_dcInputs (p : Config.Params) {v : Word} (small : v.toInt.natAbs < 524288) :
    idctKernel p (dcInputs v) = octSplat (4096#32 * v) := by
  cases kernel : p.kernel with
  | r171 => rw [idctKernel_r171 p _ kernel, kernelR171_dcInputs]
  | supplied k =>
    simp only [idctKernel, kernel, dcOnly_dcInputs small, if_true]
    rfl

/-- The value of the DC property is exact: 4096·s fits in s32 (R172). -/
theorem toInt_idctKernel_dcInputs (p : Config.Params) {v : Word} (small : v.toInt.natAbs < 524288) (r : Nat) :
    (octGet (idctKernel p (dcInputs v)) r).toInt = 4096 * v.toInt := by
  have factor : (4096#32).toInt = 4096 := rfl
  rw [idctKernel_dcInputs p small, octGet_splat, toInt_mul_eq_wrap32, factor, wrap32_of_range (by omega) (by omega)]

/-- Settles O44, from the exact value 4096·s. -/
theorem kernelDcProperty : Obligations.KernelDcProperty := by
  intro p v r small _
  have value : (octGet (idctKernel p ⟨v, 0, 0, 0, 0, 0, 0, 0⟩) r).toInt = 4096 * v.toInt :=
    toInt_idctKernel_dcInputs p small r
  refine ⟨value, ?_⟩
  have bias : (512#32).toInt = 512 := rfl
  rw [toInt_sshiftRight_add, value, bias, wrap32_of_range (by omega) (by omega)]
  omega

section
variable {d : Nat → Word} (dc : ∀ i, 1 ≤ i → i < 64 → d i = 0)
include dc

/-- Every column of a block with only DC takes the fast path (R164, R166). -/
theorem columnIsDc_of_dcBlock {col : Nat} (hc : col < 8) : columnIsDc d col = true :=
  (columnIsDc_iff d col).2 fun r _ _ => dc (8 * r + col) (by omega) (by omega)

/-- The first pass of a block with only DC: 4·D in column 0 and 0 elsewhere (R166). -/
theorem toInt_firstPass_dcBlock (p : Config.Params) (small : (d 0).toInt.natAbs < 65536) {col : Nat} (hc : col < 8)
    (row : Nat) : (octGet (firstPass p d col) row).toInt = if col = 0 then 4 * (d 0).toInt else 0 := by
  rw [octGet_firstPass_dc p d col row (columnIsDc_of_dcBlock dc hc)]
  split
  · subst col
    rw [wrap32_of_range (by omega) (by omega), Int.mul_comm]
  · simp [dc col (by omega) (by omega), wrap32]

/-- Each row that the second pass reads has only DC (R166). -/
theorem scratch_dcBlock (p : Config.Params) (small : (d 0).toInt.natAbs < 65536) (row : Nat) :
    octOf (fun k => octGet (firstPass p d k) row) = dcInputs (octGet (firstPass p d 0) row) := by
  have zero : ∀ k, k < 8 → k ≠ 0 → octGet (firstPass p d k) row = 0 := fun k hk nonzero =>
    BitVec.eq_of_toInt_eq (by rw [toInt_firstPass_dcBlock dc p small hk, if_neg nonzero]; rfl)
  simp [octOf, dcInputs, zero]

/-- A sample of a block with only DC (R166). -/
theorem toNat_idctSample_dcBlock (p : Config.Params) (small : (d 0).toInt.natAbs < 65536) (row col : Nat) :
    ((idctSample p d row col).toNat : Int) = clampInt (128 + ((d 0).toInt + 4) / 8) := by
  have first : (octGet (firstPass p d 0) row).toInt = 4 * (d 0).toInt :=
    toInt_firstPass_dcBlock dc p small (by decide) row
  rw [toNat_idctSample, scratch_dcBlock dc p small, toInt_idctKernel_dcInputs p (by omega), first,
    wrap32_of_range (by omega) (by omega)]
  congr 1
  omega

end

/-- Settles O45: the fast path, the first pass and the sample. -/
theorem dcOnlyBlock : Obligations.DcOnlyBlock := fun p _ dc small row col _ hc =>
  ⟨columnIsDc_of_dcBlock dc hc, toInt_firstPass_dcBlock dc p small hc row,
    toNat_idctSample_dcBlock dc p small row col⟩

/-! ### The commands IDCT and QLOAD -/

/-- The address of sample (r, c) (R163). -/
theorem idctAddr_row_col (s : State) (r : Nat) {c : Nat} (hc : c < 8) :
    idctAddr s (8 * r + c) = s.arg 1 + r * s.arg 2 + c := by
  rw [idctAddr, show (8 * r + c) / 8 = r by omega, show (8 * r + c) % 8 = c by omega]

/-- IDCT makes its 64 writes where its checks pass (R163). -/
theorem exec_idct_completes {t : Fin 4} {s : State} (check : idctCheck t s = none) :
    exec (.idct t) s = .next { s with
      mem := s.mem.fill (idctAddr s) (fun j => idctSample s.params (dequantised t s) (j / 8) (j % 8)) 64
      busy := false } := by
  simp only [exec, execIdct]
  exact checked_none check _ s

/-- Settles O46: the checks pass, and the samples go to 64 different addresses. -/
theorem idctWritesTheBlock : Obligations.IdctWritesTheBlock := by
  intro t s valid stride source target apart
  have check : idctCheck t s = none := (idctCheck_none t s).2 ⟨valid, stride, source, target, apart⟩
  refine ⟨_, exec_idct_completes check, fun r c hr hc => ⟨idctAddr_row_col s r hc, ?_⟩,
    fun a outside => Memory.read_fill_ne _ _ _ 64 a outside⟩
  rw [← idctAddr_row_col s r hc, Memory.read_fill_at _ _ _ 64 (8 * r + c) (by omega) fun i k _ _ =>
    idctAddr_inj s stride i k, show (8 * r + c) / 8 = r by omega, show (8 * r + c) % 8 = c by omega]

/-- The 64 bytes from ARG0 as a loaded table (R160). -/
def loadedQuant (s : State) : QuantTable := ⟨true, Vector.ofFn fun i => s.mem.read (s.arg 0 + i.val)⟩

theorem exec_qload (t : Fin 4) (s : State) :
    exec (.qload t) s = checked (qloadCheck s) (fun s => s.setQuant t (loadedQuant s)) s := rfl

theorem loadedQuant_get (s : State) (i : Fin 64) : (loadedQuant s).entry.get i = s.mem.read (s.arg 0 + i.val) := by
  simp [loadedQuant, Vector.get_eq_getElem]

theorem commandWord_table (op : Byte) (t : Fin 4) :
    commandWord op .dc t 0 = op.setWidth 32 ||| (BitVec.ofNat 32 t.val <<< 9) := by
  simp [commandWord]

/-- Settles O41: the word, the check, and the table that is stored. -/
theorem qloadStoresTheTable : Obligations.QloadStoresTheTable := by
  intro t s
  refine ⟨commandWord_table 0x20 t, fun past => ?_, fun inside => ⟨loadedQuant s, ?_, rfl, loadedQuant_get s,
    quant_setQuant_same s t _, fun n other => ?_⟩⟩
  · rw [exec_qload, checked_some]
    exact firstFailing_bad ((outOfRange_true _ _).2 (by omega)) _ _
  · rw [exec_qload, checked_none ((qloadCheck_none s).2 inside)]
  · rw [quant_setQuant, if_neg (Ne.symm other)]

/-! ### The constants of the default kernel -/

/-- Settles O43, constant by constant. -/
theorem kernelConstantsAreRounded : Obligations.KernelConstantsAreRounded := by
  intro k
  refine ⟨?_, ?_, ?_, rfl, rfl⟩ <;> cases k <;> decide

end Sys2Proof.Machine
end

section
/-! PROOFS of the statements about upsampling (spec/43_upsample.md). The filter of R193 is said once in exact numbers,
and the destination of a pass is one plane of packed rows; UPX and UPY differ in the line that is filtered and in the
stride. -/

namespace Sys2Proof.Machine

open Sys2Proof

/-! ### The filter -/

/-- A weighted average of two samples fits in a byte (R193). -/
theorem toNat_average {round : Nat} (small : round ≤ 3) (near far : Byte) :
    (BitVec.ofNat 8 ((3 * near.toNat + far.toNat + round) / 4)).toNat = (3 * near.toNat + far.toNat + round) / 4 := by
  have := near.isLt
  have := far.isLt
  rw [BitVec.toNat_ofNat, Nat.mod_eq_of_lt (by omega)]

/-- The filter in exact numbers (R193): the outermost outputs copy the edge samples. -/
theorem toNat_doubledSample {round n o : Nat} (small : round ≤ 3) (ho : o < 2 * n) (line : Nat → Byte) :
    (doubledSample round n line o).toNat =
      if o = 0 then (line 0).toNat
      else if o = 2 * n - 1 then (line (n - 1)).toNat
      else if o % 2 = 0 then (3 * (line (o / 2)).toNat + (line (o / 2 - 1)).toNat + round) / 4
      else (3 * (line (o / 2)).toNat + (line (o / 2 + 1)).toNat + round) / 4 := by
  simp only [doubledSample]
  obtain even | odd := Nat.mod_two_eq_zero_or_one o
  · have inner : o ≠ 2 * n - 1 := by omega
    by_cases first : o = 0
    · simp [first]
    · rw [if_pos even, if_neg (by omega), if_neg first, if_neg inner, if_pos even, toNat_average small]
  · have inner : o ≠ 0 := by omega
    have uneven : ¬o % 2 = 0 := by omega
    by_cases last : o = 2 * n - 1
    · rw [if_neg uneven, if_pos (by omega), if_neg inner, if_pos last]
    · rw [if_neg uneven, if_neg (by omega), if_neg inner, if_neg last, if_neg uneven, toNat_average small]

/-! ### The destination plane -/

/-- Sample (x, y) of a plane of packed rows that a pass writes (R190, R65). -/
theorem read_fill_packed (s : State) (sample : Nat → Nat → Byte) {stride rows x y : Nat}
    (size : 2 * upsCount s = rows * stride) (hx : x < stride) (hy : y < rows) :
    (s.mem.fill (upsAddr s) (fun j => sample (j % stride) (j / stride)) (2 * upsCount s)).read
      (s.arg 1 + y * stride + x) = sample x y := by
  have inside : y * stride + x < 2 * upsCount s := by
    have := Nat.mul_le_mul_right stride (Nat.succ_le_of_lt hy)
    rw [Nat.succ_mul] at this
    omega
  have column : (y * stride + x) % stride = x := by rw [Nat.mul_add_mod_self_right, Nat.mod_eq_of_lt hx]
  have row : (y * stride + x) / stride = y := by
    rw [Nat.mul_comm, Nat.mul_add_div (by omega), Nat.div_eq_of_lt hx, Nat.add_zero]
  have written := s.mem.read_fill_at (upsAddr s) (fun j => sample (j % stride) (j / stride)) _ _ inside
    fun _ _ _ _ => Nat.add_left_cancel
  rwa [column, row, upsAddr, ← Nat.add_assoc] at written

/-! ### UPX and UPY -/

/-- Legal sizes, and sets in memory and apart, pass the checks (R190). -/
theorem upsCheck_passes {s : State} (w1 : 1 ≤ s.arg 2) (w2 : s.arg 2 ≤ 65536) (h1 : 1 ≤ s.arg 3)
    (h2 : s.arg 3 ≤ 65536) (source : s.arg 0 + upsCount s ≤ s.params.memSize)
    (target : s.arg 1 + 2 * upsCount s ≤ s.params.memSize)
    (apart : s.arg 1 + 2 * upsCount s ≤ s.arg 0 ∨ s.arg 0 + upsCount s ≤ s.arg 1) : upsCheck s = none := by
  have pos : 1 * 1 ≤ upsCount s := Nat.mul_le_mul w1 h1
  exact (upsCheck_none s).2 ⟨⟨w1, w2, h1, h2⟩, by omega⟩

theorem exec_upx_completes {s : State} (check : upsCheck s = none) :
    exec .upx s = .next { s with
      mem := s.mem.fill (upsAddr s) (fun j => upxSample s (j % (2 * s.arg 2)) (j / (2 * s.arg 2))) (2 * upsCount s)
      busy := false } := by
  simp only [exec, execUpx]
  exact checked_none check _ s

theorem exec_upy_completes {s : State} (check : upsCheck s = none) :
    exec .upy s = .next { s with
      mem := s.mem.fill (upsAddr s) (fun j => upySample s (j % s.arg 2) (j / s.arg 2)) (2 * upsCount s)
      busy := false } := by
  simp only [exec, execUpy]
  exact checked_none check _ s

/-- Settles O48: the destination has h rows of stride 2w, and each is the filter of a row. -/
theorem upxDoublesRows : Obligations.UpxDoublesRows := by
  refine ⟨by decide, ?_⟩
  rintro s _ _ rfl rfl w1 w2 h1 h2 source target apart
  refine ⟨_, exec_upx_completes (upsCheck_passes w1 w2 h1 h2 source target apart), fun x y hx hy => ?_,
    fun a outside => Memory.read_fill_ne _ _ _ _ a outside⟩
  rw [read_fill_packed s (upxSample s) (by rw [upsCount]; ring) hx hy]
  exact toNat_doubledSample (Nat.le_of_lt_succ s.params.upsRound.isLt) hx _

/-- Settles O49: the destination has 2h rows of stride w, and each of its columns is the filter of a column. -/
theorem upyDoublesColumns : Obligations.UpyDoublesColumns := by
  refine ⟨by decide, ?_⟩
  rintro s _ _ rfl rfl w1 w2 h1 h2 source target apart
  refine ⟨_, exec_upy_completes (upsCheck_passes w1 w2 h1 h2 source target apart), fun x y hx hy => ?_,
    fun a outside => Memory.read_fill_ne _ _ _ _ a outside⟩
  rw [read_fill_packed s (upySample s) (by rw [upsCount]; ring) hx hy]
  exact toNat_doubledSample (Nat.le_of_lt_succ s.params.upsRound.isLt) hy _

end Sys2Proof.Machine
end

section
/-! PROOFS of the statements about colour conversion (spec/44_color.md). The three channels of R211 are said once in
exact integers, which no intermediate of the s32 arithmetic leaves; both commands pack the four bytes of each pixel in
the same image, so that one lemma reads a pixel back. -/

namespace Sys2Proof.Machine

open Sys2Proof

/-! ### The terms of the channels -/

/-- A byte in a word is not negative. -/
theorem toInt_setWidth_byte (b : Byte) : (b.setWidth 32).toInt = b.toNat := by
  have := b.isLt
  rw [BitVec.toInt_setWidth, Int.bmod_eq_of_le (by omega) (by omega)]

/-- `(Yv << 20) + CC_Y_BIAS` is below 2^28 (R214). -/
theorem toInt_lumaTerm {bias : Nat} (small : bias < 1048576) (y : Byte) :
    (lumaTerm bias y).toInt = (y.toNat : Int) * 1048576 + bias := by
  have luma := y.isLt
  have value : (lumaTerm bias y).toNat = y.toNat * 1048576 + bias := by
    rw [lumaTerm, BitVec.toNat_add, BitVec.toNat_shiftLeft, BitVec.toNat_setWidth, BitVec.toNat_ofNat,
      Nat.shiftLeft_eq]
    omega
  rw [BitVec.toInt_eq_toNat_of_lt (by omega), value]
  push_cast
  rfl

/-- A centred chroma sample as an integer (R211). -/
theorem toInt_chroma (c : Byte) : (chroma c).toInt = (c.toNat : Int) - 128 := by
  have := c.isLt
  have centre : (128#32).toInt = 128 := rfl
  rw [chroma, BitVec.toInt_sub, toInt_setWidth_byte, centre, Int.bmod_eq_of_le (by omega) (by omega)]

/-- A centred chroma sample times a constant of R212 does not wrap (R214). -/
theorem toInt_chroma_mul (c : Byte) (k : Word) (low : -1858048 ≤ k.toInt) (high : k.toInt ≤ 1858048) :
    (chroma c * k).toInt = ((c.toNat : Int) - 128) * k.toInt := by
  have := c.isLt
  rw [toInt_mul_eq_wrap32, toInt_chroma]
  exact wrap32_of_range (by nlinarith) (by nlinarith)

/-- Clearing the low 16 bits rounds down to a multiple of 65536, also for a negative word (R211). -/
theorem toInt_and_highHalf {t : Word} {n : Int} (value : t.toInt = n) :
    (t &&& 0xFFFF0000#32).toInt = n / 65536 * 65536 := by
  have cleared : (t &&& 0xFFFF0000#32).toNat = t.toNat / 65536 * 65536 := by
    have shifts : t >>> 16 <<< 16 = t &&& 0xFFFF0000#32 := BitVec.shiftLeft_ushiftRight
    have := t.isLt
    rw [← shifts, BitVec.toNat_shiftLeft, BitVec.toNat_ushiftRight, Nat.shiftRight_eq_div_pow, Nat.shiftLeft_eq]
    omega
  rw [← value, BitVec.toInt_eq_toNat_cond, BitVec.toInt_eq_toNat_cond, cleared]
  split <;> split <;> omega

/-- A sum that stays in the range of s32 does not wrap (R10). -/
theorem toInt_add_of_range {a b : Word} {m n : Int} (left : a.toInt = m) (right : b.toInt = n)
    (low : -2147483648 ≤ m + n) (high : m + n < 2147483648) : (a + b).toInt = m + n := by
  rw [toInt_add_eq_wrap32, left, right, wrap32_of_range low high]

/-! ### The channels in exact integers -/

/-- r, g or b of R211 for channel 0, 1 or 2 in exact integers. -/
def exactChannel (bias : Nat) (y cb cr : Byte) (ch : Nat) : Int :=
  match ch with
  | 0 => (y.toNat : Int) * 1048576 + bias + ((cr.toNat : Int) - 128) * 1470208
  | 1 =>
    (y.toNat : Int) * 1048576 + bias + ((cr.toNat : Int) - 128) * (-748800)
      + (((cb.toNat : Int) - 128) * (-360960)) / 65536 * 65536
  | _ => (y.toNat : Int) * 1048576 + bias + ((cb.toNat : Int) - 128) * 1858048

/-- Every channel lies in (−2^30, 2^30) (R214). -/
theorem exactChannel_small {bias : Nat} (small : bias < 1048576) (y cb cr : Byte) (ch : Nat) :
    (exactChannel bias y cb cr ch).natAbs < 1073741824 := by
  have := y.isLt
  have := cb.isLt
  have := cr.isLt
  unfold exactChannel
  split <;> omega

/-- The s32 arithmetic of R211 is exact (R214). -/
theorem toInt_yccChannel {bias : Nat} (small : bias < 1048576) (y cb cr : Byte) (ch : Nat) :
    (yccChannel bias y cb cr ch).toInt = exactChannel bias y cb cr ch := by
  have := y.isLt
  have := cb.isLt
  have := cr.isLt
  have luma := toInt_lumaTerm small y
  match ch with
  | 0 =>
    have red := toInt_chroma_mul cr 1470208#32 (by decide) (by decide)
    exact toInt_add_of_range luma red (by omega) (by omega)
  | 1 =>
    have red := toInt_chroma_mul cr (BitVec.ofInt 32 (-748800)) (by decide) (by decide)
    have blue := toInt_and_highHalf (toInt_chroma_mul cb (BitVec.ofInt 32 (-360960)) (by decide) (by decide))
    exact toInt_add_of_range (toInt_add_of_range luma red (by omega) (by omega)) blue (by omega) (by omega)
  | _ + 2 =>
    have blue := toInt_chroma_mul cb 1858048#32 (by decide) (by decide)
    exact toInt_add_of_range luma blue (by omega) (by omega)

/-- Settles O51: each channel is exact and small. -/
theorem colourArithmeticIsExact : Obligations.ColourArithmeticIsExact := fun _ y cb cr small =>
  have value := toInt_yccChannel small y cb cr
  ⟨value 0, value 1, value 2, fun ch _ => (value ch).symm ▸ exactChannel_small small y cb cr ch⟩

/-! ### The bytes of a pixel -/

/-- A colour byte: the floor of the exact channel over 2^20, clamped (R211). -/
theorem toNat_yccByte {bias : Nat} (small : bias < 1048576) (y cb cr : Byte) {ch : Nat} (colour : ch ≠ 3) :
    ((yccByte bias y cb cr ch).toNat : Int) = clampInt (exactChannel bias y cb cr ch / 1048576) := by
  rw [yccByte, if_neg colour, toNat_clamp255, BitVec.toInt_sshiftRight, toInt_yccChannel small,
    Int.shiftRight_eq_div_pow]
  norm_cast

theorem clampInt_byte (b : Byte) : clampInt b.toNat = b.toNat := by
  have := b.isLt
  rw [clampInt, if_neg (by omega), if_neg (by omega)]

/-- With neutral chroma every channel is the luma term (R216). -/
theorem exactChannel_neutral (bias : Nat) (y : Byte) (ch : Nat) :
    exactChannel bias y 128 128 ch = (y.toNat : Int) * 1048576 + bias := by
  unfold exactChannel
  split <;> simp

/-- Settles O54: the bias is below one unit of the luma, so the shift drops it. -/
theorem neutralChromaGivesLuma : Obligations.NeutralChromaGivesLuma := by
  intro bias y ch small _
  by_cases alpha : ch = 3
  · rw [yccByte, if_pos alpha, if_pos alpha]
  · have quotient : ((y.toNat : Int) * 1048576 + bias) / 1048576 = y.toNat := by omega
    have value := toNat_yccByte small y 128 128 alpha
    rw [exactChannel_neutral, quotient, clampInt_byte] at value
    rw [if_neg alpha]
    exact BitVec.eq_of_toNat_eq (Int.ofNat_inj.1 value)

/-! ### The image -/

/-- Byte `ch` of pixel (x, y) belongs to that pixel (R66). -/
theorem pixel_of_byte (s : State) {x ch : Nat} (y : Nat) (hx : x < s.arg 5) (hch : ch < 4) :
    pixelX s (4 * (y * s.arg 5 + x) + ch) = x ∧ pixelY s (4 * (y * s.arg 5 + x) + ch) = y ∧
      (4 * (y * s.arg 5 + x) + ch) % 4 = ch := by
  have pixel : (4 * (y * s.arg 5 + x) + ch) / 4 = y * s.arg 5 + x := by omega
  refine ⟨?_, ?_, by omega⟩
  · rw [pixelX, pixel, Nat.mul_add_mod_self_right, Nat.mod_eq_of_lt hx]
  · rw [pixelY, pixel, Nat.mul_comm, Nat.mul_add_div (by omega), Nat.div_eq_of_lt hx, Nat.add_zero]

theorem pixel_byte_lt_rgbaCount (s : State) {x y ch : Nat} (hx : x < s.arg 5) (hy : y < s.arg 6) (hch : ch < 4) :
    4 * (y * s.arg 5 + x) + ch < rgbaCount s := by
  have rows := Nat.mul_le_mul_right (s.arg 5) (Nat.succ_le_of_lt hy)
  rw [Nat.succ_mul, Nat.mul_comm (s.arg 6)] at rows
  rw [rgbaCount]
  omega

/-- Byte `ch` of pixel (x, y) of the image that a colour command writes (R210, R66). -/
theorem read_fill_pixel (s : State) (pixel : Nat → Nat → Nat → Byte) {x y ch : Nat} (hx : x < s.arg 5)
    (hy : y < s.arg 6) (hch : ch < 4) :
    (s.mem.fill (rgbaAddr s) (fun j => pixel (pixelX s j) (pixelY s j) (j % 4)) (rgbaCount s)).read
      (s.arg 4 + 4 * (y * s.arg 5 + x) + ch) = pixel x y ch := by
  obtain ⟨column, row, byte⟩ := pixel_of_byte s y hx hch
  have written := s.mem.read_fill_at (rgbaAddr s) (fun j => pixel (pixelX s j) (pixelY s j) (j % 4)) _ _
    (pixel_byte_lt_rgbaCount s hx hy hch) fun _ _ _ _ => Nat.add_left_cancel
  rwa [column, row, byte, rgbaAddr, ← Nat.add_assoc] at written

/-! ### YCC2RGBA and GRAY2RGBA -/

/-- The read set of the plane at `p` lies in memory and apart from the image (R210). -/
def PlaneApart (s : State) (p : Nat) : Prop :=
  p + (s.arg 6 - 1) * s.arg 3 + s.arg 5 ≤ s.params.memSize ∧
    (s.arg 4 + rgbaCount s ≤ p ∨ p + (s.arg 6 - 1) * s.arg 3 + s.arg 5 ≤ s.arg 4)

/-- Legal sizes, and sets in memory and apart, pass the checks (R210). -/
theorem colorCheck_passes {planes : List Nat} {s : State} (w1 : 1 ≤ s.arg 5) (w2 : s.arg 5 ≤ 65535)
    (h1 : 1 ≤ s.arg 6) (h2 : s.arg 6 ≤ 65535) (stride : s.arg 5 ≤ s.arg 3)
    (sources : ∀ p ∈ planes, PlaneApart s p) (target : s.arg 4 + rgbaCount s ≤ s.params.memSize) :
    colorCheck planes s = none := by
  have pos : 1 * 1 ≤ s.arg 5 * s.arg 6 := Nat.mul_le_mul w1 h1
  have written : 4 ≤ rgbaCount s := by rw [rgbaCount]; omega
  refine (colorCheck_none planes s).2 ⟨⟨w1, w2, h1, h2, stride⟩, fun p mem => ?_, by omega, fun p mem => ?_⟩ <;>
    have last := planeLast_succ s p w1 <;>
    obtain ⟨source, apart⟩ := sources p mem <;>
    omega

theorem exec_ycc2rgba_completes {s : State} (check : colorCheck (yccPlanes s) s = none) :
    exec .ycc2rgba s = .next { s with
      mem := s.mem.fill (rgbaAddr s) (yccImageByte s) (rgbaCount s)
      busy := false } := by
  simp only [exec, execYcc2rgba]
  exact checked_none check _ s

theorem exec_gray2rgba_completes {s : State} (check : colorCheck (grayPlanes s) s = none) :
    exec .gray2rgba s = .next { s with
      mem := s.mem.fill (rgbaAddr s) (grayImageByte s) (rgbaCount s)
      busy := false } := by
  simp only [exec, execGray2rgba]
  exact checked_none check _ s

/-- A byte of the image of YCC2RGBA (R211). -/
theorem read_yccImage (s : State) {x y ch : Nat} (hx : x < s.arg 5) (hy : y < s.arg 6) (hch : ch < 4) :
    (s.mem.fill (rgbaAddr s) (yccImageByte s) (rgbaCount s)).read (s.arg 4 + 4 * (y * s.arg 5 + x) + ch) =
      yccByte s.params.ccYBias.val (planeSample s (s.arg 0) x y) (planeSample s (s.arg 1) x y)
        (planeSample s (s.arg 2) x y) ch :=
  read_fill_pixel s (fun x y => yccByte s.params.ccYBias.val (planeSample s (s.arg 0) x y)
    (planeSample s (s.arg 1) x y) (planeSample s (s.arg 2) x y)) hx hy hch

/-- A colour byte of the image of YCC2RGBA in exact integers (R211, R214). -/
theorem toNat_read_yccImage (s : State) {x y ch : Nat} (hx : x < s.arg 5) (hy : y < s.arg 6) (hch : ch < 3) :
    (((s.mem.fill (rgbaAddr s) (yccImageByte s) (rgbaCount s)).read
        (s.arg 4 + 4 * (y * s.arg 5 + x) + ch)).toNat : Int) =
      clampInt (exactChannel s.params.ccYBias.val (planeSample s (s.arg 0) x y) (planeSample s (s.arg 1) x y)
        (planeSample s (s.arg 2) x y) ch / 1048576) := by
  rw [read_yccImage s hx hy (by omega), toNat_yccByte s.params.ccYBias.isLt _ _ _ (by omega)]

/-- A byte of the image of GRAY2RGBA (R213). -/
theorem read_grayImage (s : State) {x y ch : Nat} (hx : x < s.arg 5) (hy : y < s.arg 6) (hch : ch < 4) :
    (s.mem.fill (rgbaAddr s) (grayImageByte s) (rgbaCount s)).read (s.arg 4 + 4 * (y * s.arg 5 + x) + ch) =
      grayByte (planeSample s (s.arg 0) x y) ch :=
  read_fill_pixel s (fun x y => grayByte (planeSample s (s.arg 0) x y)) hx hy hch

/-- Settles O52: the checks pass, and each colour byte is its exact channel, shifted and clamped. -/
theorem yccWritesThePixels : Obligations.YccWritesThePixels := by
  refine ⟨by decide, ?_⟩
  rintro s _ _ rfl rfl w1 w2 h1 h2 stride sources target
  have planes : ∀ p ∈ yccPlanes s, PlaneApart s p := by
    simp only [yccPlanes, List.forall_mem_cons]
    exact ⟨sources 0 (by decide), sources 1 (by decide), sources 2 (by decide), by simp⟩
  refine ⟨_, exec_ycc2rgba_completes (colorCheck_passes w1 w2 h1 h2 stride planes target), ?_,
    fun a outside => Memory.read_fill_ne _ _ _ _ a outside⟩
  rintro x y hx hy _ _ _ rfl rfl rfl
  exact ⟨toNat_read_yccImage s hx hy (ch := 0) (by decide), toNat_read_yccImage s hx hy (ch := 1) (by decide),
    toNat_read_yccImage s hx hy (ch := 2) (by decide), read_yccImage s hx hy (by decide)⟩

/-- Settles O53: the checks pass, and each byte is the luma or 255. -/
theorem grayWritesThePixels : Obligations.GrayWritesThePixels := by
  refine ⟨by decide, ?_⟩
  rintro s _ _ rfl rfl w1 w2 h1 h2 stride source apart target
  have planes : ∀ p ∈ grayPlanes s, PlaneApart s p := by
    simp only [grayPlanes, List.mem_singleton, forall_eq]
    exact ⟨source, apart⟩
  refine ⟨_, exec_gray2rgba_completes (colorCheck_passes w1 w2 h1 h2 stride planes target),
    fun x y ch hx hy hch => ?_, fun x y hx hy => read_grayImage s hx hy (by decide),
    fun a outside => Memory.read_fill_ne _ _ _ _ a outside⟩
  rw [read_grayImage s hx hy (by omega), grayByte, if_neg (by omega)]
  rfl

end Sys2Proof.Machine
end

section
/-! PROOFS of the statements about faults (spec/60_exceptions.md). The table of R233 is written command by command, and
each procedure and each list of checks raises only faults of its command's row. -/

namespace Sys2Proof.Machine

open Sys2Proof

/-- The rows of R233 read by command: the faults that the run of each command may raise. -/
@[simp] def commandFaults : Instr → List FaultCode
  | .brinit => [.memRange, .badArgs]
  | .brreset => []
  | .refill => [.truncated]
  | .peek _ => [.badWidth, .truncated]
  | .getbits _ => [.badWidth, .truncated, .bitsUnderrun]
  | .recext _ => [.badWidth, .truncated, .bitsUnderrun]
  | .rstsync => [.truncated, .rstMissing]
  | .hbuild _ _ => [.memRange, .huffBadTable]
  | .hdec _ _ => [.huffNoTable, .truncated, .huffBadCode]
  | .qload _ => [.memRange]
  | .idct _ => [.qtNotLoaded, .badArgs, .memRange]
  | .upx => [.badArgs, .memRange]
  | .upy => [.badArgs, .memRange]
  | .ycc2rgba => [.badArgs, .memRange]
  | .gray2rgba => [.badArgs, .memRange]

/-! ### The faults that a procedure raises -/

/-- Every fault that a result raises is one of `codes`. -/
def Eff.RaisesIn {α : Type} (codes : List FaultCode) (m : Eff α) : Prop :=
  ∀ c s, m = .raised c s → c ∈ codes

section
variable {α β : Type} {codes : List FaultCode}

theorem raisesIn_done (a : α) (s : State) : (Eff.done a s).RaisesIn codes := by
  rintro _ _ ⟨⟩

theorem raisesIn_stopped (f : Fault) : (Eff.stopped f : Eff α).RaisesIn codes := by
  rintro _ _ ⟨⟩

theorem raisesIn_raised {c : FaultCode} (h : c ∈ codes) (s : State) : (Eff.raised c s : Eff α).RaisesIn codes := by
  rintro _ _ ⟨⟩
  exact h

/-- A sequence raises what its parts raise. -/
theorem raisesIn_andThen {m : Eff α} {k : α → State → Eff β} (hm : m.RaisesIn codes)
    (hk : ∀ a s, (k a s).RaisesIn codes) : (m.andThen k).RaisesIn codes := by
  intro c t h
  obtain first | ⟨a, s, _, second⟩ := (andThen_eq_raised m k c t).1 h
  · exact hm c t first
  · exact hk a s c t second

end

section
variable {codes : List FaultCode} (truncated : .truncated ∈ codes)
include truncated

/-- R100: a read past the end is the one fault of `ReadIn`, and so of every loop that reads through it. -/
theorem readIn_raisesIn (s : State) : (readIn s).RaisesIn codes := by
  obtain ⟨_, e⟩ | ⟨_, _, e⟩ | ⟨_, _, e⟩ := readIn_cases s <;> rw [e]
  · exact raisesIn_raised truncated s
  · exact raisesIn_stopped _
  · exact raisesIn_done _ _

theorem skipFill_raisesIn (n : Nat) (s : State) : (skipFill n s).RaisesIn codes := by
  induction n generalizing s with
  | zero => exact raisesIn_raised truncated s
  | succ n ih =>
    rw [skipFill]
    refine raisesIn_andThen (readIn_raisesIn truncated s) fun c s1 => ?_
    split
    · exact ih s1
    · exact raisesIn_done _ _

theorem nextByte_raisesIn (s : State) : (nextByte s).RaisesIn codes := by
  unfold nextByte
  split
  · exact raisesIn_done _ _
  · refine raisesIn_andThen (readIn_raisesIn truncated s) fun b s1 => ?_
    split
    · refine raisesIn_andThen (skipFill_raisesIn truncated _ s1) fun c s2 => ?_
      split <;> exact raisesIn_done _ _
    · exact raisesIn_done _ _

theorem refillTurns_raisesIn (n : Nat) (s : State) : (refillTurns n s).RaisesIn codes := by
  induction n generalizing s with
  | zero => exact raisesIn_done _ _
  | succ n ih =>
    rw [refillTurns]
    split
    · exact raisesIn_done _ _
    · refine raisesIn_andThen (nextByte_raisesIn truncated s) fun ob s1 => ?_
      cases ob with
      | none => exact raisesIn_done _ _
      | some b => exact ih (appendByte b s1)

theorem ensureBits_raisesIn (n : Nat) (s : State) : (ensureBits n s).RaisesIn codes := by
  unfold ensureBits
  split
  · exact refillTurns_raisesIn truncated 4 s
  · exact raisesIn_done _ _

/-- R106: `GetBits` raises what its refill raises, or BITS_UNDERRUN. -/
theorem getBits_raisesIn (underrun : .bitsUnderrun ∈ codes) (n : Nat) (s : State) : (getBits n s).RaisesIn codes := by
  refine raisesIn_andThen (ensureBits_raisesIn truncated n s) fun _ s1 => ?_
  split
  · exact raisesIn_raised underrun s1
  · exact raisesIn_done _ _

/-- R112: RSTSYNC finds fewer than two bytes, or no restart marker. -/
theorem rstsync_raisesIn (missing : .rstMissing ∈ codes) (s : State) : (rstsync s).RaisesIn codes := by
  unfold rstsync
  simp only
  split
  · exact raisesIn_raised truncated _
  · split
    · exact raisesIn_stopped _
    · split
      · exact raisesIn_raised missing _
      · exact raisesIn_done _ _

end

theorem decodeSymbol_raisesIn {codes : List FaultCode} (badCode : .huffBadCode ∈ codes) (h : HuffTable) (s : State) :
    (decodeSymbol h s).RaisesIn codes := by
  obtain ⟨n, b, _, e, _⟩ | e := decodeSymbol_cases h s <;> rw [e]
  · exact raisesIn_done _ _
  · exact raisesIn_raised badCode s

/-! ### The faults of the checks -/

/-- The fault of a list of checks is the fault of one of them. -/
theorem firstFailing_mem {l : List (Bool × FaultCode)} {codes : List FaultCode} (listed : ∀ p ∈ l, p.2 ∈ codes)
    {c : FaultCode} (h : firstFailing l = some c) : c ∈ codes := by
  induction l with
  | nil => simp at h
  | cons p rest ih =>
    obtain ⟨here, later⟩ := List.forall_mem_cons.1 listed
    rw [firstFailing_cons] at h
    split at h
    · cases h
      exact here
    · exact ih later h

theorem brinitCheck_mem (s : State) (c : FaultCode) : brinitCheck s = some c → c ∈ [.memRange, .badArgs] :=
  firstFailing_mem (by simp)

theorem hbuildCheck_mem (s : State) (c : FaultCode) : hbuildCheck s = some c → c ∈ [.memRange, .huffBadTable] :=
  firstFailing_mem (by simp)

theorem qloadCheck_mem (s : State) (c : FaultCode) : qloadCheck s = some c → c ∈ [.memRange] :=
  firstFailing_mem (by simp)

theorem idctCheck_mem (t : Fin 4) (s : State) (c : FaultCode) :
    idctCheck t s = some c → c ∈ [.qtNotLoaded, .badArgs, .memRange] :=
  firstFailing_mem (by simp)

theorem upsCheck_mem (s : State) (c : FaultCode) : upsCheck s = some c → c ∈ [.badArgs, .memRange] :=
  firstFailing_mem (by simp)

theorem colorCheck_mem (planes : List Nat) (s : State) (c : FaultCode) :
    colorCheck planes s = some c → c ∈ [.badArgs, .memRange] :=
  firstFailing_mem (by simp)

/-! ### The faults that a command latches -/

/-- A next state has the latch of `s`, or a fault of `codes` in it. -/
def FaultsIn (codes : List FaultCode) (s : State) (o : Host.Outcome State Fault Refusal) : Prop :=
  ∀ t, o = .next t → t.fault = s.fault ∨ ∃ c ∈ codes, t.fault = some c

section
variable {codes : List FaultCode} {s : State}

theorem faultsIn_complete {u : State} (kept : u.fault = s.fault) : FaultsIn codes s (.next (complete u)) := by
  rintro _ ⟨⟩
  exact .inl kept

theorem faultsIn_takeFault {c : FaultCode} (h : c ∈ codes) (u : State) : FaultsIn codes s (.next (takeFault c u)) := by
  rintro _ ⟨⟩
  exact .inr ⟨c, h, rfl⟩

theorem faultsIn_finish {m : Eff Unit} (kept : m.Leaves (CommandKept s)) (raises : m.RaisesIn codes) :
    FaultsIn codes s m.finish := by
  cases m with
  | done a u => exact faultsIn_complete kept.fault
  | raised c u => exact faultsIn_takeFault (raises c u rfl) u
  | stopped f => rintro _ ⟨⟩

theorem faultsIn_checked {check : Option FaultCode} {body : State → State} (listed : ∀ c, check = some c → c ∈ codes)
    (kept : ∀ u, (body u).fault = u.fault) : FaultsIn codes s (checked check body s) := by
  intro t h
  obtain ⟨_, rfl⟩ | ⟨c, fails, rfl⟩ := checked_next check body s t h
  · exact .inl (kept s)
  · exact .inr ⟨c, listed c fails, rfl⟩

theorem faultsIn_withWidth (wide : .badWidth ∈ codes) (n : Nat) {body : State → Eff Word}
    (kept : (body s).Leaves (CommandKept s)) (raises : (body s).RaisesIn codes) :
    FaultsIn codes s (withWidth n body s) := by
  rcases Nat.lt_or_ge 16 n with above | narrow
  · rw [withWidth_wide n body s above]
    exact faultsIn_takeFault wide s
  rcases Nat.eq_zero_or_pos n with rfl | pos
  · rw [withWidth_zero]
    exact faultsIn_complete rfl
  · rw [withWidth_body n body s pos narrow]
    exact faultsIn_finish (leaves_andThen _ _ _ kept fun v s1 _ k => k.trans (setRes_kept v s1))
      (raisesIn_andThen raises fun _ _ => raisesIn_done _ _)

end

theorem execHbuild_faultsIn (c : HClass) (t : Fin 4) (s : State) :
    FaultsIn (commandFaults (.hbuild c t)) s (execHbuild c t s) := by
  obtain ⟨f, fails, e⟩ | ⟨_, _, e⟩ | ⟨b, _, _, e⟩ := execHbuild_cases c t s <;> rw [e]
  · exact faultsIn_takeFault (hbuildCheck_mem s f fails) s
  · exact faultsIn_takeFault (by simp) s
  · exact faultsIn_complete rfl

theorem execHdec_faultsIn (c : HClass) (t : Fin 4) (s : State) :
    FaultsIn (commandFaults (.hdec c t)) s (execHdec c t s) := by
  unfold execHdec
  split
  · exact faultsIn_finish
      (leaves_andThen _ _ _ (ensureBits_commandKept 16 s) fun _ s1 _ kept =>
        (decodeSymbol_kept _ s1).mono fun _ => kept.trans)
      (raisesIn_andThen (ensureBits_raisesIn (by simp) 16 s) fun _ s1 =>
        decodeSymbol_raisesIn (by simp) _ s1)
  · exact faultsIn_takeFault (by simp) s

theorem execPeek_faultsIn (n : Nat) (s : State) : FaultsIn (commandFaults (.peek n)) s (execPeek n s) := by
  unfold execPeek
  exact faultsIn_withWidth (by simp) n (leaves_andThen _ _ _ (ensureBits_commandKept n s) fun _ _ _ kept => kept)
    (raisesIn_andThen (ensureBits_raisesIn (by simp) n s) fun _ _ => raisesIn_done _ _)

theorem execRecext_faultsIn (n : Nat) (s : State) : FaultsIn (commandFaults (.recext n)) s (execRecext n s) := by
  unfold execRecext
  exact faultsIn_withWidth (by simp) n (leaves_andThen _ _ _ (getBits_commandKept n s) fun _ _ _ kept => kept)
    (raisesIn_andThen (getBits_raisesIn (by simp) (by simp) n s) fun _ _ => raisesIn_done _ _)

/-- Every command latches only faults of its row (R233). -/
theorem exec_faultsIn (i : Instr) (s : State) : FaultsIn (commandFaults i) s (exec i s) := by
  cases i with
  | brinit =>
    simp only [exec, execBrinit]
    exact faultsIn_checked (brinitCheck_mem s) fun _ => rfl
  | brreset => exact faultsIn_complete rfl
  | refill =>
    exact faultsIn_finish ((refill_kept s).mono fun _ kept => kept.commandKept) (refillTurns_raisesIn (by simp) 4 s)
  | peek n => exact execPeek_faultsIn n s
  | getbits n =>
    exact faultsIn_withWidth (by simp) n (getBits_commandKept n s) (getBits_raisesIn (by simp) (by simp) n s)
  | recext n => exact execRecext_faultsIn n s
  | rstsync => exact faultsIn_finish (rstsync_kept s) (rstsync_raisesIn (by simp) (by simp) s)
  | hbuild c t => exact execHbuild_faultsIn c t s
  | hdec c t => exact execHdec_faultsIn c t s
  | qload t =>
    simp only [exec, execQload]
    exact faultsIn_checked (qloadCheck_mem s) fun _ => rfl
  | idct t =>
    simp only [exec, execIdct]
    exact faultsIn_checked (idctCheck_mem t s) fun _ => rfl
  | upx =>
    simp only [exec, execUpx]
    exact faultsIn_checked (upsCheck_mem s) fun _ => rfl
  | upy =>
    simp only [exec, execUpy]
    exact faultsIn_checked (upsCheck_mem s) fun _ => rfl
  | ycc2rgba =>
    simp only [exec, execYcc2rgba]
    exact faultsIn_checked (colorCheck_mem _ s) fun _ => rfl
  | gray2rgba =>
    simp only [exec, execGray2rgba]
    exact faultsIn_checked (colorCheck_mem _ s) fun _ => rfl

/-- From FAULT = 0, a fault latched by a command is one of its row (R233). -/
theorem exec_fault_mem {i : Instr} {s t : State} {c : FaultCode} (ok : s.fault = none) (run : exec i s = .next t)
    (latched : t.fault = some c) : c ∈ commandFaults i := by
  obtain same | ⟨c', listed, raised⟩ := exec_faultsIn i s t run
  · simp [same, ok] at latched
  · obtain rfl : c' = c := by simpa [raised] using latched
    exact listed

/-- Settles O15: each command latches only faults of its row, and the rows give the table of R233 code by code. -/
theorem faultCodesOfEachCommand : Obligations.FaultCodesOfEachCommand := by
  refine ⟨fun i s t c ok run latched => ?_, by decide⟩
  have listed : c ∈ commandFaults i := exec_fault_mem ok run latched
  cases i <;> cases c <;> simp at listed ⊢

end Sys2Proof.Machine
end
